-- ==== Sys2Proof/Word.lean ====
section
/-! DEFINITION. The machine's word types (spec/10_state.md R100, R103; spec/00_scope.md R13). -/

namespace Sys2Proof

/-- One byte: the width of A, X, Y, S and of every CPU bus access (R10, R16). -/
abbrev Byte := BitVec 8

/-- A CPU address, and the program counter (R10, R103). -/
abbrev Word := BitVec 16

/-- An address on the PPU's 14-bit bus (R17, R220). -/
abbrev PpuAddr := BitVec 14

/-- The PPU's v and t (R116, R117). -/
abbrev VramAddr := BitVec 15

/-- A pixel value: bits 5-0 the palette colour, bits 8-6 the emphasis bits (R960). -/
abbrev Pixel := BitVec 9

end Sys2Proof
end

