-- ==== Sys2Proof/Config.lean ====
section
/-! DEFINITION. What the spec leaves to a model: the named parameters of spec/00_scope.md R12, as plain data that State
carries and no step writes (log 1), and the free values that the excluded controllers and audio unit answer (log 2). -/

namespace Sys2Proof

/-- The two revisions of the MMC3 counter (R1045, D38). -/
inductive Mmc3Variant where
  | sharp
  | nec
deriving DecidableEq, Repr

/-- The named model parameters of R12, each with the spec's default. `power_on_fill` and `power_on_axy`, which act only
when a cartridge is created, are arguments of `powerOn`. -/
structure Params where
  /-- `PPU_PHASE` (R452, D7) -/
  ppuPhase : Fin 3 := 0
  /-- `NMI_ON_LATE_ENABLE` (R811, D9) -/
  nmiOnLateEnable : Bool := false
  /-- `open_bus(addr)` (R206, D13): the addresses at which it differs from `addr >> 8`, with its value there -/
  openBusAt : List Host.Cell := []
  /-- `OAM_DMA_BASE` (R850, D19) -/
  oamDmaBase : Nat := 513
  /-- `MMC1_RESET_FORCES_PRG_MODE3` (R1021, D35) -/
  mmc1ResetForcesPrgMode3 : Bool := false
  /-- `MMC1_IGNORE_CONSECUTIVE` (R1022, D36) -/
  mmc1IgnoreConsecutive : Bool := true
  /-- `MMC3_IRQ_VARIANT` (R1045, D38) -/
  mmc3IrqVariant : Mmc3Variant := .sharp
  /-- `A12_FILTER_DOTS` (R1046, D39) -/
  a12FilterDots : Nat := 9
  /-- `BREAKPOINT` (R441) -/
  breakpoint : Option Word := none
  /-- `DMC_STEAL` (R1141, D20) -/
  dmcSteal : Nat := 4
deriving DecidableEq, Repr

/-- `apu_status(stamp)` (R205): a free value, for the stamp of the read and the number of callbacks made before it. It is
read only where the host has supplied no byte (log 2). -/
opaque Config.apuStatus : (stamp : Nat) → (index : Nat) → Byte

/-- `ctrl_read(n, stamp)` (R205): a free bit of controller `n`, for the stamp of the read and the number of callbacks made
before it. It is read only where the host has supplied no bit (log 2). -/
opaque Config.ctrlRead : (n : Nat) → (stamp : Nat) → (index : Nat) → Bool

end Sys2Proof
end

