-- ==== Sys2Proof/Machine/State.lean ====
section
/-! DEFINITION. The machine's state as plain data (spec/10_state.md), the reasons a step can stop, and the state right after
power-on and the reset sequence (R150 to R160, R1201). -/

namespace Sys2Proof.Machine

/-- A sparse store in canonical form: indices strictly rising, and no entry equal to what an unlisted index reads as. -/
abbrev Store (α : Type) := List (Nat × α)

/-- A store of bytes; an unlisted byte reads as 0, the default of `power_on_fill` (R160; log 5). -/
abbrev Memory := List Host.Cell

/-- The seven discrete status flags (R104). -/
structure Flags where
  n : Bool
  v : Bool
  b : Bool
  d : Bool
  i : Bool
  z : Bool
  c : Bool
deriving DecidableEq, Repr

/-- The CPU registers (R100, R102, R103, R104). -/
structure Cpu where
  a : Byte
  x : Byte
  y : Byte
  s : Byte
  pc : Word
  p : Flags
deriving DecidableEq, Repr

/-- The nametable layouts (R221). -/
inductive Mirroring where
  | horizontal
  | vertical
  | singleLower
  | singleUpper
  | fourScreen
deriving DecidableEq, Repr

/-- The header's own mirroring (R11). -/
inductive HeaderMirroring where
  | horizontal
  | vertical
deriving DecidableEq, Repr

/-- The header's region (R6): recorded, with no effect. -/
inductive Region where
  | ntsc
  | pal
deriving DecidableEq, Repr

/-- The per-cartridge parameters (R11). -/
structure Header where
  /-- number of 16 KB PRG units, at least 1 -/
  prg16Count : Nat
  /-- number of 8 KB CHR-ROM units; 0 means 8 KB of CHR-RAM -/
  chr8Count : Nat
  headerMirroring : HeaderMirroring
  fourScreen : Bool
  battery : Bool
  /-- the 512 trainer bytes, or absent -/
  trainer : Option (Vector Byte 512)
  region : Region
deriving DecidableEq, Repr

/-- MMC1 (R1020). -/
structure Mmc1 where
  shift : BitVec 5
  count : Fin 5
  control : BitVec 5
  chr0 : BitVec 5
  chr1 : BitVec 5
  prg : BitVec 5
  lastWriteCycle : Option Nat
deriving DecidableEq, Repr

/-- MMC3 (R1040). -/
structure Mmc3 where
  bankSelect : Byte
  bank : Vector Byte 8
  mirror : Bool
  irqLatch : Byte
  irqCounter : Byte
  irqReload : Bool
  irqEnable : Bool
  irqPending : Bool
  a12Prev : Bool
  a12LowSince : Nat
deriving DecidableEq, Repr

/-- VRC1 (R1060). -/
structure Vrc1 where
  prg0 : BitVec 4
  prg1 : BitVec 4
  prg2 : BitVec 4
  chr0 : BitVec 5
  chr1 : BitVec 5
  mirror : Bool
deriving DecidableEq, Repr

/-- VRC2b (R1070). -/
structure Vrc2b where
  prg0 : BitVec 5
  prg1 : BitVec 5
  chr : Vector Byte 8
  mirror : Bool
deriving DecidableEq, Repr

/-- Mapper 68, Sunsoft-4 (R1080). -/
structure Sunsoft4 where
  chr : Vector Byte 4
  nt0 : BitVec 7
  nt1 : BitVec 7
  ctl : Byte
  prg : BitVec 4
deriving DecidableEq, Repr

/-- The closed set of mapper variants, each with its registers (R1000, R121). -/
inductive Mapper where
  /-- mapper 0: no registers (R1010) -/
  | nrom
  /-- mapper 1 -/
  | mmc1 (m : Mmc1)
  /-- mapper 4 -/
  | mmc3 (m : Mmc3)
  /-- mapper 75 -/
  | vrc1 (m : Vrc1)
  /-- mapper 23 -/
  | vrc2b (m : Vrc2b)
  /-- mapper 68 -/
  | sunsoft4 (m : Sunsoft4)
deriving DecidableEq, Repr

/-- The current bank windows and nametable mode (R114). -/
structure Windows where
  /-- 8 KB page of each CPU window $8000, $A000, $C000, $E000 -/
  prg : Vector Nat 4
  /-- 1 KB page of each PPU window $0000, $0400, ..., $1C00 -/
  chr : Vector Nat 8
  mirroring : Mirroring
deriving DecidableEq, Repr

/-- The cartridge (R112, R113, R114, R121). -/
structure Cartridge where
  header : Header
  prg : Memory
  chr : Memory
  wram : Memory
  mapper : Mapper
  windows : Windows
deriving DecidableEq, Repr

/-- The PPU's register-level state (R116). -/
structure PpuRegs where
  ctrl : Byte
  mask : Byte
  vblank : Bool
  sprite0Hit : Bool
  spriteOverflow : Bool
  oamaddr : Byte
  v : VramAddr
  t : VramAddr
  x : BitVec 3
  w : Bool
  readBuffer : Byte
  ioLatch : Byte
deriving DecidableEq, Repr

/-- The PPU's timing state (R118). -/
structure PpuTime where
  scanline : Nat
  dot : Nat
  oddFrame : Bool
  dotClock : Nat
  frameReady : Bool
deriving DecidableEq, Repr

/-- The background pipeline (R119). -/
structure BgPipe where
  ntByte : Byte
  atByte : Byte
  loByte : Byte
  hiByte : Byte
  palNext : BitVec 2
  shLo : BitVec 16
  shHi : BitVec 16
  shAlo : BitVec 16
  shAhi : BitVec 16
deriving DecidableEq, Repr

/-- One sprite slot of the current line: `spr_lo[i]`, `spr_hi[i]`, `spr_attr[i]`, `spr_x[i]` (R119). -/
structure SprUnit where
  lo : Byte
  hi : Byte
  attr : Byte
  x : Byte
deriving DecidableEq, Repr

/-- The sprite pipeline (R119). -/
structure SprPipe where
  count : Nat
  zeroNext : Bool
  zeroLine : Bool
  units : Vector SprUnit 8
  lineCount : Nat
deriving DecidableEq, Repr

/-- The four bytes of a sprite: Y, tile, attributes, X (R822). -/
structure OamEntry where
  y : Byte
  tile : Byte
  attr : Byte
  x : Byte
deriving DecidableEq, Repr

/-- The PPU's memories (R115). -/
structure PpuMem where
  ciram : Memory
  palette : Store (BitVec 6)
  oam : Memory
  /-- secondary OAM, eight slots of four bytes -/
  oam2 : Vector OamEntry 8
deriving DecidableEq, Repr

/-- The PPU. `pixels` is the output buffer (R120): a store of lines, each a store of pixel values by column. -/
structure Ppu where
  regs : PpuRegs
  time : PpuTime
  bg : BgPipe
  spr : SprPipe
  mem : PpuMem
  pixels : Store (Store Pixel)
deriving DecidableEq, Repr

/-- What the PPU's dots can change: the PPU, the cartridge it observes and fetches through, and the NMI latch (R108). -/
structure Devices where
  ppu : Ppu
  cart : Cartridge
  nmiPending : Bool
deriving DecidableEq, Repr

/-- A callback the core made (R1171), with its stamp. -/
inductive HostCall where
  | audioWrite (a : Word) (v : Byte) (stamp : Nat)
  | apuStatus (stamp : Nat)
  | ctrlStrobe (b : Bool) (stamp : Nat)
  | ctrlRead (n : Nat) (stamp : Nat)
deriving DecidableEq, Repr

/-- The model's own fields for the host's side of the interface (logs 2, 3, 17): what it will supply, and the callbacks the
core has made, newest first. -/
structure HostSide where
  /-- the level of `EXT_IRQ` (R109) -/
  extIrq : Bool
  /-- the levels of `EXT_IRQ` at the boundaries to come -/
  extIrqNext : List Bool
  /-- the bytes `apu_status` will answer (R205) -/
  apuNext : List Byte
  /-- the bits `ctrl_read(1)` will answer -/
  ctrl1Next : List Bool
  /-- the bits `ctrl_read(2)` will answer -/
  ctrl2Next : List Bool
  calls : List HostCall
deriving DecidableEq, Repr

/-- The machine. -/
structure State where
  cpu : Cpu
  /-- the cycle counter, unbounded (R106) -/
  cycles : Nat
  /-- the sticky diagnostic flag (R107) -/
  unsupportedSeen : Bool
  /-- writes to $4014 of the step in progress (R851) -/
  pendingDma : Nat
  /-- CPU internal RAM, `ram[0..2047]` (R111) -/
  ram : Memory
  dev : Devices
  host : HostSide
  params : Params
deriving DecidableEq, Repr

/-- The faults of a step: none. "There is no illegal-instruction trap, no alignment or access fault, no stack overflow fault,
no divide error and no privilege fault" (R1101), so the type has no constructor (log 18, safe). -/
inductive Fault
deriving DecidableEq, Repr

/-- The refusals of a step. -/
inductive Refusal where
  /-- raised by an arm of `exec` whose instruction has no meaning yet; no arm does (safe) -/
  | notModelled (mnemonic : String)
deriving DecidableEq, Repr

/-- The machine at its first boundary: the cartridge of log 4 (no program), memories at `power_on_fill` 0 (log 5), the
registers of R150 and R152, and the reset sequence of R1201 done: S = $FD, I = 1, PC the word at $FFFC (that of an empty PRG,
$0000), 7 cycles charged and the 21 dots before them run. -/
def State.reset : State where
  cpu :=
    { a := 0, x := 0, y := 0, s := 0xFD, pc := 0
      p := { n := false, v := false, b := false, d := false, i := true, z := false, c := false } }
  cycles := 7
  unsupportedSeen := false
  pendingDma := 0
  ram := []
  dev :=
    { ppu :=
        { regs :=
            { ctrl := 0, mask := 0, vblank := false, sprite0Hit := false, spriteOverflow := false, oamaddr := 0,
              v := 0, t := 0, x := 0, w := false, readBuffer := 0, ioLatch := 0 }
          time := { scanline := 0, dot := 21, oddFrame := false, dotClock := 21, frameReady := false }
          bg := { ntByte := 0, atByte := 0, loByte := 0, hiByte := 0, palNext := 0, shLo := 0, shHi := 0, shAlo := 0, shAhi := 0 }
          spr :=
            { count := 0, zeroNext := false, zeroLine := false
              units := Vector.replicate 8 { lo := 0, hi := 0, attr := 0, x := 0 }
              lineCount := 0 }
          mem := { ciram := [], palette := [], oam := [], oam2 := Vector.replicate 8 { y := 0, tile := 0, attr := 0, x := 0 } }
          pixels := [] }
      cart :=
        { header :=
            { prg16Count := 1, chr8Count := 0, headerMirroring := .horizontal, fourScreen := false, battery := false,
              trainer := none, region := .ntsc }
          prg := [], chr := [], wram := [], mapper := .nrom
          windows := { prg := #v[0, 1, 0, 1], chr := #v[0, 1, 2, 3, 4, 5, 6, 7], mirroring := .horizontal } }
      nmiPending := false }
  host := { extIrq := false, extIrqNext := [], apuNext := [], ctrl1Next := [], ctrl2Next := [], calls := [] }
  params := {}

end Sys2Proof.Machine
end

