-- ==== Sys2Proof/Machine/Flags.lean ====
section
/-! DEFINITION. The packed status byte (spec/10_state.md R104) and every result and flag computation of the arithmetic, logic,
compare, increment, shift and rotate rules (spec/43_arith_logic_compare.md, spec/44_incdec_shift.md). -/

namespace Sys2Proof.Machine

/-- A flag as the number 0 or 1 (R15). -/
def flagBit (b : Bool) : Nat := if b then 1 else 0

/-- `pack(bflag)`: N V 1 B D I Z C from bit 7 to bit 0 (R104). -/
def Flags.pack (f : Flags) (bflag : Bool) : Byte :=
  BitVec.ofBool f.n ++ BitVec.ofBool f.v ++ (1 : BitVec 1) ++ BitVec.ofBool bflag ++
  BitVec.ofBool f.d ++ BitVec.ofBool f.i ++ BitVec.ofBool f.z ++ BitVec.ofBool f.c

/-- `unpack(p)`: bit 5 is discarded, bit 4 goes to the discrete B field (R104). -/
def Flags.unpack (p : Byte) : Flags :=
  { n := p.getLsbD 7, v := p.getLsbD 6, b := p.getLsbD 4, d := p.getLsbD 3,
    i := p.getLsbD 2, z := p.getLsbD 1, c := p.getLsbD 0 }

/-- `setNZ(v)` (R15). -/
def Flags.setNZ (f : Flags) (v : Byte) : Flags := { f with n := v.getLsbD 7, z := v == 0 }

/-- ADC: the result and the flags, binary whatever D holds (R610, R601). -/
def addWithCarry (a m : Byte) (f : Flags) : Byte × Flags :=
  let sum := a.toNat + m.toNat + flagBit f.c
  let r : Byte := BitVec.ofNat 8 sum
  let f := { f with v := (~~~(a ^^^ m) &&& (a ^^^ r) &&& 0x80) != 0, c := decide (0x100 ≤ sum) }
  (r, f.setNZ r)

/-- SBC: the result and the flags, binary whatever D holds (R611, R601). -/
def subWithBorrow (a m : Byte) (f : Flags) : Byte × Flags :=
  let diff := a.toNat + (m ^^^ 0xFF).toNat + flagBit f.c
  let r : Byte := BitVec.ofNat 8 diff
  let f := { f with v := ((a ^^^ m) &&& (a ^^^ r) &&& 0x80) != 0, c := decide (0x100 ≤ diff) }
  (r, f.setNZ r)

/-- CMP, CPX, CPY: the flags of `reg - m`; V is unchanged (R616 to R618). -/
def compareFlags (reg m : Byte) (f : Flags) : Flags :=
  { f with c := decide (m.toNat ≤ reg.toNat) }.setNZ (reg - m)

/-- BIT: Z from the and, N and V from the operand (R615). -/
def bitFlags (a m : Byte) (f : Flags) : Flags :=
  { f with z := a &&& m == 0, n := m.getLsbD 7, v := m.getLsbD 6 }

/-- INC (R660). -/
def incOp (old : Byte) (f : Flags) : Byte × Flags := (old + 1, f.setNZ (old + 1))

/-- DEC (R661). -/
def decOp (old : Byte) (f : Flags) : Byte × Flags := (old - 1, f.setNZ (old - 1))

/-- ASL (R670). -/
def aslOp (v : Byte) (f : Flags) : Byte × Flags :=
  let r := v <<< 1
  (r, { f with c := v.getLsbD 7 }.setNZ r)

/-- LSR (R671). -/
def lsrOp (v : Byte) (f : Flags) : Byte × Flags :=
  let r := v >>> 1
  (r, { f with c := v.getLsbD 0 }.setNZ r)

/-- ROL, nine bits wide through C (R672). -/
def rolOp (v : Byte) (f : Flags) : Byte × Flags :=
  let r := (v <<< 1) ||| (BitVec.ofBool f.c).setWidth 8
  (r, { f with c := v.getLsbD 7 }.setNZ r)

/-- ROR, nine bits wide through C (R673). -/
def rorOp (v : Byte) (f : Flags) : Byte × Flags :=
  let r := (v >>> 1) ||| ((BitVec.ofBool f.c).setWidth 8 <<< 7)
  (r, { f with c := v.getLsbD 0 }.setNZ r)

end Sys2Proof.Machine
end

