-- ==== Sys2Proof/Syntax.lean ====
section
/-! DEFINITION. The instruction set as syntax (spec/30_encoding.md R301, R303, R305; log 19). An instruction is a
constructor (its mnemonic, and its rule where one mnemonic has two) with its operand form, so that a row of
spec/opcode_table.json is a constructor together with the constructor of its operand. -/

namespace Sys2Proof

/-- The addressing modes that give an effective address (R413 to R420). -/
inductive MemMode where
  /-- zero page, R413 -/
  | zp (z : Byte)
  /-- zero page,X, R414 -/
  | zpx (z : Byte)
  /-- zero page,Y, R415 -/
  | zpy (z : Byte)
  /-- absolute, R416 -/
  | abs (a : Word)
  /-- absolute,X, R417 -/
  | abx (a : Word)
  /-- absolute,Y, R418 -/
  | aby (a : Word)
  /-- (zp,X), R419 -/
  | izx (z : Byte)
  /-- (zp),Y, R420 -/
  | izy (z : Byte)
deriving DecidableEq, Repr

/-- The operand of a read-kind instruction: the immediate byte (R412) or a memory mode (R404). -/
inductive ReadOperand where
  | imm (b : Byte)
  | mem (m : MemMode)
deriving DecidableEq, Repr

/-- The addressing modes of the read-modify-write rows (R404, R431, R660 to R673). -/
inductive RmwMode where
  | zp (z : Byte)
  | zpx (z : Byte)
  | abs (a : Word)
  | abx (a : Word)
deriving DecidableEq, Repr

/-- The instructions of spec/opcode_table.json. -/
inductive Instr where
  -- loads and stores, R501 to R506
  | lda (o : ReadOperand)
  | ldx (o : ReadOperand)
  | ldy (o : ReadOperand)
  | sta (m : MemMode)
  | stx (m : MemMode)
  | sty (m : MemMode)
  -- transfers, R510 to R515
  | tax
  | tay
  | txa
  | tya
  | tsx
  | txs
  -- stack, R560 to R563
  | pha
  | php
  | pla
  | plp
  -- arithmetic, logic, compare, R610 to R618
  | adc (o : ReadOperand)
  | sbc (o : ReadOperand)
  | and (o : ReadOperand)
  | ora (o : ReadOperand)
  | eor (o : ReadOperand)
  | bit (m : MemMode)
  | cmp (o : ReadOperand)
  | cpx (o : ReadOperand)
  | cpy (o : ReadOperand)
  -- increment and decrement, R660 to R665
  | inc (m : RmwMode)
  | dec (m : RmwMode)
  | inx
  | iny
  | dex
  | dey
  -- shifts and rotates, R670 to R673: the accumulator form and the memory form
  | aslAcc
  | asl (m : RmwMode)
  | lsrAcc
  | lsr (m : RmwMode)
  | rolAcc
  | rol (m : RmwMode)
  | rorAcc
  | ror (m : RmwMode)
  -- jumps, calls, returns, BRK, R710 to R715
  | jmp (target : Word)
  | jmpInd (pointer : Word)
  | jsr (target : Word)
  | rts
  | rti
  | brk
  -- branches, R721 to R728
  | bpl (offset : Byte)
  | bmi (offset : Byte)
  | bvc (offset : Byte)
  | bvs (offset : Byte)
  | bcc (offset : Byte)
  | bcs (offset : Byte)
  | bne (offset : Byte)
  | beq (offset : Byte)
  -- flag instructions and NOP, R760 to R770
  | clc
  | sec
  | cli
  | sei
  | cld
  | sed
  | clv
  | nop
  /-- one of the 105 bytes without an official row, R306, R790 -/
  | unsupported (op : Byte)
deriving DecidableEq, Repr

/-- The memory mode of a read-modify-write operand. -/
def RmwMode.toMem : RmwMode → MemMode
  | .zp z => .zp z
  | .zpx z => .zpx z
  | .abs a => .abs a
  | .abx a => .abx a

/-- How many operand bytes a memory mode takes (R301). -/
def MemMode.size : MemMode → Nat
  | .zp _ | .zpx _ | .zpy _ | .izx _ | .izy _ => 1
  | .abs _ | .abx _ | .aby _ => 2

/-- How many operand bytes the operand of a read-kind instruction takes (R301). -/
def ReadOperand.size : ReadOperand → Nat
  | .imm _ => 1
  | .mem m => m.size

/-- The length of an instruction in bytes: the formats F1, F2, F3 (R301, R308). BRK is F1 (R302). -/
def Instr.length : Instr → Nat
  | .lda o | .ldx o | .ldy o | .adc o | .sbc o | .and o | .ora o | .eor o | .cmp o | .cpx o | .cpy o => 1 + o.size
  | .sta m | .stx m | .sty m | .bit m => 1 + m.size
  | .inc m | .dec m | .asl m | .lsr m | .rol m | .ror m => 1 + m.toMem.size
  | .jmp _ | .jmpInd _ | .jsr _ => 3
  | .bpl _ | .bmi _ | .bvc _ | .bvs _ | .bcc _ | .bcs _ | .bne _ | .beq _ => 2
  | .tax | .tay | .txa | .tya | .tsx | .txs | .pha | .php | .pla | .plp | .inx | .iny | .dex | .dey
  | .aslAcc | .lsrAcc | .rolAcc | .rorAcc | .rts | .rti | .brk
  | .clc | .sec | .cli | .sei | .cld | .sed | .clv | .nop | .unsupported _ => 1

end Sys2Proof
end

