-- ==== Sys2Proof/WellFormed.lean ====
section
/-! DEFINITION. Which terms of Instr stand for a row of spec/opcode_table.json (spec/30_encoding.md R305, R306). -/

namespace Sys2Proof

/-- The 105 bytes without an official row, in the rows of R306's table. -/
def unsupportedBytes : List Byte :=
  [0x02, 0x03, 0x04, 0x07, 0x0B, 0x0C, 0x0F] ++
  [0x12, 0x13, 0x14, 0x17, 0x1A, 0x1B, 0x1C, 0x1F] ++
  [0x22, 0x23, 0x27, 0x2B, 0x2F] ++
  [0x32, 0x33, 0x34, 0x37, 0x3A, 0x3B, 0x3C, 0x3F] ++
  [0x42, 0x43, 0x44, 0x47, 0x4B, 0x4F] ++
  [0x52, 0x53, 0x54, 0x57, 0x5A, 0x5B, 0x5C, 0x5F] ++
  [0x62, 0x63, 0x64, 0x67, 0x6B, 0x6F] ++
  [0x72, 0x73, 0x74, 0x77, 0x7A, 0x7B, 0x7C, 0x7F] ++
  [0x80, 0x82, 0x83, 0x87, 0x89, 0x8B, 0x8F] ++
  [0x92, 0x93, 0x97, 0x9B, 0x9C, 0x9E, 0x9F] ++
  [0xA3, 0xA7, 0xAB, 0xAF] ++
  [0xB2, 0xB3, 0xB7, 0xBB, 0xBF] ++
  [0xC2, 0xC3, 0xC7, 0xCB, 0xCF] ++
  [0xD2, 0xD3, 0xD4, 0xD7, 0xDA, 0xDB, 0xDC, 0xDF] ++
  [0xE2, 0xE3, 0xE7, 0xEB, 0xEF] ++
  [0xF2, 0xF3, 0xF4, 0xF7, 0xFA, 0xFB, 0xFC, 0xFF]

/-- The modes of the accumulator group (LDA, STA, ADC, SBC, AND, ORA, EOR, CMP): all but zero page,Y. -/
def MemMode.okAcc : MemMode → Bool
  | .zpy _ => false
  | _ => true

/-- The memory modes of LDX (R502). -/
def MemMode.okLdx : MemMode → Bool
  | .zp _ | .zpy _ | .abs _ | .aby _ => true
  | _ => false

/-- The memory modes of LDY (R503). -/
def MemMode.okLdy : MemMode → Bool
  | .zp _ | .zpx _ | .abs _ | .abx _ => true
  | _ => false

/-- The modes of STX (R505). -/
def MemMode.okStx : MemMode → Bool
  | .zp _ | .zpy _ | .abs _ => true
  | _ => false

/-- The modes of STY (R506). -/
def MemMode.okSty : MemMode → Bool
  | .zp _ | .zpx _ | .abs _ => true
  | _ => false

/-- The memory modes of BIT, CPX and CPY (R615, R617, R618). -/
def MemMode.okDirect : MemMode → Bool
  | .zp _ | .abs _ => true
  | _ => false

/-- A read operand whose memory mode passes a check; the immediate form always does. -/
def ReadOperand.ok (check : MemMode → Bool) : ReadOperand → Bool
  | .imm _ => true
  | .mem m => check m

/-- The instruction is one of the rows of R305 and R306. -/
def Instr.wellFormed : Instr → Bool
  | .lda o | .adc o | .sbc o | .and o | .ora o | .eor o | .cmp o => o.ok MemMode.okAcc
  | .ldx o => o.ok MemMode.okLdx
  | .ldy o => o.ok MemMode.okLdy
  | .sta m => m.okAcc
  | .stx m => m.okStx
  | .sty m => m.okSty
  | .bit m => m.okDirect
  | .cpx o | .cpy o => o.ok MemMode.okDirect
  | .unsupported op => unsupportedBytes.contains op
  | .tax | .tay | .txa | .tya | .tsx | .txs | .pha | .php | .pla | .plp
  | .inc _ | .dec _ | .inx | .iny | .dex | .dey
  | .aslAcc | .asl _ | .lsrAcc | .lsr _ | .rolAcc | .rol _ | .rorAcc | .ror _
  | .jmp _ | .jmpInd _ | .jsr _ | .rts | .rti | .brk
  | .bpl _ | .bmi _ | .bvc _ | .bvs _ | .bcc _ | .bcs _ | .bne _ | .beq _
  | .clc | .sec | .cli | .sei | .cld | .sed | .clv | .nop => true

end Sys2Proof
end

