-- ==== Sys2Proof/Decode.lean ====
section
/-! DEFINITION. The decoder, total on any bytes, and the encoder, from the opcode map of spec/30_encoding.md (R300 to
R308) and spec/opcode_table.json; the byte-order helpers both use. -/

namespace Sys2Proof

/-- The low byte of a word (R211). -/
def lowByte (w : Word) : Byte := w.setWidth 8

/-- The high byte of a word (R211). -/
def highByte (w : Word) : Byte := (w >>> 8).setWidth 8

/-- `(hi << 8) | lo` (R13). -/
def joinBytes (hi lo : Byte) : Word := hi ++ lo

/-- `zext_16` (R14). -/
def zext16 (b : Byte) : Word := b.setWidth 16

/-- `sext_8`, as the 16-bit value that is added modulo 2^16 (R14, R303). -/
def sext16 (b : Byte) : Word := b.signExtend 16

/-- Why the decoder gives no instruction: only that bytes are missing, since every opcode byte has a row (R307). -/
inductive DecodeError where
  /-- there is no opcode byte -/
  | noOpcode
  /-- the opcode's row takes more operand bytes than there are -/
  | missingOperand (op : Byte)
deriving DecidableEq, Repr

/-- A row of the decoder: the instruction that the opcode makes of its 0, 1 or 2 operand bytes (R300, R303). -/
inductive OpRow where
  | one (i : Instr)
  | two (f : Byte → Instr)
  | three (f : Word → Instr)

/-- The opcode map (R305); the bytes without an official row are the fallback rows (R306). -/
def opRow (op : Byte) : OpRow :=
  match op.toNat with
  | 0x00 => .one .brk
  | 0x01 => .two fun z => .ora (.mem (.izx z))
  | 0x05 => .two fun z => .ora (.mem (.zp z))
  | 0x06 => .two fun z => .asl (.zp z)
  | 0x08 => .one .php
  | 0x09 => .two fun b => .ora (.imm b)
  | 0x0A => .one .aslAcc
  | 0x0D => .three fun a => .ora (.mem (.abs a))
  | 0x0E => .three fun a => .asl (.abs a)
  | 0x10 => .two .bpl
  | 0x11 => .two fun z => .ora (.mem (.izy z))
  | 0x15 => .two fun z => .ora (.mem (.zpx z))
  | 0x16 => .two fun z => .asl (.zpx z)
  | 0x18 => .one .clc
  | 0x19 => .three fun a => .ora (.mem (.aby a))
  | 0x1D => .three fun a => .ora (.mem (.abx a))
  | 0x1E => .three fun a => .asl (.abx a)
  | 0x20 => .three .jsr
  | 0x21 => .two fun z => .and (.mem (.izx z))
  | 0x24 => .two fun z => .bit (.zp z)
  | 0x25 => .two fun z => .and (.mem (.zp z))
  | 0x26 => .two fun z => .rol (.zp z)
  | 0x28 => .one .plp
  | 0x29 => .two fun b => .and (.imm b)
  | 0x2A => .one .rolAcc
  | 0x2C => .three fun a => .bit (.abs a)
  | 0x2D => .three fun a => .and (.mem (.abs a))
  | 0x2E => .three fun a => .rol (.abs a)
  | 0x30 => .two .bmi
  | 0x31 => .two fun z => .and (.mem (.izy z))
  | 0x35 => .two fun z => .and (.mem (.zpx z))
  | 0x36 => .two fun z => .rol (.zpx z)
  | 0x38 => .one .sec
  | 0x39 => .three fun a => .and (.mem (.aby a))
  | 0x3D => .three fun a => .and (.mem (.abx a))
  | 0x3E => .three fun a => .rol (.abx a)
  | 0x40 => .one .rti
  | 0x41 => .two fun z => .eor (.mem (.izx z))
  | 0x45 => .two fun z => .eor (.mem (.zp z))
  | 0x46 => .two fun z => .lsr (.zp z)
  | 0x48 => .one .pha
  | 0x49 => .two fun b => .eor (.imm b)
  | 0x4A => .one .lsrAcc
  | 0x4C => .three .jmp
  | 0x4D => .three fun a => .eor (.mem (.abs a))
  | 0x4E => .three fun a => .lsr (.abs a)
  | 0x50 => .two .bvc
  | 0x51 => .two fun z => .eor (.mem (.izy z))
  | 0x55 => .two fun z => .eor (.mem (.zpx z))
  | 0x56 => .two fun z => .lsr (.zpx z)
  | 0x58 => .one .cli
  | 0x59 => .three fun a => .eor (.mem (.aby a))
  | 0x5D => .three fun a => .eor (.mem (.abx a))
  | 0x5E => .three fun a => .lsr (.abx a)
  | 0x60 => .one .rts
  | 0x61 => .two fun z => .adc (.mem (.izx z))
  | 0x65 => .two fun z => .adc (.mem (.zp z))
  | 0x66 => .two fun z => .ror (.zp z)
  | 0x68 => .one .pla
  | 0x69 => .two fun b => .adc (.imm b)
  | 0x6A => .one .rorAcc
  | 0x6C => .three .jmpInd
  | 0x6D => .three fun a => .adc (.mem (.abs a))
  | 0x6E => .three fun a => .ror (.abs a)
  | 0x70 => .two .bvs
  | 0x71 => .two fun z => .adc (.mem (.izy z))
  | 0x75 => .two fun z => .adc (.mem (.zpx z))
  | 0x76 => .two fun z => .ror (.zpx z)
  | 0x78 => .one .sei
  | 0x79 => .three fun a => .adc (.mem (.aby a))
  | 0x7D => .three fun a => .adc (.mem (.abx a))
  | 0x7E => .three fun a => .ror (.abx a)
  | 0x81 => .two fun z => .sta (.izx z)
  | 0x84 => .two fun z => .sty (.zp z)
  | 0x85 => .two fun z => .sta (.zp z)
  | 0x86 => .two fun z => .stx (.zp z)
  | 0x88 => .one .dey
  | 0x8A => .one .txa
  | 0x8C => .three fun a => .sty (.abs a)
  | 0x8D => .three fun a => .sta (.abs a)
  | 0x8E => .three fun a => .stx (.abs a)
  | 0x90 => .two .bcc
  | 0x91 => .two fun z => .sta (.izy z)
  | 0x94 => .two fun z => .sty (.zpx z)
  | 0x95 => .two fun z => .sta (.zpx z)
  | 0x96 => .two fun z => .stx (.zpy z)
  | 0x98 => .one .tya
  | 0x99 => .three fun a => .sta (.aby a)
  | 0x9A => .one .txs
  | 0x9D => .three fun a => .sta (.abx a)
  | 0xA0 => .two fun b => .ldy (.imm b)
  | 0xA1 => .two fun z => .lda (.mem (.izx z))
  | 0xA2 => .two fun b => .ldx (.imm b)
  | 0xA4 => .two fun z => .ldy (.mem (.zp z))
  | 0xA5 => .two fun z => .lda (.mem (.zp z))
  | 0xA6 => .two fun z => .ldx (.mem (.zp z))
  | 0xA8 => .one .tay
  | 0xA9 => .two fun b => .lda (.imm b)
  | 0xAA => .one .tax
  | 0xAC => .three fun a => .ldy (.mem (.abs a))
  | 0xAD => .three fun a => .lda (.mem (.abs a))
  | 0xAE => .three fun a => .ldx (.mem (.abs a))
  | 0xB0 => .two .bcs
  | 0xB1 => .two fun z => .lda (.mem (.izy z))
  | 0xB4 => .two fun z => .ldy (.mem (.zpx z))
  | 0xB5 => .two fun z => .lda (.mem (.zpx z))
  | 0xB6 => .two fun z => .ldx (.mem (.zpy z))
  | 0xB8 => .one .clv
  | 0xB9 => .three fun a => .lda (.mem (.aby a))
  | 0xBA => .one .tsx
  | 0xBC => .three fun a => .ldy (.mem (.abx a))
  | 0xBD => .three fun a => .lda (.mem (.abx a))
  | 0xBE => .three fun a => .ldx (.mem (.aby a))
  | 0xC0 => .two fun b => .cpy (.imm b)
  | 0xC1 => .two fun z => .cmp (.mem (.izx z))
  | 0xC4 => .two fun z => .cpy (.mem (.zp z))
  | 0xC5 => .two fun z => .cmp (.mem (.zp z))
  | 0xC6 => .two fun z => .dec (.zp z)
  | 0xC8 => .one .iny
  | 0xC9 => .two fun b => .cmp (.imm b)
  | 0xCA => .one .dex
  | 0xCC => .three fun a => .cpy (.mem (.abs a))
  | 0xCD => .three fun a => .cmp (.mem (.abs a))
  | 0xCE => .three fun a => .dec (.abs a)
  | 0xD0 => .two .bne
  | 0xD1 => .two fun z => .cmp (.mem (.izy z))
  | 0xD5 => .two fun z => .cmp (.mem (.zpx z))
  | 0xD6 => .two fun z => .dec (.zpx z)
  | 0xD8 => .one .cld
  | 0xD9 => .three fun a => .cmp (.mem (.aby a))
  | 0xDD => .three fun a => .cmp (.mem (.abx a))
  | 0xDE => .three fun a => .dec (.abx a)
  | 0xE0 => .two fun b => .cpx (.imm b)
  | 0xE1 => .two fun z => .sbc (.mem (.izx z))
  | 0xE4 => .two fun z => .cpx (.mem (.zp z))
  | 0xE5 => .two fun z => .sbc (.mem (.zp z))
  | 0xE6 => .two fun z => .inc (.zp z)
  | 0xE8 => .one .inx
  | 0xE9 => .two fun b => .sbc (.imm b)
  | 0xEA => .one .nop
  | 0xEC => .three fun a => .cpx (.mem (.abs a))
  | 0xED => .three fun a => .sbc (.mem (.abs a))
  | 0xEE => .three fun a => .inc (.abs a)
  | 0xF0 => .two .beq
  | 0xF1 => .two fun z => .sbc (.mem (.izy z))
  | 0xF5 => .two fun z => .sbc (.mem (.zpx z))
  | 0xF6 => .two fun z => .inc (.zpx z)
  | 0xF8 => .one .sed
  | 0xF9 => .three fun a => .sbc (.mem (.aby a))
  | 0xFD => .three fun a => .sbc (.mem (.abx a))
  | 0xFE => .three fun a => .inc (.abx a)
  | _ => .one (.unsupported op)

/-- How many operand bytes the opcode's row takes (R301, R308). -/
def OpRow.operands : OpRow → Nat
  | .one _ => 0
  | .two _ => 1
  | .three _ => 2

/-- The instruction a row makes of its operand bytes; `b1` the low byte and `b2` the high byte of a word (R301). -/
def OpRow.assemble (r : OpRow) (b1 b2 : Byte) : Instr :=
  match r with
  | .one i => i
  | .two f => f b1
  | .three f => f (joinBytes b2 b1)

/-- The decoder: one instruction from the front of a list of bytes, and the bytes after it (R301, R307). -/
def decode : List Byte → Except DecodeError (Instr × List Byte)
  | [] => .error .noOpcode
  | op :: rest =>
    match opRow op, rest with
    | .one i, rest => .ok (i, rest)
    | .two f, b1 :: rest => .ok (f b1, rest)
    | .three f, b1 :: b2 :: rest => .ok (f (joinBytes b2 b1), rest)
    | .two _, [] => .error (.missingOperand op)
    | .three _, [] => .error (.missingOperand op)
    | .three _, [_] => .error (.missingOperand op)

/-- The bytes of the longest instruction whose bits are `w`, numbered as spec/opcode_table.json numbers them (R301); the
bits above `nbits` are zero. -/
def tableBytes (nbits w : Nat) : List Byte :=
  let n := w % 2 ^ nbits
  [BitVec.ofNat 8 n, BitVec.ofNat 8 (n >>> 8), BitVec.ofNat 8 (n >>> 16)]

/-- What the decoder reads from a word of spec/opcode_table.json's numbering. -/
def decodeTableWord (nbits w : Nat) : Option Instr :=
  match decode (tableBytes nbits w) with
  | .ok (i, _) => some i
  | .error _ => none

/-- The opcodes of one mnemonic, by addressing mode (R305's second table). -/
structure OpcodeSet where
  imm : Option Byte := none
  zp : Option Byte := none
  zpx : Option Byte := none
  zpy : Option Byte := none
  abs : Option Byte := none
  abx : Option Byte := none
  aby : Option Byte := none
  izx : Option Byte := none
  izy : Option Byte := none
deriving DecidableEq, Repr

/-- The opcode of a memory mode. -/
def OpcodeSet.mem (s : OpcodeSet) : MemMode → Option Byte
  | .zp _ => s.zp
  | .zpx _ => s.zpx
  | .zpy _ => s.zpy
  | .abs _ => s.abs
  | .abx _ => s.abx
  | .aby _ => s.aby
  | .izx _ => s.izx
  | .izy _ => s.izy

/-- The opcode of a read operand. -/
def OpcodeSet.read (s : OpcodeSet) : ReadOperand → Option Byte
  | .imm _ => s.imm
  | .mem m => s.mem m

/-- The opcodes of ADC (R610). -/
def adcOpcodes : OpcodeSet := { imm := some 0x69, zp := some 0x65, zpx := some 0x75, abs := some 0x6D, abx := some 0x7D, aby := some 0x79, izx := some 0x61, izy := some 0x71 }

/-- The opcodes of AND (R612). -/
def andOpcodes : OpcodeSet := { imm := some 0x29, zp := some 0x25, zpx := some 0x35, abs := some 0x2D, abx := some 0x3D, aby := some 0x39, izx := some 0x21, izy := some 0x31 }

/-- The opcodes of ASL (R670). -/
def aslOpcodes : OpcodeSet := { zp := some 0x06, zpx := some 0x16, abs := some 0x0E, abx := some 0x1E }

/-- The opcodes of BIT (R615). -/
def bitOpcodes : OpcodeSet := { zp := some 0x24, abs := some 0x2C }

/-- The opcodes of CMP (R616). -/
def cmpOpcodes : OpcodeSet := { imm := some 0xC9, zp := some 0xC5, zpx := some 0xD5, abs := some 0xCD, abx := some 0xDD, aby := some 0xD9, izx := some 0xC1, izy := some 0xD1 }

/-- The opcodes of CPX (R617). -/
def cpxOpcodes : OpcodeSet := { imm := some 0xE0, zp := some 0xE4, abs := some 0xEC }

/-- The opcodes of CPY (R618). -/
def cpyOpcodes : OpcodeSet := { imm := some 0xC0, zp := some 0xC4, abs := some 0xCC }

/-- The opcodes of DEC (R661). -/
def decOpcodes : OpcodeSet := { zp := some 0xC6, zpx := some 0xD6, abs := some 0xCE, abx := some 0xDE }

/-- The opcodes of EOR (R614). -/
def eorOpcodes : OpcodeSet := { imm := some 0x49, zp := some 0x45, zpx := some 0x55, abs := some 0x4D, abx := some 0x5D, aby := some 0x59, izx := some 0x41, izy := some 0x51 }

/-- The opcodes of INC (R660). -/
def incOpcodes : OpcodeSet := { zp := some 0xE6, zpx := some 0xF6, abs := some 0xEE, abx := some 0xFE }

/-- The opcodes of LDA (R501). -/
def ldaOpcodes : OpcodeSet := { imm := some 0xA9, zp := some 0xA5, zpx := some 0xB5, abs := some 0xAD, abx := some 0xBD, aby := some 0xB9, izx := some 0xA1, izy := some 0xB1 }

/-- The opcodes of LDX (R502). -/
def ldxOpcodes : OpcodeSet := { imm := some 0xA2, zp := some 0xA6, zpy := some 0xB6, abs := some 0xAE, aby := some 0xBE }

/-- The opcodes of LDY (R503). -/
def ldyOpcodes : OpcodeSet := { imm := some 0xA0, zp := some 0xA4, zpx := some 0xB4, abs := some 0xAC, abx := some 0xBC }

/-- The opcodes of LSR (R671). -/
def lsrOpcodes : OpcodeSet := { zp := some 0x46, zpx := some 0x56, abs := some 0x4E, abx := some 0x5E }

/-- The opcodes of ORA (R613). -/
def oraOpcodes : OpcodeSet := { imm := some 0x09, zp := some 0x05, zpx := some 0x15, abs := some 0x0D, abx := some 0x1D, aby := some 0x19, izx := some 0x01, izy := some 0x11 }

/-- The opcodes of ROL (R672). -/
def rolOpcodes : OpcodeSet := { zp := some 0x26, zpx := some 0x36, abs := some 0x2E, abx := some 0x3E }

/-- The opcodes of ROR (R673). -/
def rorOpcodes : OpcodeSet := { zp := some 0x66, zpx := some 0x76, abs := some 0x6E, abx := some 0x7E }

/-- The opcodes of SBC (R611). -/
def sbcOpcodes : OpcodeSet := { imm := some 0xE9, zp := some 0xE5, zpx := some 0xF5, abs := some 0xED, abx := some 0xFD, aby := some 0xF9, izx := some 0xE1, izy := some 0xF1 }

/-- The opcodes of STA (R504). -/
def staOpcodes : OpcodeSet := { zp := some 0x85, zpx := some 0x95, abs := some 0x8D, abx := some 0x9D, aby := some 0x99, izx := some 0x81, izy := some 0x91 }

/-- The opcodes of STX (R505). -/
def stxOpcodes : OpcodeSet := { zp := some 0x86, zpy := some 0x96, abs := some 0x8E }

/-- The opcodes of STY (R506). -/
def styOpcodes : OpcodeSet := { zp := some 0x84, zpx := some 0x94, abs := some 0x8C }

/-- The opcode byte of an instruction; none for a term that is no row of the table (R305, R306). -/
def Instr.opcode : Instr → Option Byte
  | .lda o => ldaOpcodes.read o
  | .ldx o => ldxOpcodes.read o
  | .ldy o => ldyOpcodes.read o
  | .sta m => staOpcodes.mem m
  | .stx m => stxOpcodes.mem m
  | .sty m => styOpcodes.mem m
  | .tax => some 0xAA
  | .tay => some 0xA8
  | .txa => some 0x8A
  | .tya => some 0x98
  | .tsx => some 0xBA
  | .txs => some 0x9A
  | .pha => some 0x48
  | .php => some 0x08
  | .pla => some 0x68
  | .plp => some 0x28
  | .adc o => adcOpcodes.read o
  | .sbc o => sbcOpcodes.read o
  | .and o => andOpcodes.read o
  | .ora o => oraOpcodes.read o
  | .eor o => eorOpcodes.read o
  | .bit m => bitOpcodes.mem m
  | .cmp o => cmpOpcodes.read o
  | .cpx o => cpxOpcodes.read o
  | .cpy o => cpyOpcodes.read o
  | .inc m => incOpcodes.mem m.toMem
  | .dec m => decOpcodes.mem m.toMem
  | .inx => some 0xE8
  | .iny => some 0xC8
  | .dex => some 0xCA
  | .dey => some 0x88
  | .aslAcc => some 0x0A
  | .asl m => aslOpcodes.mem m.toMem
  | .lsrAcc => some 0x4A
  | .lsr m => lsrOpcodes.mem m.toMem
  | .rolAcc => some 0x2A
  | .rol m => rolOpcodes.mem m.toMem
  | .rorAcc => some 0x6A
  | .ror m => rorOpcodes.mem m.toMem
  | .jmp _ => some 0x4C
  | .jmpInd _ => some 0x6C
  | .jsr _ => some 0x20
  | .rts => some 0x60
  | .rti => some 0x40
  | .brk => some 0x00
  | .bpl _ => some 0x10
  | .bmi _ => some 0x30
  | .bvc _ => some 0x50
  | .bvs _ => some 0x70
  | .bcc _ => some 0x90
  | .bcs _ => some 0xB0
  | .bne _ => some 0xD0
  | .beq _ => some 0xF0
  | .clc => some 0x18
  | .sec => some 0x38
  | .cli => some 0x58
  | .sei => some 0x78
  | .cld => some 0xD8
  | .sed => some 0xF8
  | .clv => some 0xB8
  | .nop => some 0xEA
  | .unsupported op => if unsupportedBytes.contains op then some op else none

/-- The operand bytes of a memory mode, low byte first (R301). -/
def MemMode.bytes : MemMode → List Byte
  | .zp z | .zpx z | .zpy z | .izx z | .izy z => [z]
  | .abs a | .abx a | .aby a => [lowByte a, highByte a]

/-- The operand bytes of a read operand. -/
def ReadOperand.bytes : ReadOperand → List Byte
  | .imm b => [b]
  | .mem m => m.bytes

/-- The operand bytes of an instruction (R301, R303). -/
def Instr.operandBytes : Instr → List Byte
  | .lda o | .ldx o | .ldy o | .adc o | .sbc o | .and o | .ora o | .eor o | .cmp o | .cpx o | .cpy o => o.bytes
  | .sta m | .stx m | .sty m | .bit m => m.bytes
  | .inc m | .dec m | .asl m | .lsr m | .rol m | .ror m => m.toMem.bytes
  | .jmp a | .jmpInd a | .jsr a => [lowByte a, highByte a]
  | .bpl b | .bmi b | .bvc b | .bvs b | .bcc b | .bcs b | .bne b | .beq b => [b]
  | .tax | .tay | .txa | .tya | .tsx | .txs | .pha | .php | .pla | .plp | .inx | .iny | .dex | .dey
  | .aslAcc | .lsrAcc | .rolAcc | .rorAcc | .rts | .rti | .brk
  | .clc | .sec | .cli | .sei | .cld | .sed | .clv | .nop | .unsupported _ => []

/-- The encoder: the bytes of a well-formed instruction, and no bytes for a term that is no row of the table. -/
def encode (i : Instr) : List Byte :=
  match i.opcode with
  | some op => op :: i.operandBytes
  | none => []

end Sys2Proof
end

