-- ==== Sys2Proof/Machine/Memory.lean ====
section
/-! DEFINITION. The one sparse store every memory of the machine is held in, its canonical form, and the memories' reads and
writes (spec/10_state.md R111 to R115, R160; logs 5 and 11). -/

namespace Sys2Proof.Machine

/-- The value at an index; `d` is what an unlisted index reads as. -/
def Store.read {α : Type} (d : α) : Store α → Nat → α
  | [], _ => d
  | (k, v) :: rest, a => if k = a then v else Store.read d rest a

/-- The store without an index. -/
def Store.erase {α : Type} : Store α → Nat → Store α
  | [], _ => []
  | (k, v) :: rest, a => if k = a then Store.erase rest a else (k, v) :: Store.erase rest a

/-- The store with an entry put before the first greater index. -/
def Store.insert {α : Type} : Store α → Nat → α → Store α
  | [], a, v => [(a, v)]
  | (k, x) :: rest, a, v => if a < k then (a, v) :: (k, x) :: rest else (k, x) :: Store.insert rest a v

/-- A write: writing what an unlisted index reads as removes the entry, so that equal contents are equal data. -/
def Store.write {α : Type} [DecidableEq α] (d : α) (m : Store α) (a : Nat) (v : α) : Store α :=
  if v = d then m.erase a else (m.erase a).insert a v

/-- The canonical form: indices strictly rising, and no entry equal to `d`. -/
abbrev Store.wf {α : Type} (d : α) (m : Store α) : Prop :=
  (m.map Prod.fst).Pairwise (· < ·) ∧ ∀ e ∈ m, e.2 ≠ d

/-- Every listed index is below `n`. -/
abbrev Store.below {α : Type} (n : Nat) (m : Store α) : Prop :=
  ∀ e ∈ m, e.1 < n

/-- The store whose values from index `i` on are the list's. -/
def Store.ofList {α : Type} [DecidableEq α] (d : α) : (i : Nat) → List α → Store α
  | _, [] => []
  | i, v :: rest => if v = d then Store.ofList d (i + 1) rest else (i, v) :: Store.ofList d (i + 1) rest

/-- A byte of a memory. -/
def Memory.read (m : Memory) (a : Nat) : Byte := Store.read 0 m a

/-- A memory with one byte written. -/
def Memory.write (m : Memory) (a : Nat) (v : Byte) : Memory := Store.write 0 m a v

/-- The canonical form of a memory. -/
abbrev Memory.wf (m : Memory) : Prop := Store.wf (0 : Byte) m

/-- The memory whose bytes from index 0 on are the list's. -/
def Memory.ofBytes (bytes : List Byte) : Memory := Store.ofList 0 0 bytes

/-- The memory of `n` bytes given by a function, as `power_on_fill` gives them (R160). -/
def Memory.fill (n : Nat) (f : Nat → Byte) : Memory := Memory.ofBytes ((List.range n).map f)

/-- An entry of the palette (R830). -/
def readPalette (m : PpuMem) (i : Nat) : BitVec 6 := Store.read 0 m.palette i

/-- The palette with one entry written; entries hold 6 bits (R222). -/
def writePalette (m : PpuMem) (i : Nat) (v : BitVec 6) : PpuMem :=
  { m with palette := Store.write 0 m.palette i v }

/-- `pixels[line][col]` (R120). -/
def readPixel (px : Store (Store Pixel)) (line col : Nat) : Pixel :=
  Store.read 0 (Store.read [] px line) col

/-- `pixels[line][col] <- v` (R960). -/
def writePixel (px : Store (Store Pixel)) (line col : Nat) (v : Pixel) : Store (Store Pixel) :=
  Store.write [] px line (Store.write 0 (Store.read [] px line) col v)

/-- The canonical form of the pixel buffer, within 240 lines of 256 pixels. -/
abbrev pixelsWf (px : Store (Store Pixel)) : Prop :=
  Store.wf [] px ∧ Store.below 240 px ∧ ∀ e ∈ px, Store.wf 0 e.2 ∧ Store.below 256 e.2

end Sys2Proof.Machine
end

