-- ==== Sys2Proof/Machine/Mapper.lean ====
section
/-! DEFINITION. The cartridge: bank windows, the six mapper variants' registers, mirroring, the MMC3 counter and its A12
observer (spec/52_mappers.md R1000 to R1092; spec/20_memory.md R207 to R209, R220, R221). -/

namespace Sys2Proof.Machine

/-! ## Bank arithmetic (R1002, R1003) -/

/-- `P8`, the number of 8 KB PRG pages (R1002). -/
def Header.prgPages (h : Header) : Nat := 2 * h.prg16Count

/-- `C1`, the number of 1 KB CHR pages (R1002). -/
def Header.chrPages (h : Header) : Nat := 8 * max h.chr8Count 1

/-- Page `j` of bank `b` of `k` pages out of `total` (R1002): the modulo is taken in the bank's own size. -/
def bankPage (total b k j : Nat) : Nat := ((b % max 1 (total / k)) * k + j) % total

/-- `prg_bank(b, k, j)` (R1002). -/
def Header.prgBank (h : Header) (b k j : Nat) : Nat := bankPage h.prgPages b k j

/-- `chr_bank(b, k, j)` (R1002). -/
def Header.chrBank (h : Header) (b k j : Nat) : Nat := bankPage h.chrPages b k j

/-- The last 8 KB PRG page (R1003). -/
def Header.lastPrg (h : Header) : Nat := h.prgPages - 1

/-- The second-last 8 KB PRG page (R1003). -/
def Header.secondLastPrg (h : Header) : Nat := (h.prgPages - 2) % h.prgPages

/-- Page `j` of the last 16 KB PRG bank (R1003). -/
def Header.lastPrg16 (h : Header) (j : Nat) : Nat := h.prgBank (h.prgPages / 2 - 1) 2 j

/-! ## Mirroring (R1004, R221) -/

/-- The header's mirroring as a nametable mode (R1010). -/
def HeaderMirroring.mode : HeaderMirroring → Mirroring
  | .horizontal => .horizontal
  | .vertical => .vertical

/-- A four-screen header overrides the mapper for the life of the cartridge (R1004). -/
def Header.effectiveMirroring (h : Header) (m : Mirroring) : Mirroring :=
  if h.fourScreen then .fourScreen else m

/-- A mirroring bit that is 0 for vertical and 1 for horizontal (R1044, R1062, R1072). -/
def mirrorBit (b : Bool) : Mirroring := if b then .horizontal else .vertical

/-- The bit a mirroring register takes from the header at reset (R1049, R1063, R1073). -/
def Header.mirrorReset (h : Header) : Bool := h.headerMirroring = .horizontal

/-- The physical nametable of a logical one (R221). -/
def Mirroring.physical : Mirroring → Nat → Nat
  | .horizontal, q => q / 2
  | .vertical, q => q % 2
  | .singleLower, _ => 0
  | .singleUpper, _ => 1
  | .fourScreen, q => q

/-- `nt_index(a)` (R221), for an address of $2000-$3EFF. -/
def Mirroring.ntIndex (m : Mirroring) (a : PpuAddr) : Nat :=
  let n := (a.toNat - 0x2000) % 0x1000
  m.physical (n / 0x400) * 1024 + n % 0x400

/-! ## Windows of each variant -/

/-- MMC1's PRG windows (R1024). -/
def Mmc1.prgWindows (m : Mmc1) (h : Header) : Vector Nat 4 :=
  let pb := (m.prg &&& 0x0F).toNat
  match (m.control.extractLsb' 2 2).toNat with
  | 2 => #v[h.prgBank 0 2 0, h.prgBank 0 2 1, h.prgBank pb 2 0, h.prgBank pb 2 1]
  | 3 => #v[h.prgBank pb 2 0, h.prgBank pb 2 1, h.lastPrg16 0, h.lastPrg16 1]
  | _ => #v[h.prgBank (pb / 2) 4 0, h.prgBank (pb / 2) 4 1, h.prgBank (pb / 2) 4 2, h.prgBank (pb / 2) 4 3]

/-- MMC1's CHR windows (R1025). -/
def Mmc1.chrWindows (m : Mmc1) (h : Header) : Vector Nat 8 :=
  if m.control.getLsbD 4 then
    let lo := m.chr0.toNat
    let hi := m.chr1.toNat
    #v[h.chrBank lo 4 0, h.chrBank lo 4 1, h.chrBank lo 4 2, h.chrBank lo 4 3,
       h.chrBank hi 4 0, h.chrBank hi 4 1, h.chrBank hi 4 2, h.chrBank hi 4 3]
  else
    let b := m.chr0.toNat / 2
    #v[h.chrBank b 8 0, h.chrBank b 8 1, h.chrBank b 8 2, h.chrBank b 8 3,
       h.chrBank b 8 4, h.chrBank b 8 5, h.chrBank b 8 6, h.chrBank b 8 7]

/-- MMC1's mirroring (R1023). -/
def Mmc1.mirroring (m : Mmc1) : Mirroring :=
  match (m.control.extractLsb' 0 2).toNat with
  | 0 => .singleLower
  | 1 => .singleUpper
  | 2 => .vertical
  | _ => .horizontal

/-- MMC3's PRG windows (R1042). -/
def Mmc3.prgWindows (m : Mmc3) (h : Header) : Vector Nat 4 :=
  let b6 := h.prgBank m.bank[6].toNat 1 0
  let b7 := h.prgBank m.bank[7].toNat 1 0
  if m.bankSelect.getLsbD 6 then #v[h.secondLastPrg, b7, b6, h.lastPrg]
  else #v[b6, b7, h.secondLastPrg, h.lastPrg]

/-- MMC3's CHR windows (R1043). -/
def Mmc3.chrWindows (m : Mmc3) (h : Header) : Vector Nat 8 :=
  let p0 := h.chrBank (m.bank[0].toNat / 2) 2 0
  let p1 := h.chrBank (m.bank[0].toNat / 2) 2 1
  let p2 := h.chrBank (m.bank[1].toNat / 2) 2 0
  let p3 := h.chrBank (m.bank[1].toNat / 2) 2 1
  let q0 := h.chrBank m.bank[2].toNat 1 0
  let q1 := h.chrBank m.bank[3].toNat 1 0
  let q2 := h.chrBank m.bank[4].toNat 1 0
  let q3 := h.chrBank m.bank[5].toNat 1 0
  if m.bankSelect.getLsbD 7 then #v[q0, q1, q2, q3, p0, p1, p2, p3]
  else #v[p0, p1, p2, p3, q0, q1, q2, q3]

/-- VRC1's windows (R1062). -/
def Vrc1.prgWindows (m : Vrc1) (h : Header) : Vector Nat 4 :=
  #v[h.prgBank m.prg0.toNat 1 0, h.prgBank m.prg1.toNat 1 0, h.prgBank m.prg2.toNat 1 0, h.lastPrg]

/-- VRC1's CHR windows (R1062). -/
def Vrc1.chrWindows (m : Vrc1) (h : Header) : Vector Nat 8 :=
  let lo := m.chr0.toNat
  let hi := m.chr1.toNat
  #v[h.chrBank lo 4 0, h.chrBank lo 4 1, h.chrBank lo 4 2, h.chrBank lo 4 3,
     h.chrBank hi 4 0, h.chrBank hi 4 1, h.chrBank hi 4 2, h.chrBank hi 4 3]

/-- VRC2b's PRG windows (R1072). -/
def Vrc2b.prgWindows (m : Vrc2b) (h : Header) : Vector Nat 4 :=
  #v[h.prgBank m.prg0.toNat 1 0, h.prgBank m.prg1.toNat 1 0, h.secondLastPrg, h.lastPrg]

/-- VRC2b's CHR windows (R1072). -/
def Vrc2b.chrWindows (m : Vrc2b) (h : Header) : Vector Nat 8 :=
  m.chr.map fun b => h.chrBank b.toNat 1 0

/-- Mapper 68's PRG windows (R1082). -/
def Sunsoft4.prgWindows (m : Sunsoft4) (h : Header) : Vector Nat 4 :=
  #v[h.prgBank m.prg.toNat 2 0, h.prgBank m.prg.toNat 2 1, h.lastPrg16 0, h.lastPrg16 1]

/-- Mapper 68's CHR windows (R1082). -/
def Sunsoft4.chrWindows (m : Sunsoft4) (h : Header) : Vector Nat 8 :=
  #v[h.chrBank m.chr[0].toNat 2 0, h.chrBank m.chr[0].toNat 2 1, h.chrBank m.chr[1].toNat 2 0, h.chrBank m.chr[1].toNat 2 1,
     h.chrBank m.chr[2].toNat 2 0, h.chrBank m.chr[2].toNat 2 1, h.chrBank m.chr[3].toNat 2 0, h.chrBank m.chr[3].toNat 2 1]

/-- Mapper 68's mirroring (R1081, R1082). -/
def Sunsoft4.mirroring (m : Sunsoft4) : Mirroring :=
  match (m.ctl.extractLsb' 0 2).toNat with
  | 0 => .vertical
  | 1 => .horizontal
  | 2 => .singleLower
  | _ => .singleUpper

/-- `windows()` and `mirroring` of the interface (R1001, R1004): a function of the registers and the header. Mapper 0 follows
R1010, so a PRG of three or more units has page 3 at $E000 and not the last page that R1091 names (log 27, DEDUCED). -/
def Mapper.windows (m : Mapper) (h : Header) : Windows :=
  match m with
  | .nrom =>
    { prg := #v[0 % h.prgPages, 1 % h.prgPages, 2 % h.prgPages, 3 % h.prgPages]
      chr := #v[0 % h.chrPages, 1 % h.chrPages, 2 % h.chrPages, 3 % h.chrPages,
                4 % h.chrPages, 5 % h.chrPages, 6 % h.chrPages, 7 % h.chrPages]
      mirroring := h.effectiveMirroring h.headerMirroring.mode }
  | .mmc1 m => { prg := m.prgWindows h, chr := m.chrWindows h, mirroring := h.effectiveMirroring m.mirroring }
  | .mmc3 m => { prg := m.prgWindows h, chr := m.chrWindows h, mirroring := h.effectiveMirroring (mirrorBit m.mirror) }
  | .vrc1 m => { prg := m.prgWindows h, chr := m.chrWindows h, mirroring := h.effectiveMirroring (mirrorBit m.mirror) }
  | .vrc2b m => { prg := m.prgWindows h, chr := m.chrWindows h, mirroring := h.effectiveMirroring (mirrorBit m.mirror) }
  | .sunsoft4 m => { prg := m.prgWindows h, chr := m.chrWindows h, mirroring := h.effectiveMirroring m.mirroring }

/-- The windows computed anew from the registers: "immediate ..., never lazy" (R114, R1001). -/
def Cartridge.rebuild (c : Cartridge) : Cartridge :=
  { c with windows := c.mapper.windows c.header }

/-! ## Reset values (R1005) -/

/-- MMC1 at power-on and reset (R1026). -/
def Mmc1.atReset : Mmc1 :=
  { shift := 0, count := 0, control := 0x0C, chr0 := 0, chr1 := 0, prg := 0, lastWriteCycle := none }

/-- MMC3 at power-on and reset (R1049). -/
def Mmc3.atReset (h : Header) : Mmc3 :=
  { bankSelect := 0, bank := Vector.replicate 8 0, mirror := h.mirrorReset, irqLatch := 0, irqCounter := 0,
    irqReload := false, irqEnable := false, irqPending := false, a12Prev := false, a12LowSince := 0 }

/-- VRC1 at power-on and reset (R1063). -/
def Vrc1.atReset (h : Header) : Vrc1 :=
  { prg0 := 0, prg1 := 0, prg2 := 0, chr0 := 0, chr1 := 0, mirror := h.mirrorReset }

/-- VRC2b at power-on and reset (R1073). -/
def Vrc2b.atReset (h : Header) : Vrc2b :=
  { prg0 := 0, prg1 := 0, chr := Vector.replicate 8 0, mirror := h.mirrorReset }

/-- Mapper 68 at power-on and reset (R1084). -/
def Sunsoft4.atReset (h : Header) : Sunsoft4 :=
  { chr := Vector.replicate 4 0, nt0 := 0, nt1 := 0, ctl := if h.mirrorReset then 1 else 0, prg := 0 }

/-- The registers of a variant at power-on and reset (R1005). -/
def Mapper.atReset (m : Mapper) (h : Header) : Mapper :=
  match m with
  | .nrom => .nrom
  | .mmc1 _ => .mmc1 Mmc1.atReset
  | .mmc3 _ => .mmc3 (Mmc3.atReset h)
  | .vrc1 _ => .vrc1 (Vrc1.atReset h)
  | .vrc2b _ => .vrc2b (Vrc2b.atReset h)
  | .sunsoft4 _ => .sunsoft4 (Sunsoft4.atReset h)

/-- `mapper.reset()`: registers at their reset values and windows rebuilt; the stores, WRAM and CHR-RAM are kept (R1005). -/
def Cartridge.reset (c : Cartridge) : Cartridge :=
  Cartridge.rebuild { c with mapper := c.mapper.atReset c.header }

/-! ## Register writes -/

/-- One bit into MMC1's shift register; the fifth latches the register that its own address selects (R1021). -/
def Mmc1.shiftIn (m : Mmc1) (a : Word) (bit : Bool) : Mmc1 :=
  let shift := m.shift ||| ((BitVec.ofBool bit).setWidth 5 <<< m.count.val)
  if m.count.val + 1 = 5 then
    let m := { m with shift := 0, count := 0 }
    match ((a >>> 13) &&& 3).toNat with
    | 0 => { m with control := shift }
    | 1 => { m with chr0 := shift }
    | 2 => { m with chr1 := shift }
    | _ => { m with prg := shift }
  else { m with shift := shift, count := m.count + 1 }

/-- Is the write at `stamp` on the cycle after the last one (R1022)? -/
def Mmc1.consecutive (m : Mmc1) (stamp : Nat) : Bool :=
  match m.lastWriteCycle with
  | none => false
  | some c => stamp == c + 1

/-- `mmc1_write(a, v, s)` (R1021, R1022). -/
def Mmc1.write (p : Params) (m : Mmc1) (a : Word) (v : Byte) (stamp : Nat) : Mmc1 :=
  let ignored := p.mmc1IgnoreConsecutive && m.consecutive stamp
  let m := { m with lastWriteCycle := some stamp }
  if ignored then m
  else if v.getLsbD 7 then
    { m with shift := 0, count := 0, control := if p.mmc1ResetForcesPrgMode3 then m.control ||| 0x0C else m.control }
  else m.shiftIn a (v.getLsbD 0)

/-- MMC3's register writes, by `a & 0xE001` (R1041). -/
def Mmc3.write (m : Mmc3) (a : Word) (v : Byte) : Mmc3 :=
  match (a &&& 0xE001).toNat with
  | 0x8000 => { m with bankSelect := v }
  | 0x8001 => { m with bank := m.bank.setIfInBounds (m.bankSelect &&& 7).toNat v }
  | 0xA000 => { m with mirror := v.getLsbD 0 }
  | 0xC000 => { m with irqLatch := v }
  | 0xC001 => { m with irqCounter := 0, irqReload := true }
  | 0xE000 => { m with irqEnable := false, irqPending := false }
  | 0xE001 => { m with irqEnable := true }
  | _ => m

/-- VRC1's register writes, by `a & 0xF000` (R1061). -/
def Vrc1.write (m : Vrc1) (a : Word) (v : Byte) : Vrc1 :=
  let lo4 : BitVec 4 := v.setWidth 4
  match (a &&& 0xF000).toNat with
  | 0x8000 => { m with prg0 := lo4 }
  | 0x9000 =>
    { m with mirror := v.getLsbD 0
             chr0 := BitVec.ofBool (v.getLsbD 1) ++ m.chr0.extractLsb' 0 4
             chr1 := BitVec.ofBool (v.getLsbD 2) ++ m.chr1.extractLsb' 0 4 }
  | 0xA000 => { m with prg1 := lo4 }
  | 0xC000 => { m with prg2 := lo4 }
  | 0xE000 => { m with chr0 := m.chr0.extractLsb' 4 1 ++ lo4 }
  | 0xF000 => { m with chr1 := m.chr1.extractLsb' 4 1 ++ lo4 }
  | _ => m

/-- One nibble of a VRC2b CHR register: the high one when `high`. -/
def setNibble (old : Byte) (high : Bool) (nib : BitVec 4) : Byte :=
  if high then nib ++ old.extractLsb' 0 4 else old.extractLsb' 4 4 ++ nib

/-- VRC2b's CHR register `n` with one nibble written (R1071). -/
def Vrc2b.writeChr (m : Vrc2b) (n : Nat) (high : Bool) (v : Byte) : Vrc2b :=
  { m with chr := m.chr.setIfInBounds n (setNibble (m.chr[n]?.getD 0) high (v.setWidth 4)) }

/-- VRC2b's register writes, by `a & 0xF003` (R1071): $B000-$E003 select a CHR register and a nibble. -/
def Vrc2b.write (m : Vrc2b) (a : Word) (v : Byte) : Vrc2b :=
  let odd := a.getLsbD 0
  let second := if a.getLsbD 1 then 1 else 0
  match (a &&& 0xF000).toNat with
  | 0x8000 => { m with prg0 := v.setWidth 5 }
  | 0x9000 => { m with mirror := v.getLsbD 0 }
  | 0xA000 => { m with prg1 := v.setWidth 5 }
  | 0xB000 => m.writeChr (0 + second) odd v
  | 0xC000 => m.writeChr (2 + second) odd v
  | 0xD000 => m.writeChr (4 + second) odd v
  | 0xE000 => m.writeChr (6 + second) odd v
  | _ => m

/-- Mapper 68's register writes, by `a & 0xF000` (R1081); the nametable-ROM registers are stored only (R1083). -/
def Sunsoft4.write (m : Sunsoft4) (a : Word) (v : Byte) : Sunsoft4 :=
  match (a &&& 0xF000).toNat with
  | 0x8000 => { m with chr := m.chr.set 0 v }
  | 0x9000 => { m with chr := m.chr.set 1 v }
  | 0xA000 => { m with chr := m.chr.set 2 v }
  | 0xB000 => { m with chr := m.chr.set 3 v }
  | 0xC000 => { m with nt0 := v.setWidth 7 }
  | 0xD000 => { m with nt1 := v.setWidth 7 }
  | 0xE000 => { m with ctl := v }
  | 0xF000 => { m with prg := v.setWidth 4 }
  | _ => m

/-- `mapper_write(a, v, s)` of each variant (R1001, R1010, R1090). -/
def Mapper.write (p : Params) (m : Mapper) (a : Word) (v : Byte) (stamp : Nat) : Mapper :=
  match m with
  | .nrom => .nrom
  | .mmc1 m => .mmc1 (m.write p a v stamp)
  | .mmc3 m => .mmc3 (m.write a v)
  | .vrc1 m => .vrc1 (m.write a v)
  | .vrc2b m => .vrc2b (m.write a v)
  | .sunsoft4 m => .sunsoft4 (m.write a v)

/-- A CPU write to the PRG window: the mapper's register write, then the rebuild; PRG itself never changes (R209, R1001). -/
def Cartridge.mapperWrite (p : Params) (c : Cartridge) (a : Word) (v : Byte) (stamp : Nat) : Cartridge :=
  Cartridge.rebuild { c with mapper := c.mapper.write p a v stamp }

/-! ## The MMC3 counter and its A12 observer -/

/-- `clock_counter()` (R1045). -/
def Mmc3.clockCounter (p : Params) (m : Mmc3) : Mmc3 :=
  let reload := m.irqCounter = 0 || m.irqReload
  let counter := if reload then m.irqLatch else m.irqCounter - 1
  let fire :=
    match p.mmc3IrqVariant with
    | .sharp => counter = 0
    | .nec => counter = 0 && (m.irqCounter ≠ 0 || m.irqReload)
  { m with irqCounter := counter
           irqReload := if reload then false else m.irqReload
           irqPending := m.irqPending || (fire && m.irqEnable) }

/-- `Observe(a, t)` of MMC3 (R1046): a rising edge of A12 counts when A12 was low for long enough. The rule's pseudocode is
followed: with the background at $1000 and sprites at $0000 it counts dot 5 as well as dot 325 (log 22, DEDUCED). -/
def Mmc3.observe (p : Params) (m : Mmc3) (a : PpuAddr) (t : Nat) : Mmc3 :=
  if a.getLsbD 12 then
    let counted := !m.a12Prev && decide (m.a12LowSince + p.a12FilterDots ≤ t)
    let m := if counted then m.clockCounter p else m
    { m with a12Prev := true }
  else { m with a12LowSince := if m.a12Prev then t else m.a12LowSince, a12Prev := false }

/-- `Observe(a, t)` of each variant: only MMC3 has the capability (R1001). -/
def Mapper.observe (p : Params) (m : Mapper) (a : PpuAddr) (t : Nat) : Mapper :=
  match m with
  | .mmc3 m => .mmc3 (m.observe p a t)
  | .nrom => .nrom
  | .mmc1 m => .mmc1 m
  | .vrc1 m => .vrc1 m
  | .vrc2b m => .vrc2b m
  | .sunsoft4 m => .sunsoft4 m

/-- `Observe(a, t)` (R1001). -/
def Cartridge.observe (p : Params) (c : Cartridge) (a : PpuAddr) (t : Nat) : Cartridge :=
  { c with mapper := c.mapper.observe p a t }

/-- `mapper_irq` (R1001, R1048). -/
def Mapper.irq : Mapper → Bool
  | .mmc3 m => m.irqPending
  | .nrom => false
  | .mmc1 _ => false
  | .vrc1 _ => false
  | .vrc2b _ => false
  | .sunsoft4 _ => false

/-! ## The cartridge's memories -/

/-- `prg_offset(a)` (R208), for an address of $8000-$FFFF. -/
def Cartridge.prgOffset (c : Cartridge) (a : Word) : Nat :=
  (c.windows.prg[(a.toNat - 0x8000) / 8192]?.getD 0) * 8192 + a.toNat % 8192

/-- A byte of the PRG window (R208). -/
def Cartridge.readPrg (c : Cartridge) (a : Word) : Byte := c.prg.read (c.prgOffset a)

/-- `chr_offset(a)` (R220), for an address of $0000-$1FFF. -/
def Cartridge.chrOffset (c : Cartridge) (a : PpuAddr) : Nat :=
  (c.windows.chr[a.toNat / 1024]?.getD 0) * 1024 + a.toNat % 1024

/-- A byte of the pattern tables (R220). -/
def Cartridge.readChr (c : Cartridge) (a : PpuAddr) : Byte := c.chr.read (c.chrOffset a)

/-- A write to the pattern tables: to CHR-RAM, and ignored for CHR-ROM (R113, R220). -/
def Cartridge.writeChr (c : Cartridge) (a : PpuAddr) (v : Byte) : Cartridge :=
  if c.header.chr8Count = 0 then { c with chr := c.chr.write (c.chrOffset a) v } else c

/-- A byte of WRAM, for an address of $6000-$7FFF (R207). -/
def Cartridge.readWram (c : Cartridge) (a : Word) : Byte := c.wram.read (a.toNat - 0x6000)

/-- A write to WRAM; no register disables it (R207). -/
def Cartridge.writeWram (c : Cartridge) (a : Word) (v : Byte) : Cartridge :=
  { c with wram := c.wram.write (a.toNat - 0x6000) v }

end Sys2Proof.Machine
end

