-- ==== Sys2Proof/Machine/Ppu.lean ====
section
/-! DEFINITION. The PPU: its address space, its eight register ports, and one dot of its timing state machine and rendering
pipeline (spec/50_ppu_registers.md R800 to R830; spec/51_ppu_timing_rendering.md R900 to R961; spec/20_memory.md R220 to R222). -/

namespace Sys2Proof.Machine

/-! ## Address space -/

/-- `pal_index(a)` (R222). -/
def palIndex (a : PpuAddr) : Nat :=
  let i := a &&& 0x1F
  if i &&& 0x13 = 0x10 then (i &&& 0x0F).toNat else i.toNat

/-- `PpuRead(a)` (R220). -/
def Devices.ppuRead (d : Devices) (a : PpuAddr) : Byte :=
  if a.toNat < 0x2000 then d.cart.readChr a
  else if a.toNat < 0x3F00 then d.ppu.mem.ciram.read (d.cart.windows.mirroring.ntIndex a)
  else (readPalette d.ppu.mem (palIndex a)).setWidth 8

/-- `PpuWrite(a, v)` (R220). -/
def Devices.ppuWrite (d : Devices) (a : PpuAddr) (v : Byte) : Devices :=
  if a.toNat < 0x2000 then { d with cart := d.cart.writeChr a v }
  else if a.toNat < 0x3F00 then
    { d with ppu := { d.ppu with mem := { d.ppu.mem with
        ciram := d.ppu.mem.ciram.write (d.cart.windows.mirroring.ntIndex a) v } } }
  else { d with ppu := { d.ppu with mem := writePalette d.ppu.mem (palIndex a) (v.setWidth 6) } }

/-- `Observe(a, t)`: the mapper is told the address the PPU drives (R921, R1046). -/
def Devices.observe (p : Params) (d : Devices) (a : PpuAddr) (t : Nat) : Devices :=
  { d with cart := d.cart.observe p a t }

/-- The devices with other PPU registers. -/
def Devices.withRegs (d : Devices) (r : PpuRegs) : Devices :=
  { d with ppu := { d.ppu with regs := r } }

/-! ## Register ports -/

/-- "Rendering is enabled": PPUMASK bit 3 or bit 4 (R812). -/
def PpuRegs.rendering (r : PpuRegs) : Bool := r.mask.getLsbD 3 || r.mask.getLsbD 4

/-- The address v drives on the bus: `v & 0x3FFF` (R117). -/
def PpuRegs.busAddr (r : PpuRegs) : PpuAddr := r.v.setWidth 14

/-- The status byte of $2002 (R813). -/
def PpuRegs.status (r : PpuRegs) : Byte :=
  BitVec.ofBool r.vblank ++ BitVec.ofBool r.sprite0Hit ++ BitVec.ofBool r.spriteOverflow ++ r.ioLatch.extractLsb' 0 5

/-- v after a $2007 access: plus 1 or 32 (R817). -/
def PpuRegs.nextV (r : PpuRegs) : VramAddr := r.v + (if r.ctrl.getLsbD 2 then 32 else 1)

/-- Read of $2002 (R813). -/
def readStatusPort (d : Devices) : Byte × Devices :=
  let r := d.ppu.regs
  (r.status, d.withRegs { r with vblank := false, w := false, ioLatch := r.status })

/-- The byte a read of $2004 gives: attribute bits 4-2 are not stored (R821). -/
def oamPortByte (d : Devices) : Byte :=
  let a := d.ppu.regs.oamaddr
  let b := d.ppu.mem.oam.read a.toNat
  if a &&& 3 = 2 then b &&& 0xE3 else b

/-- Read of $2004 (R821). -/
def readOamPort (d : Devices) : Byte × Devices :=
  (oamPortByte d, d.withRegs { d.ppu.regs with ioLatch := oamPortByte d })

/-- The increment of v after a $2007 access, which the mapper observes (R817). -/
def stepV (p : Params) (now : Nat) (d : Devices) : Devices :=
  let r := { d.ppu.regs with v := d.ppu.regs.nextV }
  (d.withRegs r).observe p r.busAddr now

/-- The byte a read of $2007 gives, and the buffer after it (R817). -/
def dataPortBytes (d : Devices) : Byte × Byte :=
  let r := d.ppu.regs
  let a := r.busAddr
  if a.toNat < 0x3F00 then (r.readBuffer, d.ppuRead a)
  else ((r.ioLatch &&& 0xC0) ||| (readPalette d.ppu.mem (palIndex a)).setWidth 8, d.ppuRead (a - 0x1000))

/-- Read of $2007 (R817). -/
def readDataPort (p : Params) (now : Nat) (d : Devices) : Byte × Devices :=
  let d := d.observe p d.ppu.regs.busAddr now
  let (value, buffer) := dataPortBytes d
  (value, stepV p now (d.withRegs { d.ppu.regs with readBuffer := buffer, ioLatch := value }))

/-- A CPU read of port `a & 7` at PPU time `now` (R800); the write-only ports give the latch (R818). -/
def portRead (p : Params) (now : Nat) (port : Nat) (d : Devices) : Byte × Devices :=
  match port with
  | 2 => readStatusPort d
  | 4 => readOamPort d
  | 7 => readDataPort p now d
  | _ => (d.ppu.regs.ioLatch, d)

/-- Write to $2000 (R811). -/
def writeCtrl (p : Params) (v : Byte) (d : Devices) : Devices :=
  let r := d.ppu.regs
  let late := p.nmiOnLateEnable && !r.ctrl.getLsbD 7 && v.getLsbD 7 && r.vblank
  let d := d.withRegs { r with ctrl := v, t := (r.t &&& 0x73FF) ||| ((v.setWidth 15 &&& 3) <<< 10) }
  { d with nmiPending := d.nmiPending || late }

/-- Write to $2001 (R812). -/
def writeMask (v : Byte) (d : Devices) : Devices := d.withRegs { d.ppu.regs with mask := v }

/-- Write to $2003 (R819). -/
def writeOamAddr (v : Byte) (d : Devices) : Devices := d.withRegs { d.ppu.regs with oamaddr := v }

/-- Write to $2004 (R820). -/
def writeOamData (v : Byte) (d : Devices) : Devices :=
  let r := d.ppu.regs
  { d with ppu := { d.ppu with
      mem := { d.ppu.mem with oam := d.ppu.mem.oam.write r.oamaddr.toNat v }
      regs := { r with oamaddr := r.oamaddr + 1 } } }

/-- Write to $2005 (R815). -/
def writeScroll (v : Byte) (d : Devices) : Devices :=
  let r := d.ppu.regs
  let b : VramAddr := v.setWidth 15
  if r.w then d.withRegs { r with t := (r.t &&& 0x0C1F) ||| ((b &&& 7) <<< 12) ||| ((b >>> 3) <<< 5), w := false }
  else d.withRegs { r with t := (r.t &&& 0x7FE0) ||| (b >>> 3), x := v.setWidth 3, w := true }

/-- Write to $2006 (R816); the second write changes v at once, and the mapper observes it. -/
def writeAddr (p : Params) (now : Nat) (v : Byte) (d : Devices) : Devices :=
  let r := d.ppu.regs
  let b : VramAddr := v.setWidth 15
  if r.w then
    let t := (r.t &&& 0x7F00) ||| b
    let r := { r with t := t, v := t, w := false }
    (d.withRegs r).observe p r.busAddr now
  else d.withRegs { r with t := (r.t &&& 0x00FF) ||| ((b &&& 0x3F) <<< 8), w := true }

/-- Write to $2007 (R817). -/
def writeDataPort (p : Params) (now : Nat) (v : Byte) (d : Devices) : Devices :=
  let a := d.ppu.regs.busAddr
  stepV p now ((d.observe p a now).ppuWrite a v)

/-- A CPU write to port `a & 7` at PPU time `now` (R800); every one sets the latch (R801), $2002 only that. -/
def portWrite (p : Params) (now : Nat) (port : Nat) (v : Byte) (d : Devices) : Devices :=
  let d := d.withRegs { d.ppu.regs with ioLatch := v }
  match port with
  | 0 => writeCtrl p v d
  | 1 => writeMask v d
  | 3 => writeOamAddr v d
  | 4 => writeOamData v d
  | 5 => writeScroll v d
  | 6 => writeAddr p now v d
  | 7 => writeDataPort p now v d
  | _ => d

/-! ## Scroll updates of v (R932 to R934) -/

/-- `coarse_x_inc` (R932). -/
def coarseXInc (v : VramAddr) : VramAddr :=
  if v &&& 0x001F = 31 then (v &&& 0x7FE0) ^^^ 0x0400 else v + 1

/-- `fine_y_inc` (R932). -/
def fineYInc (v : VramAddr) : VramAddr :=
  if v &&& 0x7000 ≠ 0x7000 then v + 0x1000
  else
    let v := v &&& 0x0FFF
    let cy := (v >>> 5) &&& 31
    if cy = 29 then (v ^^^ 0x0800) &&& 0x7C1F
    else if cy = 31 then v &&& 0x7C1F
    else (v &&& 0x7C1F) ||| ((cy + 1) <<< 5)

/-- Coarse X and the horizontal nametable bit from t (R933). -/
def copyHorizontal (v t : VramAddr) : VramAddr := (v &&& 0x7BE0) ||| (t &&& 0x041F)

/-- Fine Y, coarse Y and the vertical nametable bit from t (R934). -/
def copyVertical (v t : VramAddr) : VramAddr := (v &&& 0x041F) ||| (t &&& 0x7BE0)

/-- The devices with another v. -/
def Devices.withV (d : Devices) (v : VramAddr) : Devices := d.withRegs { d.ppu.regs with v := v }

/-- `v_update(L, d)` (R920, R932 to R934). -/
def vUpdate (line dot : Nat) (d : Devices) : Devices :=
  if dot = 256 then d.withV (fineYInc d.ppu.regs.v)
  else if dot = 257 then d.withV (copyHorizontal d.ppu.regs.v d.ppu.regs.t)
  else if line = 261 ∧ 280 ≤ dot ∧ dot ≤ 304 then d.withV (copyVertical d.ppu.regs.v d.ppu.regs.t)
  else d

/-! ## Background pipeline (R930, R935) -/

/-- `nt_addr` (R930). -/
def ntAddr (v : VramAddr) : PpuAddr := 0x2000 ||| (v.setWidth 14 &&& 0x0FFF)

/-- `at_addr` (R930). -/
def atAddr (v : VramAddr) : PpuAddr :=
  let a : PpuAddr := v.setWidth 14
  0x23C0 ||| (a &&& 0x0C00) ||| ((a >>> 4) &&& 0x38) ||| ((a >>> 2) &&& 0x07)

/-- `lo_addr` (R930). -/
def bgLoAddr (ctrl ntByte : Byte) (v : VramAddr) : PpuAddr :=
  ((BitVec.ofBool (ctrl.getLsbD 4)).setWidth 14 <<< 12) ||| (ntByte.setWidth 14 <<< 4) ||| (v >>> 12).setWidth 14

/-- The next tile's palette bits, from its attribute byte (R930). -/
def palBits (atByte : Byte) (v : VramAddr) : BitVec 2 :=
  (atByte >>> (((v >>> 4) &&& 0x04) ||| (v &&& 0x02)).toNat).setWidth 2

/-- The devices with another background pipeline. -/
def Devices.withBg (d : Devices) (b : BgPipe) : Devices := { d with ppu := { d.ppu with bg := b } }

/-- Phase `p` of a background tile fetch: an address is driven on the even phases and read on the odd ones (R921, R930;
log 8). -/
def bgFetchPhase (p : Params) (phase : Nat) (d : Devices) : Devices :=
  let r := d.ppu.regs
  let b := d.ppu.bg
  let now := d.ppu.time.dotClock
  let lo := bgLoAddr r.ctrl b.ntByte r.v
  match phase with
  | 0 => d.observe p (ntAddr r.v) now
  | 1 => d.withBg { b with ntByte := d.ppuRead (ntAddr r.v) }
  | 2 => d.observe p (atAddr r.v) now
  | 3 =>
    let at' := d.ppuRead (atAddr r.v)
    d.withBg { b with atByte := at', palNext := palBits at' r.v }
  | 4 => d.observe p lo now
  | 5 => d.withBg { b with loByte := d.ppuRead lo }
  | 6 => d.observe p (lo + 8) now
  | _ => (d.withBg { b with hiByte := d.ppuRead (lo + 8) }).withV (coarseXInc r.v)

/-- `bg_fetch(d)` (R930). -/
def bgFetch (p : Params) (dot : Nat) (d : Devices) : Devices :=
  if (1 ≤ dot ∧ dot ≤ 256) ∨ (321 ≤ dot ∧ dot ≤ 336) then bgFetchPhase p ((dot - 1) % 8) d
  else if dot = 337 ∨ dot = 339 then bgFetchPhase p 0 d
  else if dot = 338 ∨ dot = 340 then bgFetchPhase p 1 d
  else d

/-- The dots at which the shift registers shift (R935). -/
def bgShifts (dot : Nat) : Bool := (2 ≤ dot && dot ≤ 257) || (322 ≤ dot && dot ≤ 337)

/-- The dots at which they reload: 9, 17, ..., 257, 329, 337 (R935). -/
def bgReloads (dot : Nat) : Bool := (9 ≤ dot && dot ≤ 257 && dot % 8 == 1) || dot == 329 || dot == 337

/-- All four shift registers, one bit left (R935). -/
def BgPipe.shift (b : BgPipe) : BgPipe :=
  { b with shLo := b.shLo <<< 1, shHi := b.shHi <<< 1, shAlo := b.shAlo <<< 1, shAhi := b.shAhi <<< 1 }

/-- The low bytes from the fetched tile (R935). -/
def BgPipe.reload (b : BgPipe) : BgPipe :=
  { b with
    shLo := (b.shLo &&& 0xFF00) ||| b.loByte.setWidth 16
    shHi := (b.shHi &&& 0xFF00) ||| b.hiByte.setWidth 16
    shAlo := (b.shAlo &&& 0xFF00) ||| (if b.palNext.getLsbD 0 then 0xFF else 0x00)
    shAhi := (b.shAhi &&& 0xFF00) ||| (if b.palNext.getLsbD 1 then 0xFF else 0x00) }

/-- `bg_shift_and_reload(d)` (R935). -/
def bgShiftAndReload (dot : Nat) (d : Devices) : Devices :=
  let b := if bgShifts dot then d.ppu.bg.shift else d.ppu.bg
  let b := if bgReloads dot then b.reload else b
  d.withBg b

/-! ## Sprite pipeline (R940 to R945) -/

/-- The sprite height (R940). -/
def spriteHeight (ctrl : Byte) : Nat := if ctrl.getLsbD 5 then 16 else 8

/-- `0 <= L - y < h` (R940). -/
def inRange (line : Nat) (y : Byte) (h : Nat) : Bool := y.toNat ≤ line && line - y.toNat < h

/-- Entry `n` of primary OAM (R822). -/
def oamEntry (oam : Memory) (n : Nat) : OamEntry :=
  { y := oam.read (4 * n), tile := oam.read (4 * n + 1), attr := oam.read (4 * n + 2), x := oam.read (4 * n + 3) }

/-- The search of R940 from entry `n` on: the entries found in range, at most eight, and the entry it stopped at. -/
def spriteScan (oam : Memory) (line h : Nat) : (fuel : Nat) → (n : Nat) → (found : List Nat) → List Nat × Nat
  | 0, n, found => (found, n)
  | fuel + 1, n, found =>
    if 8 ≤ found.length then (found, n)
    else if inRange line (oam.read (4 * n)) h then spriteScan oam line h fuel (n + 1) (found ++ [n])
    else spriteScan oam line h fuel (n + 1) found

/-- `overflow_search(L, n)` with its drifting byte index `m` (R941). -/
def overflowSearch (oam : Memory) (line h : Nat) : (fuel : Nat) → (n m : Nat) → Bool
  | 0, _, _ => false
  | fuel + 1, n, m =>
    if inRange line (oam.read (4 * n + m)) h then true else overflowSearch oam line h fuel (n + 1) ((m + 1) % 4)

/-- Slot `j` of secondary OAM after an evaluation (R940). -/
def oam2Slot (oam : Memory) (found : List Nat) (j : Nat) : OamEntry :=
  match found[j]? with
  | some n => oamEntry oam n
  | none => { y := 0xFF, tile := 0xFF, attr := 0xFF, x := 0xFF }

/-- `sprite_evaluation(L)` (R940, R941). -/
def spriteEvaluation (line : Nat) (d : Devices) : Devices :=
  let h := spriteHeight d.ppu.regs.ctrl
  let oam := d.ppu.mem.oam
  let (found, n) := spriteScan oam line h 64 0 []
  let e := oam2Slot oam found
  { d with ppu := { d.ppu with
      mem := { d.ppu.mem with oam2 := #v[e 0, e 1, e 2, e 3, e 4, e 5, e 6, e 7] }
      spr := { d.ppu.spr with count := found.length, zeroNext := found.contains 0 }
      regs := { d.ppu.regs with
        spriteOverflow := d.ppu.regs.spriteOverflow || overflowSearch oam line h (64 - n) n 0 } } }

/-- The sprite pattern address of an entry in range or not; arithmetic on integers, then the low 14 bits (R943, R17;
log 13). -/
def spriteAddr (ctrl : Byte) (line : Nat) (e : OamEntry) : PpuAddr :=
  let row : BitVec 16 := BitVec.ofNat 16 line - e.y.setWidth 16
  let vf := e.attr.getLsbD 7
  let tile : BitVec 16 := e.tile.setWidth 16
  if ctrl.getLsbD 5 then
    let r := if vf then 15 - row else row
    let t := (tile &&& 0xFE) + r.sshiftRight 3
    (((tile &&& 1) <<< 12) ||| (t <<< 4) ||| (r &&& 7)).setWidth 14
  else
    let r := if vf then 7 - row else row
    (((BitVec.ofBool (ctrl.getLsbD 3)).setWidth 16 <<< 12) ||| (tile <<< 4) ||| r).setWidth 14

/-- The address an empty slot fetches: tile $FF, row 0 (R944). -/
def emptySlotAddr (ctrl : Byte) : PpuAddr :=
  if ctrl.getLsbD 5 then 0x1FE0
  else ((BitVec.ofBool (ctrl.getLsbD 3)).setWidth 14 <<< 12) ||| 0x0FF0

/-- `sp_addr(i)` (R943, R944). -/
def slotAddr (line i : Nat) (d : Devices) : PpuAddr :=
  if i < d.ppu.spr.count then
    match d.ppu.mem.oam2[i]? with
    | some e => spriteAddr d.ppu.regs.ctrl line e
    | none => emptySlotAddr d.ppu.regs.ctrl
  else emptySlotAddr d.ppu.regs.ctrl

/-- The eight bits of a byte in reverse order (R942). -/
def reverseBits (b : Byte) : Byte :=
  BitVec.ofBool (b.getLsbD 0) ++ BitVec.ofBool (b.getLsbD 1) ++ BitVec.ofBool (b.getLsbD 2) ++ BitVec.ofBool (b.getLsbD 3) ++
  BitVec.ofBool (b.getLsbD 4) ++ BitVec.ofBool (b.getLsbD 5) ++ BitVec.ofBool (b.getLsbD 6) ++ BitVec.ofBool (b.getLsbD 7)

/-- `flip(b, i)` (R942); an empty slot is not flipped (R944; log 12, DEDUCED). -/
def slotFlip (spr : SprPipe) (i : Nat) (b : Byte) : Byte :=
  match spr.units[i]? with
  | some u => if i < spr.count && u.attr.getLsbD 6 then reverseBits b else b
  | none => b

/-- The devices with another sprite pipeline. -/
def Devices.withSpr (d : Devices) (s : SprPipe) : Devices := { d with ppu := { d.ppu with spr := s } }

/-- The devices with one sprite slot changed. -/
def Devices.setUnit (d : Devices) (i : Nat) (f : SprUnit → SprUnit) : Devices :=
  match d.ppu.spr.units[i]? with
  | some u => d.withSpr { d.ppu.spr with units := d.ppu.spr.units.setIfInBounds i (f u) }
  | none => d

/-- A slot takes its attribute and X from secondary OAM (R942). -/
def SprUnit.load (u : SprUnit) (e : OamEntry) : SprUnit := { u with attr := e.attr, x := e.x }

/-- The slot data loaded at dot 257 (R942). -/
def loadSlots (d : Devices) : Devices :=
  let s := d.ppu.spr
  let u := s.units
  let e := d.ppu.mem.oam2
  d.withSpr { s with
    lineCount := s.count
    zeroLine := s.zeroNext
    units := #v[u[0].load e[0], u[1].load e[1], u[2].load e[2], u[3].load e[3],
                u[4].load e[4], u[5].load e[5], u[6].load e[6], u[7].load e[7]] }

/-- Phase `q` of the fetch of slot `i` (R942). -/
def spriteFetchPhase (p : Params) (line i q : Nat) (d : Devices) : Devices :=
  let now := d.ppu.time.dotClock
  let a := slotAddr line i d
  match q with
  | 0 => d.observe p (ntAddr d.ppu.regs.v) now
  | 2 => d.observe p (ntAddr d.ppu.regs.v) now
  | 4 => d.observe p a now
  | 5 => d.setUnit i fun u => { u with lo := slotFlip d.ppu.spr i (d.ppuRead a) }
  | 6 => d.observe p (a + 8) now
  | 7 => d.setUnit i fun u => { u with hi := slotFlip d.ppu.spr i (d.ppuRead (a + 8)) }
  | _ => d

/-- `sprite_fetch(L, d)`, for dots 257 to 320; `oamaddr` is 0 at each of them (R942, D61). -/
def spriteFetch (p : Params) (line dot : Nat) (d : Devices) : Devices :=
  let d := d.withRegs { d.ppu.regs with oamaddr := 0 }
  let d := if dot = 257 then loadSlots d else d
  spriteFetchPhase p line ((dot - 257) / 8) ((dot - 257) % 8) d

/-! ## Compositing (R950 to R960) -/

/-- A two-bit value from its bits. -/
def twoBits (hi lo : Bool) : BitVec 2 := BitVec.ofBool hi ++ BitVec.ofBool lo

/-- `bg_p` after clipping (R950). -/
def bgPixel (r : PpuRegs) (b : BgPipe) (x : Nat) : BitVec 2 :=
  if r.mask.getLsbD 3 = false ∨ (x < 8 ∧ r.mask.getLsbD 1 = false) then 0
  else twoBits (b.shHi.getLsbD (15 - r.x.toNat)) (b.shLo.getLsbD (15 - r.x.toNat))

/-- `bg_pal` (R950). -/
def bgPalette (r : PpuRegs) (b : BgPipe) : BitVec 2 :=
  twoBits (b.shAhi.getLsbD (15 - r.x.toNat)) (b.shAlo.getLsbD (15 - r.x.toNat))

/-- A slot's pixel at x, 0 where it does not reach (R951). -/
def SprUnit.pixel (u : SprUnit) (x : Nat) : BitVec 2 :=
  if u.x.toNat ≤ x ∧ x < u.x.toNat + 8 then
    twoBits (u.hi.getLsbD (7 - (x - u.x.toNat))) (u.lo.getLsbD (7 - (x - u.x.toNat)))
  else 0

/-- The first slot in slot order with an opaque pixel (R951). -/
def firstOpaque (x : Nat) : List SprUnit → Option (SprUnit × BitVec 2)
  | [] => none
  | u :: rest => if u.pixel x ≠ 0 then some (u, u.pixel x) else firstOpaque x rest

/-- Sprites are shown at x: enabled and not clipped (R951, R953). -/
def spritesShown (r : PpuRegs) (x : Nat) : Bool := r.mask.getLsbD 4 && !(decide (x < 8) && !r.mask.getLsbD 2)

/-- The sprite pixel at x after clipping, with its slot (R951). -/
def spritePixel (r : PpuRegs) (s : SprPipe) (x : Nat) : Option (SprUnit × BitVec 2) :=
  if spritesShown r x then firstOpaque x (s.units.toList.take s.lineCount) else none

/-- The palette index of a pixel (R952). -/
def pixelIndex (bgP bgPal : BitVec 2) (sprite : Option (SprUnit × BitVec 2)) : BitVec 5 :=
  let bgIdx : BitVec 5 := if bgP = 0 then 0 else (bgPal ++ bgP).setWidth 5
  match sprite with
  | none => bgIdx
  | some (u, p) =>
    if bgP = 0 || !u.attr.getLsbD 5 then (1 : BitVec 1) ++ u.attr.extractLsb' 0 2 ++ p else bgIdx

/-- Does sprite 0 hit at x (R953)? The rule's pseudocode is followed: where `spr_zero_line` is stale (scanline 0, or rendering
off at dot 257) slot 0 is tested although its prose says that it then holds sprite 0 (log 28, DEDUCED). -/
def sprite0HitsAt (r : PpuRegs) (s : SprPipe) (bgP : BitVec 2) (x : Nat) : Bool :=
  s.zeroLine && !(x == 255) && spritesShown r x && s.units[0].pixel x ≠ 0 && bgP ≠ 0

/-- The output value of a palette colour (R960). -/
def pixelValue (mask : Byte) (c : BitVec 6) : Pixel :=
  mask.extractLsb' 5 3 ++ (c &&& (if mask.getLsbD 0 then 0x30 else 0x3F))

/-- `output_pixel(x)` of a visible line (R950 to R960). -/
def outputPixel (line x : Nat) (d : Devices) : Devices :=
  let r := d.ppu.regs
  if r.rendering then
    let bgP := bgPixel r d.ppu.bg x
    let idx := pixelIndex bgP (bgPalette r d.ppu.bg) (spritePixel r d.ppu.spr x)
    let c := readPalette d.ppu.mem (palIndex (0x3F00 ||| idx.setWidth 14))
    { d with ppu := { d.ppu with
        regs := { r with sprite0Hit := r.sprite0Hit || sprite0HitsAt r d.ppu.spr bgP x }
        pixels := writePixel d.ppu.pixels line x (pixelValue r.mask c) } }
  else
    { d with ppu := { d.ppu with pixels := writePixel d.ppu.pixels line x (pixelValue r.mask (readPalette d.ppu.mem 0)) } }

/-! ## One dot (R901, R904, R910, R911, R920) -/

/-- Vblank entry (R910). -/
def vblankEntry (d : Devices) : Devices :=
  { d.withRegs { d.ppu.regs with vblank := true } with
    nmiPending := d.nmiPending || d.ppu.regs.ctrl.getLsbD 7 }

/-- Vblank exit (R911). -/
def vblankExit (d : Devices) : Devices :=
  d.withRegs { d.ppu.regs with vblank := false, sprite0Hit := false, spriteOverflow := false }

/-- The flag events of a dot: frame end (R904), vblank entry and exit (R910, R911). -/
def dotEvents (line dot : Nat) (d : Devices) : Devices :=
  if line = 240 ∧ dot = 0 then { d with ppu := { d.ppu with time := { d.ppu.time with frameReady := true } } }
  else if line = 241 ∧ dot = 1 then vblankEntry d
  else if line = 261 ∧ dot = 1 then vblankExit d
  else d

/-- The pixel of a dot, on dots 1 to 256 of the visible lines (R920). -/
def dotPixel (line dot : Nat) (d : Devices) : Devices :=
  if line ≤ 239 ∧ 1 ≤ dot ∧ dot ≤ 256 then outputPixel line (dot - 1) d else d

/-- `if L <= 239 and d == 256: sprite_evaluation(L)`, and the pre-render line's in its place (R920, R945). -/
def dotEvaluation (line dot : Nat) (d : Devices) : Devices :=
  if dot = 256 then
    if line ≤ 239 then spriteEvaluation line d
    else if line = 261 then d.withSpr { d.ppu.spr with count := 0 }
    else d
  else d

/-- The fetches and updates of a dot of a rendering line with rendering enabled (R920). -/
def dotFetches (p : Params) (line dot : Nat) (d : Devices) : Devices :=
  let d := bgFetch p dot d
  let d := vUpdate line dot d
  let d := dotEvaluation line dot d
  if 257 ≤ dot ∧ dot ≤ 320 then spriteFetch p line dot d else d

/-- `ppu_dot()` (R920) at `(line, dot)`. -/
def dotWork (p : Params) (line dot : Nat) (d : Devices) : Devices :=
  let d := dotEvents line dot d
  let active := d.ppu.regs.rendering && (decide (line ≤ 239) || line == 261)
  let d := if active then bgShiftAndReload dot d else d
  let d := dotPixel line dot d
  if active then dotFetches p line dot d
  else if dot = 257 ∧ (line ≤ 239 ∨ line = 261) then d.withSpr { d.ppu.spr with lineCount := 0 }
  else d

/-- The advance to the next dot; the odd frame's pre-render line ends after dot 339 while rendering (R901, R902). -/
def PpuTime.advance (t : PpuTime) (rendering : Bool) : PpuTime :=
  let skip := t.scanline == 261 && t.dot == 339 && t.oddFrame && rendering
  if t.dot + 1 = 341 ∨ skip then
    if t.scanline + 1 = 262 then
      { t with dotClock := t.dotClock + 1, dot := 0, scanline := 0, oddFrame := !t.oddFrame }
    else { t with dotClock := t.dotClock + 1, dot := 0, scanline := t.scanline + 1 }
  else { t with dotClock := t.dotClock + 1, dot := t.dot + 1 }

/-- One dot and the advance (R901). -/
def ppuDot (p : Params) (d : Devices) : Devices :=
  let d := dotWork p d.ppu.time.scanline d.ppu.time.dot d
  { d with ppu := { d.ppu with time := d.ppu.time.advance d.ppu.regs.rendering } }

/-- `n` dots, in order (R452). -/
def runDots (p : Params) : Nat → Devices → Devices
  | 0, d => d
  | n + 1, d => runDots p n (ppuDot p d)

/-- Every dot with `dot_clock < target` that has not yet run (R452, R453). -/
def Devices.syncTo (p : Params) (target : Nat) (d : Devices) : Devices :=
  runDots p (target - d.ppu.time.dotClock) d

end Sys2Proof.Machine
end

