-- ==== Sys2Proof/Machine/Ops.lean ====
section
/-! DEFINITION. The named operations of the machine: state updates, the CPU bus (spec/20_memory.md R201 to R219), OAM DMA
(spec/50_ppu_registers.md R850), the stack (R550), interrupt entry and return (spec/60_exceptions.md R1120 to R1122,
spec/45_control_transfer.md R714), the reset sequence (spec/70_reset_and_hazards.md R1201), instruction fetch (R402) and the
end of a step (R452, R850). -/

namespace Sys2Proof.Machine

/-- The outcome of an instruction's meaning and of a step. -/
abbrev Result := Host.Outcome State Fault Refusal

/-! ## Updates of one part of the state -/

def Cpu.withA (c : Cpu) (v : Byte) : Cpu := { c with a := v }
def Cpu.withX (c : Cpu) (v : Byte) : Cpu := { c with x := v }
def Cpu.withY (c : Cpu) (v : Byte) : Cpu := { c with y := v }
def Cpu.withS (c : Cpu) (v : Byte) : Cpu := { c with s := v }
def Cpu.withPc (c : Cpu) (v : Word) : Cpu := { c with pc := v }
def Cpu.withP (c : Cpu) (v : Flags) : Cpu := { c with p := v }

def State.withCpu (s : State) (c : Cpu) : State := { s with cpu := c }
def State.withRam (s : State) (m : Memory) : State := { s with ram := m }
def State.withDev (s : State) (d : Devices) : State := { s with dev := d }
def State.withHost (s : State) (h : HostSide) : State := { s with host := h }
def State.withPendingDma (s : State) (n : Nat) : State := { s with pendingDma := n }
def State.withUnsupported (s : State) (b : Bool) : State := { s with unsupportedSeen := b }

/-- `charge(n)` (R18). -/
def State.charge (n : Nat) (s : State) : State := { s with cycles := s.cycles + n }

/-- PC moved past `len` instruction bytes (R434). -/
def State.advance (len : Nat) (s : State) : State := s.withCpu (s.cpu.withPc (s.cpu.pc + BitVec.ofNat 16 len))

/-! ## The PPU clock -/

/-- The PPU time of a CPU cycle: `3*s + PPU_PHASE` (R452). -/
def State.ppuTime (s : State) (stamp : Nat) : Nat := 3 * stamp + s.params.ppuPhase.val

/-- The devices after every dot that R452 orders before a device access stamped `stamp`. -/
def State.devAt (s : State) (stamp : Nat) : Devices := s.dev.syncTo s.params (s.ppuTime stamp)

/-- Catch-up at a stamp (R452). -/
def State.sync (stamp : Nat) (s : State) : State := s.withDev (s.devAt stamp)

/-! ## Callbacks (R1171; log 2) -/

/-- `apu_status(stamp)`: the host's next byte, or a free value. -/
def State.apuStatus (s : State) (stamp : Nat) : Byte × State :=
  let h := { s.host with calls := .apuStatus stamp :: s.host.calls }
  match s.host.apuNext with
  | b :: rest => (b, s.withHost { h with apuNext := rest })
  | [] => (Config.apuStatus stamp s.host.calls.length, s.withHost h)

/-- A serial bit of a controller: the host's next one, or a free value. -/
def nextBit (given : List Bool) (n stamp index : Nat) : Bool :=
  match given with
  | b :: _ => b
  | [] => Config.ctrlRead n stamp index

/-- `0x40 | ctrl_read(n, stamp)` (R205). -/
def State.ctrlRead (s : State) (n stamp : Nat) : Byte × State :=
  let h := { s.host with calls := .ctrlRead n stamp :: s.host.calls }
  let given := if n = 1 then s.host.ctrl1Next else s.host.ctrl2Next
  let h := if n = 1 then { h with ctrl1Next := given.tail } else { h with ctrl2Next := given.tail }
  (0x40 ||| (BitVec.ofBool (nextBit given n stamp s.host.calls.length)).setWidth 8, s.withHost h)

/-- `audio_write(a, v, stamp)`: no core state changes (R205). -/
def State.audioWrite (s : State) (a : Word) (v : Byte) (stamp : Nat) : State :=
  s.withHost { s.host with calls := .audioWrite a v stamp :: s.host.calls }

/-- `ctrl_strobe(v & 1, stamp)` (R205). -/
def State.ctrlStrobe (s : State) (v : Byte) (stamp : Nat) : State :=
  s.withHost { s.host with calls := .ctrlStrobe (v.getLsbD 0) stamp :: s.host.calls }

/-! ## The CPU bus -/

/-- `open_bus(a)` (R206). -/
def openBus (p : Params) (a : Word) : Byte := Store.read (highByte a) p.openBusAt a.toNat

/-- A read of a PPU port at its stamp (R204, R231). -/
def State.readPort (s : State) (a : Word) (stamp : Nat) : Byte × State :=
  let (b, d) := portRead s.params (s.ppuTime stamp) (a.toNat % 8) (s.devAt stamp)
  (b, s.withDev d)

/-- `MemRead(addr, 1)` at a stamp: the routing of R201. -/
def memRead (a : Word) (stamp : Nat) (s : State) : Byte × State :=
  let n := a.toNat
  if n < 0x2000 then (s.ram.read (n % 0x800), s)
  else if n < 0x4000 then s.readPort a stamp
  else if n < 0x6000 then
    if n = 0x4015 then s.apuStatus stamp
    else if n = 0x4016 then s.ctrlRead 1 stamp
    else if n = 0x4017 then s.ctrlRead 2 stamp
    else (openBus s.params a, s)
  else if n < 0x8000 then (s.dev.cart.readWram a, s)
  else (s.dev.cart.readPrg a, s)

/-- The devices with one byte of primary OAM written. -/
def Devices.writeOam (d : Devices) (i : Byte) (v : Byte) : Devices :=
  { d with ppu := { d.ppu with mem := { d.ppu.mem with oam := d.ppu.mem.oam.write i.toNat v } } }

/-- The copy loop of OAM DMA: the last `fuel` of the 256 bytes of page `p` (R850). -/
def dmaCopy (page : Byte) (stamp : Nat) : (fuel : Nat) → State → State
  | 0, s => s
  | fuel + 1, s =>
    let i : Byte := BitVec.ofNat 8 (255 - fuel)
    let (b, s) := memRead (joinBytes page i) stamp s
    dmaCopy page stamp fuel (s.withDev (s.dev.writeOam (s.dev.ppu.regs.oamaddr + i) b))

/-- A write of page `p` to $4014 (R850): the copy at the write's stamp, and one more pending cycle steal. -/
def oamDma (page : Byte) (stamp : Nat) (s : State) : State :=
  let s := dmaCopy page stamp 256 (s.sync stamp)
  s.withPendingDma (s.pendingDma + 1)

/-- A write to a PPU port at its stamp (R204, R231). -/
def State.writePort (s : State) (a : Word) (v : Byte) (stamp : Nat) : State :=
  s.withDev (portWrite s.params (s.ppuTime stamp) (a.toNat % 8) v (s.devAt stamp))

/-- A write to the PRG window at its stamp: a mapper register write (R209, R231). -/
def State.writeMapper (s : State) (a : Word) (v : Byte) (stamp : Nat) : State :=
  let d := s.devAt stamp
  s.withDev { d with cart := d.cart.mapperWrite s.params a v stamp }

/-- `MemWrite(addr, 1, v)` at a stamp: the routing of R201. -/
def memWrite (a : Word) (v : Byte) (stamp : Nat) (s : State) : State :=
  let n := a.toNat
  if n < 0x2000 then s.withRam (s.ram.write (n % 0x800) v)
  else if n < 0x4000 then s.writePort a v stamp
  else if n < 0x6000 then
    if n = 0x4014 then oamDma v stamp s
    else if n = 0x4016 then s.ctrlStrobe v stamp
    else if n < 0x4018 then s.audioWrite a v stamp
    else s
  else if n < 0x8000 then s.withDev { s.dev with cart := s.dev.cart.writeWram a v }
  else s.writeMapper a v stamp

/-- The address of the second byte of a page-wrapping read: `(a & 0xFF00) | ((a+1) & 0x00FF)` (R16, R219). -/
def wrapNext (a : Word) : Word := (a &&& 0xFF00) ||| ((a + 1) &&& 0x00FF)

/-- `Read16wrap(a)`, low byte at `stamp` and high byte at the next (R16, R219). -/
def read16wrap (a : Word) (stamp : Nat) (s : State) : Word × State :=
  let (lo, s) := memRead a stamp s
  let (hi, s) := memRead (wrapNext a) (stamp + 1) s
  (joinBytes hi lo, s)

/-- `Read16(a)`, low byte at `stamp` and high byte at the next (R16). -/
def read16 (a : Word) (stamp : Nat) (s : State) : Word × State :=
  let (lo, s) := memRead a stamp s
  let (hi, s) := memRead (a + 1) (stamp + 1) s
  (joinBytes hi lo, s)

/-! ## The stack (R16, R550) -/

/-- The address of a stack byte: `0x0100 | S` (R102). -/
def stackAddr (sp : Byte) : Word := 0x0100 ||| zext16 sp

/-- `push(v)` (R16). -/
def push (v : Byte) (stamp : Nat) (s : State) : State :=
  let s := memWrite (stackAddr s.cpu.s) v stamp s
  s.withCpu (s.cpu.withS (s.cpu.s - 1))

/-- `pull()` (R16). -/
def pull (stamp : Nat) (s : State) : Byte × State :=
  let s := s.withCpu (s.cpu.withS (s.cpu.s + 1))
  memRead (stackAddr s.cpu.s) stamp s

/-- A 16-bit value pushed high byte first, at two stamps (R211). -/
def pushWord (w : Word) (stamp : Nat) (s : State) : State :=
  push (lowByte w) (stamp + 1) (push (highByte w) stamp s)

/-- A 16-bit value pulled low byte first, at two stamps (R713, R714). -/
def pullWord (stamp : Nat) (s : State) : Word × State :=
  let (lo, s) := pull stamp s
  let (hi, s) := pull (stamp + 1) s
  (joinBytes hi lo, s)

/-! ## Interrupts -/

/-- `enter_interrupt(vector, bflag, ret)` of a step that begins at `s.cycles` (R1120): NMI, IRQ and BRK use it. -/
def enterInterrupt (vector : Word) (bflag : Bool) (ret : Word) (s : State) : State :=
  let c0 := s.cycles
  let s := pushWord ret (c0 + 2) s
  let s := push (s.cpu.p.pack bflag) (c0 + 4) s
  let s := s.withCpu (s.cpu.withP { s.cpu.p with i := true })
  let (target, s) := read16 vector (c0 + 5) s
  s.withCpu (s.cpu.withPc target)

/-- The return from an interrupt, of a step that begins at `s.cycles` (R714): P, then PC, from the stack. -/
def returnFromInterrupt (s : State) : State :=
  let c0 := s.cycles
  let (p, s) := pull (c0 + 3) s
  let s := s.withCpu (s.cpu.withP (Flags.unpack p))
  let (target, s) := pullWord (c0 + 4) s
  s.withCpu (s.cpu.withPc target)

/-- `enter_nmi()` (R1121). -/
def enterNmi (s : State) : State :=
  (enterInterrupt 0xFFFA false s.cpu.pc (s.withDev { s.dev with nmiPending := false })).charge 7

/-- `enter_irq()` (R1122): the source is not acknowledged. -/
def enterIrq (s : State) : State :=
  (enterInterrupt 0xFFFE false s.cpu.pc s).charge 7

/-- `irq_line = mapper_irq OR EXT_IRQ` (R109). -/
def State.irqLine (s : State) : Bool := s.dev.cart.mapper.irq || s.host.extIrq

/-- The level of `EXT_IRQ` sampled at a boundary: the host's next one, or the one it holds (R1171; log 3). -/
def State.sampleExtIrq (s : State) : State :=
  match s.host.extIrqNext with
  | b :: rest => s.withHost { s.host with extIrq := b, extIrqNext := rest }
  | [] => s

/-! ## Instruction fetch (R402) -/

/-- The instruction at PC, fetched byte by byte at the stamps of R450. JSR's second operand byte is not fetched here but
after its pushes (R712): the decoder sees the byte that stands there, with no access made (log 9). -/
def fetch (s : State) : Instr × State :=
  let c0 := s.cycles
  let pc := s.cpu.pc
  let (op, s) := memRead pc c0 s
  let row := opRow op
  match row.operands with
  | 0 => (row.assemble 0 0, s)
  | 1 =>
    let (b1, s) := memRead (pc + 1) (c0 + 1) s
    (row.assemble b1 0, s)
  | _ =>
    let (b1, s) := memRead (pc + 1) (c0 + 1) s
    let (b2, s') := memRead (pc + 2) (c0 + 2) s
    (row.assemble b1 b2, if op = 0x20 then s else s')

/-! ## The end of a step -/

/-- The cycles stolen for `n` writes to $4014, one after another (R850). -/
def stealDma (base : Nat) : (n : Nat) → (cycles : Nat) → Nat
  | 0, c => c
  | n + 1, c => stealDma base n (c + (base + c % 2))

/-- The pending DMA cycles stolen (R850, R1140). -/
def State.settleDma (s : State) : State :=
  { s with cycles := stealDma s.params.oamDmaBase s.pendingDma s.cycles, pendingDma := 0 }

/-- The boundary after a step: pending DMA is charged, and the PPU has run every dot before `cycles` (R401, R452). -/
def State.boundary (s : State) : State :=
  let s := s.settleDma
  s.sync s.cycles

/-- A byte of code put where a fetch of address `a` reads it: RAM, WRAM or the PRG store under the window in force (log 7). -/
def placeByte (a : Word) (v : Byte) (s : State) : State :=
  if a.toNat < 0x2000 then s.withRam (s.ram.write (a.toNat % 0x800) v)
  else if a.toNat < 0x6000 then s
  else if a.toNat < 0x8000 then s.withDev { s.dev with cart := s.dev.cart.writeWram a v }
  else s.withDev { s.dev with cart := { s.dev.cart with prg := s.dev.cart.prg.write (s.dev.cart.prgOffset a) v } }

/-- Bytes of code put from address `a` on. -/
def placeBytes : (a : Word) → List Byte → State → State
  | _, [], s => s
  | a, b :: rest, s => placeBytes (a + 1) rest (placeByte a b s)

/-- No interrupt is pending: the next step executes an instruction (log 7). -/
def State.quiet (s : State) : State :=
  let mapper :=
    match s.dev.cart.mapper with
    | .mmc3 m => Mapper.mmc3 { m with irqPending := false }
    | m => m
  let s := s.withDev { s.dev with nmiPending := false, cart := { s.dev.cart with mapper := mapper } }
  s.withHost { s.host with extIrq := false, extIrqNext := [] }

/-! ## Reset (R1200, R1201) -/

/-- The PPU's registers at power-on and reset (R116). -/
def PpuRegs.atReset : PpuRegs :=
  { ctrl := 0, mask := 0, vblank := false, sprite0Hit := false, spriteOverflow := false, oamaddr := 0,
    v := 0, t := 0, x := 0, w := false, readBuffer := 0, ioLatch := 0 }

/-- The PPU's timing state at power-on and reset (R118). -/
def PpuTime.atReset : PpuTime :=
  { scanline := 0, dot := 0, oddFrame := false, dotClock := 0, frameReady := false }

/-- The background pipeline at power-on and reset (R119). -/
def BgPipe.atReset : BgPipe :=
  { ntByte := 0, atByte := 0, loByte := 0, hiByte := 0, palNext := 0, shLo := 0, shHi := 0, shAlo := 0, shAhi := 0 }

/-- The sprite pipeline at power-on and reset (R119). -/
def SprPipe.atReset : SprPipe :=
  { count := 0, zeroNext := false, zeroLine := false
    units := Vector.replicate 8 { lo := 0, hi := 0, attr := 0, x := 0 }
    lineCount := 0 }

/-- The PPU at reset: its memories and the output buffer keep their contents (R152). -/
def Ppu.reset (u : Ppu) : Ppu :=
  { u with regs := PpuRegs.atReset, time := PpuTime.atReset, bg := BgPipe.atReset, spr := SprPipe.atReset }

/-- The devices at reset (R152, R153, R1201). -/
def Devices.reset (d : Devices) : Devices :=
  { ppu := d.ppu.reset, cart := d.cart.reset, nmiPending := false }

/-- `reset_sequence()` (R1201), a step that begins at cycle 0: three suppressed pushes, I = 1, PC from $FFFC at stamps 5 and
6, 7 cycles, and the dots of those cycles. -/
def resetSequence (s : State) : State :=
  let s := { s with cycles := 0, pendingDma := 0, dev := s.dev.reset }
  let s := s.withCpu ((s.cpu.withS (s.cpu.s - 3)).withP { s.cpu.p with i := true })
  let (target, s) := read16 0xFFFC 5 s
  ((s.withCpu (s.cpu.withPc target)).charge 7).boundary

end Sys2Proof.Machine
end

