-- ==== Sys2Proof/Machine/Operands.lean ====
section
/-! DEFINITION. Every operand form: effective addresses (spec/40_interpreter.md R410 to R422), cycle costs (R432, R433), and
the data access protocols of the read, write and read-modify-write kinds (R430, R431, R450). -/

namespace Sys2Proof.Machine

/-- Are two addresses in different 256-byte pages (R433)? -/
def pageCross (a b : Word) : Bool := a &&& 0xFF00 != b &&& 0xFF00

/-- What a memory mode gives: the effective address, whether indexing crossed a page, and the state after the mode's own
pointer reads. -/
structure Located where
  ea : Word
  cross : Bool
  state : State
deriving DecidableEq, Repr

/-- An indexed address and its page cross (R417, R418, R420). -/
def indexed (base : Word) (index : Byte) (s : State) : Located :=
  let ea := base + zext16 index
  { ea := ea, cross := pageCross base ea, state := s }

/-- The effective address of a memory mode in a step that begins at `s.cycles` (R413 to R420). -/
def locate (m : MemMode) (s : State) : Located :=
  match m with
  | .zp z => { ea := zext16 z, cross := false, state := s }
  | .zpx z => { ea := zext16 (z + s.cpu.x), cross := false, state := s }
  | .zpy z => { ea := zext16 (z + s.cpu.y), cross := false, state := s }
  | .abs a => { ea := a, cross := false, state := s }
  | .abx a => indexed a s.cpu.x s
  | .aby a => indexed a s.cpu.y s
  | .izx z =>
    let (ea, t) := read16wrap (zext16 (z + s.cpu.x)) (s.cycles + 3) s
    { ea := ea, cross := false, state := t }
  | .izy z =>
    let (base, t) := read16wrap (zext16 z) (s.cycles + 2) s
    indexed base t.cpu.y t

/-- The base cost of a read-kind row by mode (R305's table). -/
def readCost : MemMode → Nat
  | .zp _ => 3
  | .zpx _ | .zpy _ => 4
  | .abs _ => 4
  | .abx _ | .aby _ => 4
  | .izx _ => 6
  | .izy _ => 5

/-- The read-kind rows that take the page-cross cycle: abx, aby, izy (R432). -/
def crossPenalty : MemMode → Bool
  | .abx _ | .aby _ | .izy _ => true
  | .zp _ | .zpx _ | .zpy _ | .abs _ | .izx _ => false

/-- The base cost of a write-kind row by mode; it never takes the page-cross cycle (R432, R504). -/
def writeCost : MemMode → Nat
  | .zp _ => 3
  | .zpx _ | .zpy _ => 4
  | .abs _ => 4
  | .abx _ | .aby _ => 5
  | .izx _ | .izy _ => 6

/-- The base cost of a read-modify-write row by mode; it never takes the page-cross cycle (R432, R650). -/
def rmwCost : RmwMode → Nat
  | .zp _ => 5
  | .zpx _ => 6
  | .abs _ => 6
  | .abx _ => 7

/-- What a read operand gives: the byte M, the cost of the instruction, and the state after its accesses. -/
structure ReadResult where
  value : Byte
  cost : Nat
  state : State
deriving DecidableEq, Repr

/-- The operand byte M of a read-kind instruction in a step that begins at `s.cycles`: the immediate byte, or one read of
the effective address on the last cycle (R404, R412, R430, R432). -/
def readOperand (o : ReadOperand) (s : State) : ReadResult :=
  match o with
  | .imm b => { value := b, cost := 2, state := s }
  | .mem m =>
    let loc := locate m s
    let n := readCost m + (if crossPenalty m && loc.cross then 1 else 0)
    let (b, t) := memRead loc.ea (s.cycles + n - 1) loc.state
    { value := b, cost := n, state := t }

/-- A read-kind instruction: `f` gives the registers from the operand byte. -/
def readInstr (o : ReadOperand) (f : Byte → Cpu → Cpu) (s : State) : State :=
  let r := readOperand o (s.advance (1 + o.size))
  (r.state.withCpu (f r.value r.state.cpu)).charge r.cost

/-- A write-kind instruction: one write of the effective address on the last cycle, and no read of it (R430). -/
def writeInstr (m : MemMode) (v : Cpu → Byte) (s : State) : State :=
  let loc := locate m (s.advance (1 + m.size))
  (memWrite loc.ea (v loc.state.cpu) (s.cycles + writeCost m - 1) loc.state).charge (writeCost m)

/-- A read-modify-write instruction: read, write of the original value, write of the final one (R431, R650). -/
def rmwInstr (m : RmwMode) (f : Byte → Flags → Byte × Flags) (s : State) : State :=
  let n := rmwCost m
  let loc := locate m.toMem (s.advance (1 + m.toMem.size))
  let (old, t) := memRead loc.ea (s.cycles + n - 3) loc.state
  let t := memWrite loc.ea old (s.cycles + n - 2) t
  let (new, flags) := f old t.cpu.p
  let t := t.withCpu (t.cpu.withP flags)
  (memWrite loc.ea new (s.cycles + n - 1) t).charge n

/-- A one-byte, two-cycle instruction on registers and flags alone (R410, R411, R507, R750). -/
def implied (f : Cpu → Cpu) (s : State) : State :=
  let s := s.advance 1
  (s.withCpu (f s.cpu)).charge 2

/-- An accumulator form: `A <- f(A)`, two cycles (R411, R650). -/
def accumulatorInstr (f : Byte → Flags → Byte × Flags) (s : State) : State :=
  implied (fun c => (c.withA (f c.a c.p).1).withP (f c.a c.p).2) s

/-- A register and N, Z from it. -/
def Cpu.loadA (c : Cpu) (v : Byte) : Cpu := (c.withA v).withP (c.p.setNZ v)
/-- A register and N, Z from it. -/
def Cpu.loadX (c : Cpu) (v : Byte) : Cpu := (c.withX v).withP (c.p.setNZ v)
/-- A register and N, Z from it. -/
def Cpu.loadY (c : Cpu) (v : Byte) : Cpu := (c.withY v).withP (c.p.setNZ v)

/-- The target of a branch, from the address of the next instruction (R422). -/
def branchTarget (next : Word) (offset : Byte) : Word := next + sext16 offset

/-- A branch on a condition on the flags (R720, R432). -/
def branchInstr (offset : Byte) (cond : Flags → Bool) (s : State) : State :=
  let s := s.advance 2
  let target := branchTarget s.cpu.pc offset
  if cond s.cpu.p then
    (s.withCpu (s.cpu.withPc target)).charge (if pageCross s.cpu.pc target then 4 else 3)
  else s.charge 2

end Sys2Proof.Machine
end

