-- ==== Sys2Proof/Machine/Arith.lean ====
section
/-! DEFINITION. Arithmetic, logic and compare (spec/43_arith_logic_compare.md R600 to R618). -/

namespace Sys2Proof.Machine

/-- A and the flags from an operation on A, the operand and the flags. -/
def Cpu.combineA (c : Cpu) (r : Byte × Flags) : Cpu := (c.withA r.1).withP r.2

/-- ADC (R610). -/
def execAdc (o : ReadOperand) (s : State) : Result :=
  .next (readInstr o (fun m c => c.combineA (addWithCarry c.a m c.p)) s)

/-- SBC (R611). -/
def execSbc (o : ReadOperand) (s : State) : Result :=
  .next (readInstr o (fun m c => c.combineA (subWithBorrow c.a m c.p)) s)

/-- AND (R612). -/
def execAnd (o : ReadOperand) (s : State) : Result :=
  .next (readInstr o (fun m c => c.loadA (c.a &&& m)) s)

/-- ORA (R613). -/
def execOra (o : ReadOperand) (s : State) : Result :=
  .next (readInstr o (fun m c => c.loadA (c.a ||| m)) s)

/-- EOR (R614). -/
def execEor (o : ReadOperand) (s : State) : Result :=
  .next (readInstr o (fun m c => c.loadA (c.a ^^^ m)) s)

/-- BIT (R615). -/
def execBit (m : MemMode) (s : State) : Result :=
  .next (readInstr (.mem m) (fun v c => c.withP (bitFlags c.a v c.p)) s)

/-- CMP (R616). -/
def execCmp (o : ReadOperand) (s : State) : Result :=
  .next (readInstr o (fun m c => c.withP (compareFlags c.a m c.p)) s)

/-- CPX (R617). -/
def execCpx (o : ReadOperand) (s : State) : Result :=
  .next (readInstr o (fun m c => c.withP (compareFlags c.x m c.p)) s)

/-- CPY (R618). -/
def execCpy (o : ReadOperand) (s : State) : Result :=
  .next (readInstr o (fun m c => c.withP (compareFlags c.y m c.p)) s)

end Sys2Proof.Machine
end

