-- ==== Sys2Proof/Machine/Control.lean ====
section
/-! DEFINITION. Jumps, calls, returns, BRK and branches (spec/45_control_transfer.md R700 to R728). -/

namespace Sys2Proof.Machine

/-- JMP absolute (R710). -/
def execJmp (target : Word) (s : State) : Result :=
  let t := s.advance 3
  .next ((t.withCpu (t.cpu.withPc target)).charge 3)

/-- JMP indirect (R711): the pointer read at c0 + 3 and c0 + 4, with the page wrap. -/
def execJmpInd (pointer : Word) (s : State) : Result :=
  let (target, t) := read16wrap pointer (s.cycles + 3) (s.advance 3)
  .next ((t.withCpu (t.cpu.withPc target)).charge 5)

/-- JSR (R712): the return address minus 1 pushed at c0 + 3 and c0 + 4, then the target's high byte fetched at c0 + 5. The
high byte of `target` is what stood there before the pushes and is not used (log 9). -/
def execJsr (target : Word) (s : State) : Result :=
  let ret := s.cpu.pc + 2
  let t := pushWord ret (s.cycles + 3) (s.advance 3)
  let (b2, t) := memRead ret (s.cycles + 5) t
  .next ((t.withCpu (t.cpu.withPc (joinBytes b2 (lowByte target)))).charge 6)

/-- RTS (R713): the pulled address plus 1. -/
def execRts (s : State) : Result :=
  let (ret, t) := pullWord (s.cycles + 3) (s.advance 1)
  .next ((t.withCpu (t.cpu.withPc (ret + 1))).charge 6)

/-- RTI (R714). -/
def execRti (s : State) : Result :=
  .next ((returnFromInterrupt (s.advance 1)).charge 6)

/-- BRK (R715): the interrupt entry with bit 4 set and the return address pc0 + 2. -/
def execBrk (s : State) : Result :=
  .next ((enterInterrupt 0xFFFE true (s.cpu.pc + 2) (s.advance 1)).charge 7)

/-- BPL (R721). -/
def execBpl (offset : Byte) (s : State) : Result :=
  .next (branchInstr offset (fun f => !f.n) s)

/-- BMI (R722). -/
def execBmi (offset : Byte) (s : State) : Result :=
  .next (branchInstr offset (fun f => f.n) s)

/-- BVC (R723). -/
def execBvc (offset : Byte) (s : State) : Result :=
  .next (branchInstr offset (fun f => !f.v) s)

/-- BVS (R724). -/
def execBvs (offset : Byte) (s : State) : Result :=
  .next (branchInstr offset (fun f => f.v) s)

/-- BCC (R725). -/
def execBcc (offset : Byte) (s : State) : Result :=
  .next (branchInstr offset (fun f => !f.c) s)

/-- BCS (R726). -/
def execBcs (offset : Byte) (s : State) : Result :=
  .next (branchInstr offset (fun f => f.c) s)

/-- BNE (R727). -/
def execBne (offset : Byte) (s : State) : Result :=
  .next (branchInstr offset (fun f => !f.z) s)

/-- BEQ (R728). -/
def execBeq (offset : Byte) (s : State) : Result :=
  .next (branchInstr offset (fun f => f.z) s)

end Sys2Proof.Machine
end

