-- ==== Sys2Proof/Machine/FlagOps.lean ====
section
/-! DEFINITION. Flag instructions, NOP and the unsupported-opcode fallback (spec/46_flags_misc.md R750 to R790). -/

namespace Sys2Proof.Machine

/-- CLC (R760). -/
def execClc (s : State) : Result :=
  .next (implied (fun r => r.withP { r.p with c := false }) s)

/-- SEC (R761). -/
def execSec (s : State) : Result :=
  .next (implied (fun r => r.withP { r.p with c := true }) s)

/-- CLI (R762). -/
def execCli (s : State) : Result :=
  .next (implied (fun r => r.withP { r.p with i := false }) s)

/-- SEI (R763). -/
def execSei (s : State) : Result :=
  .next (implied (fun r => r.withP { r.p with i := true }) s)

/-- CLD (R764). -/
def execCld (s : State) : Result :=
  .next (implied (fun r => r.withP { r.p with d := false }) s)

/-- SED (R765). -/
def execSed (s : State) : Result :=
  .next (implied (fun r => r.withP { r.p with d := true }) s)

/-- CLV (R766). -/
def execClv (s : State) : Result :=
  .next (implied (fun r => r.withP { r.p with v := false }) s)

/-- NOP (R770): only PC and the clock. -/
def execNop (s : State) : Result :=
  .next (implied (fun r => r) s)

/-- The fallback of the 105 unsupported bytes (R790): the sticky flag, PC + 1, one cycle; the byte is not recorded. -/
def execUnsupported (_op : Byte) (s : State) : Result :=
  .next (((s.advance 1).withUnsupported true).charge 1)

end Sys2Proof.Machine
end

