-- ==== Sys2Proof/Machine/IncDecShift.lean ====
section
/-! DEFINITION. Increment, decrement, shift and rotate (spec/44_incdec_shift.md R650 to R673). -/

namespace Sys2Proof.Machine

/-- INC (R660). -/
def execInc (m : RmwMode) (s : State) : Result :=
  .next (rmwInstr m incOp s)

/-- DEC (R661). -/
def execDec (m : RmwMode) (s : State) : Result :=
  .next (rmwInstr m decOp s)

/-- INX (R662). -/
def execInx (s : State) : Result :=
  .next (implied (fun c => c.loadX (c.x + 1)) s)

/-- INY (R663). -/
def execIny (s : State) : Result :=
  .next (implied (fun c => c.loadY (c.y + 1)) s)

/-- DEX (R664). -/
def execDex (s : State) : Result :=
  .next (implied (fun c => c.loadX (c.x - 1)) s)

/-- DEY (R665). -/
def execDey (s : State) : Result :=
  .next (implied (fun c => c.loadY (c.y - 1)) s)

/-- ASL A (R670). -/
def execAslAcc (s : State) : Result :=
  .next (accumulatorInstr aslOp s)

/-- ASL on memory (R670). -/
def execAsl (m : RmwMode) (s : State) : Result :=
  .next (rmwInstr m aslOp s)

/-- LSR A (R671). -/
def execLsrAcc (s : State) : Result :=
  .next (accumulatorInstr lsrOp s)

/-- LSR on memory (R671). -/
def execLsr (m : RmwMode) (s : State) : Result :=
  .next (rmwInstr m lsrOp s)

/-- ROL A (R672). -/
def execRolAcc (s : State) : Result :=
  .next (accumulatorInstr rolOp s)

/-- ROL on memory (R672). -/
def execRol (m : RmwMode) (s : State) : Result :=
  .next (rmwInstr m rolOp s)

/-- ROR A (R673). -/
def execRorAcc (s : State) : Result :=
  .next (accumulatorInstr rorOp s)

/-- ROR on memory (R673). -/
def execRor (m : RmwMode) (s : State) : Result :=
  .next (rmwInstr m rorOp s)

end Sys2Proof.Machine
end

