-- ==== Sys2Proof/Machine/LoadStore.lean ====
section
/-! DEFINITION. Loads and stores (spec/41_load_store_transfer.md R500 to R506). -/

namespace Sys2Proof.Machine

/-- LDA (R501): `A <- M; setNZ(A)`. -/
def execLda (o : ReadOperand) (s : State) : Result :=
  .next (readInstr o (fun m c => c.loadA m) s)

/-- LDX (R502): `X <- M; setNZ(X)`. -/
def execLdx (o : ReadOperand) (s : State) : Result :=
  .next (readInstr o (fun m c => c.loadX m) s)

/-- LDY (R503): `Y <- M; setNZ(Y)`. -/
def execLdy (o : ReadOperand) (s : State) : Result :=
  .next (readInstr o (fun m c => c.loadY m) s)

/-- STA (R504): `MemWrite(ea, 1, A)`. -/
def execSta (m : MemMode) (s : State) : Result :=
  .next (writeInstr m Cpu.a s)

/-- STX (R505): `MemWrite(ea, 1, X)`. -/
def execStx (m : MemMode) (s : State) : Result :=
  .next (writeInstr m Cpu.x s)

/-- STY (R506): `MemWrite(ea, 1, Y)`. -/
def execSty (m : MemMode) (s : State) : Result :=
  .next (writeInstr m Cpu.y s)

end Sys2Proof.Machine
end

