-- ==== Sys2Proof/Machine/Stack.lean ====
section
/-! DEFINITION. Stack instructions (spec/42_stack.md R550 to R563). -/

namespace Sys2Proof.Machine

/-- PHA (R560): `push(A)` at c0 + 2. -/
def execPha (s : State) : Result :=
  let t := s.advance 1
  .next ((push t.cpu.a (s.cycles + 2) t).charge 3)

/-- PHP (R561): `push(pack(1))` at c0 + 2. -/
def execPhp (s : State) : Result :=
  let t := s.advance 1
  .next ((push (t.cpu.p.pack true) (s.cycles + 2) t).charge 3)

/-- PLA (R562): `A <- pull()` at c0 + 3, `setNZ(A)`. -/
def execPla (s : State) : Result :=
  let (b, t) := pull (s.cycles + 3) (s.advance 1)
  .next ((t.withCpu (t.cpu.loadA b)).charge 4)

/-- PLP (R563): `unpack(pull())` at c0 + 3. -/
def execPlp (s : State) : Result :=
  let (b, t) := pull (s.cycles + 3) (s.advance 1)
  .next ((t.withCpu (t.cpu.withP (Flags.unpack b))).charge 4)

end Sys2Proof.Machine
end

