-- ==== Sys2Proof/Machine/Transfer.lean ====
section
/-! DEFINITION. Register transfers (spec/41_load_store_transfer.md R507 to R515). -/

namespace Sys2Proof.Machine

/-- TAX (R510): `X <- A; setNZ(X)`. -/
def execTax (s : State) : Result :=
  .next (implied (fun c => c.loadX c.a) s)

/-- TAY (R511): `Y <- A; setNZ(Y)`. -/
def execTay (s : State) : Result :=
  .next (implied (fun c => c.loadY c.a) s)

/-- TXA (R512): `A <- X; setNZ(A)`. -/
def execTxa (s : State) : Result :=
  .next (implied (fun c => c.loadA c.x) s)

/-- TYA (R513): `A <- Y; setNZ(A)`. -/
def execTya (s : State) : Result :=
  .next (implied (fun c => c.loadA c.y) s)

/-- TSX (R514): `X <- S; setNZ(X)`. -/
def execTsx (s : State) : Result :=
  .next (implied (fun c => c.loadX c.s) s)

/-- TXS (R515): `S <- X`, and no flag. -/
def execTxs (s : State) : Result :=
  .next (implied (fun c => c.withS c.x) s)

end Sys2Proof.Machine
end

