-- ==== Sys2Proof/Machine/Step.lean ====
section
/-! DEFINITION. One step, taken at a boundary (spec/40_interpreter.md R401), and the host's aid that places an instruction
where the step fetches. -/

namespace Sys2Proof.Machine

/-- The boundary that ends a step, after its outcome. -/
def finishStep (r : Result) : Result :=
  match r with
  | .next s => .next s.boundary
  | .fault f => .fault f
  | .refused f => .refused f

/-- `step()` (R401): NMI first, then IRQ, else the instruction at PC; then the boundary. -/
def step (s : State) : Host.Outcome State Fault Refusal :=
  let s := s.sampleExtIrq
  if s.dev.nmiPending then finishStep (.next (enterNmi s))
  else if s.irqLine && !s.cpu.p.i then finishStep (.next (enterIrq s))
  else finishStep (exec (fetch s).1 (fetch s).2)

/-- The state with the instruction of a table word stored where the next step fetches, and no interrupt pending (log 7). -/
def State.withFetchWord (s : State) (nbits w : Nat) : State :=
  placeBytes s.cpu.pc (tableBytes nbits w) s.quiet

end Sys2Proof.Machine
end

