-- ==== Sys2Proof/Machine/HostOps.lean ====
section
/-! DEFINITION. The host interface of spec/60_exceptions.md R1170 to R1179: creating a cartridge and powering on, the run
loop and its debug variant (spec/40_interpreter.md R400, R441), and the operations between steps (log 14). -/

namespace Sys2Proof.Machine

/-! ## Load and power-on (R1177 to R1179, R1200, R1203) -/

/-- The stores `power_on_fill` gives the contents of (R160). -/
inductive FillStore where
  | ram
  | wram
  | ciram
  | palette
  | oam
  | chrRam
deriving DecidableEq, Repr

/-- `power_on_fill` (R12): a function from a memory and an index to a byte. -/
abbrev PowerOnFill := FillStore → Nat → Byte

/-- What the host's read of a WRAM save gave (R1176): whether the I/O succeeds is the host's input (log 25). -/
inductive WramRead where
  /-- the host has no save -/
  | absent
  | blob (bytes : List Byte)
  /-- the read failed -/
  | ioFailure
deriving DecidableEq, Repr

/-- What the loader supplies (R11, R1177). -/
structure LoadRequest where
  header : Header
  mapper : Nat
  prg : List Byte
  chr : List Byte
  /-- the host's read of the WRAM save (R1176) -/
  wramRead : WramRead
deriving DecidableEq, Repr

/-- Why a load is refused, before any core state exists (R1178, R1179). -/
inductive LoadError where
  | malformedMetadata
  | unsupportedMapper
deriving DecidableEq, Repr

/-- The variant of a mapper number, at its reset values (R5, R1000, R1005). -/
def Mapper.ofNumber (n : Nat) (h : Header) : Option Mapper :=
  match n with
  | 0 => some .nrom
  | 1 => some (.mmc1 Mmc1.atReset)
  | 4 => some (.mmc3 (Mmc3.atReset h))
  | 23 => some (.vrc2b (Vrc2b.atReset h))
  | 68 => some (.sunsoft4 (Sunsoft4.atReset h))
  | 75 => some (.vrc1 (Vrc1.atReset h))
  | _ => none

/-- "Bank counts inconsistent with file size" (R1178). -/
def LoadRequest.malformed (q : LoadRequest) : Bool :=
  q.header.prg16Count == 0 || q.prg.length != 16384 * q.header.prg16Count || q.chr.length != 8192 * q.header.chr8Count

/-- WRAM at creation: the blob of a battery-backed cartridge, when it is whole, else the fill (R1176); a failed read leaves
the fill, as a missing blob does (log 25). -/
def LoadRequest.initialWram (q : LoadRequest) (fill : PowerOnFill) : Memory :=
  let filled := Memory.fill 8192 (fill .wram)
  match q.wramRead with
  | .blob bytes => if q.header.battery && decide (8192 ≤ bytes.length) then Memory.ofBytes (bytes.take 8192) else filled
  | .absent => filled
  | .ioFailure => filled

/-- The boolean that the load call reports: false when the save of a battery-backed cartridge could not be read (R1100,
R1176). -/
def LoadRequest.wramReadOk (q : LoadRequest) : Bool := !(q.header.battery && q.wramRead == .ioFailure)

/-- Bytes written from an index on. -/
def Memory.writeBytes : (m : Memory) → (i : Nat) → List Byte → Memory
  | m, _, [] => m
  | m, i, b :: rest => Memory.writeBytes (m.write i b) (i + 1) rest

/-- The trainer bytes, at `wram[0x1000 .. 0x11FF]` (R1203). -/
def applyTrainer (h : Header) (wram : Memory) : Memory :=
  match h.trainer with
  | some t => Memory.writeBytes wram 0x1000 t.toList
  | none => wram

/-- The load: a refusal, or a new cartridge (R1177 to R1179; log 20). -/
def createCartridge (q : LoadRequest) (fill : PowerOnFill) : Except LoadError Cartridge :=
  if q.malformed then .error .malformedMetadata
  else
    match Mapper.ofNumber q.mapper q.header with
    | none => .error .unsupportedMapper
    | some m =>
      .ok (Cartridge.rebuild
        { header := q.header
          prg := Memory.ofBytes q.prg
          chr := if q.header.chr8Count = 0 then Memory.fill 8192 (fill .chrRam) else Memory.ofBytes q.chr
          wram := applyTrainer q.header (q.initialWram fill)
          mapper := m
          windows := m.windows q.header })

/-- The load call: a refusal, or the new cartridge with the boolean of the WRAM load (R1100, R1170, R1176). -/
def loadCartridge (q : LoadRequest) (fill : PowerOnFill) : Except LoadError (Cartridge × Bool) :=
  match createCartridge q fill with
  | .error e => .error e
  | .ok c => .ok (c, q.wramReadOk)

/-- The number of bytes of CIRAM (R115). -/
def Header.ciramSize (h : Header) : Nat := if h.fourScreen then 4096 else 2048

/-- The machine before the power-on reset sequence (R150, R152, R153, R160). A palette entry holds 6 bits and `power_on_fill`
gives a byte: the entry is its low 6 bits, a DESIGN CHOICE (log 5). -/
def beforePowerOn (c : Cartridge) (axy : Byte × Byte × Byte) (fill : PowerOnFill) (params : Params) (host : HostSide) :
    State where
  cpu :=
    { a := axy.1, x := axy.2.1, y := axy.2.2, s := 0x00, pc := 0
      p := { n := false, v := false, b := false, d := false, i := false, z := false, c := false } }
  cycles := 0
  unsupportedSeen := false
  pendingDma := 0
  ram := Memory.fill 2048 (fill .ram)
  dev :=
    { ppu :=
        { regs := PpuRegs.atReset
          time := PpuTime.atReset
          bg := BgPipe.atReset
          spr := SprPipe.atReset
          mem :=
            { ciram := Memory.fill c.header.ciramSize (fill .ciram)
              palette := Store.ofList 0 0 ((List.range 32).map fun i => (fill .palette i).setWidth 6)
              oam := Memory.fill 256 (fill .oam)
              oam2 := Vector.replicate 8 { y := 0, tile := 0, attr := 0, x := 0 } }
          pixels := [] }
      cart := c
      nmiPending := false }
  host := host
  params := params

/-- Power-on (R1200): the state of R150 to R160, then the reset sequence. -/
def powerOn (c : Cartridge) (axy : Byte × Byte × Byte) (fill : PowerOnFill) (params : Params) (host : HostSide) : State :=
  resetSequence (beforePowerOn c axy fill params host)

/-! ## Runs (R400, R440, R441) -/

/-- At most `fuel` steps, while `cycles < target`. -/
def runUntil (target : Nat) : (fuel : Nat) → State → Result
  | 0, s => .next s
  | fuel + 1, s =>
    if s.cycles < target then
      match step s with
      | .next t => runUntil target fuel t
      | .fault f => .fault f
      | .refused r => .refused r
    else .next s

/-- `executeUntilCycle(target)` (R400): the call returns the `cycles` of the state it ends in. Every step costs at least one
cycle (R1164), so as many steps as cycles are missing are enough. -/
def executeUntilCycle (target : Nat) (s : State) : Result := runUntil target (target - s.cycles) s

/-- How a debug run ends (R441, R1100). -/
inductive RunResult where
  | reachedTarget
  | breakpointHit
deriving DecidableEq, Repr

/-- The next step takes no interrupt and its opcode is one of the 105 unsupported bytes (R401, R790). -/
def State.runsFallback (s : State) : Bool :=
  let s := s.sampleExtIrq
  !s.dev.nmiPending && !(s.irqLine && !s.cpu.p.i) && unsupportedBytes.contains (memRead s.cpu.pc s.cycles s).1

/-- Does the step from `s` to `t` end a debug run? PC has reached the breakpoint (R441), or the step ran the fallback of an
unsupported byte at the breakpoint (R1130; log 26). -/
def endsDebugRun (s t : State) : Bool :=
  match t.params.breakpoint with
  | none => false
  | some b => t.cpu.pc == b || (s.cpu.pc == b && s.runsFallback)

/-- At most `fuel` steps of a debug run: the breakpoint is checked after each step (R441, R1130). -/
def debugUntil (target : Nat) : (fuel : Nat) → State → RunResult × Result
  | 0, s => (.reachedTarget, .next s)
  | fuel + 1, s =>
    if s.cycles < target then
      match step s with
      | .next t => if endsDebugRun s t then (.breakpointHit, .next t) else debugUntil target fuel t
      | .fault f => (.reachedTarget, .fault f)
      | .refused r => (.reachedTarget, .refused r)
    else (.reachedTarget, .next s)

/-- `executeUntilCycleDebug(target)` (R441). -/
def executeUntilCycleDebug (target : Nat) (s : State) : RunResult × Result := debugUntil target (target - s.cycles) s

/-! ## Operations between steps (R1170, R1172) -/

/-- `reset()` (R1175, R1200, R1201). -/
def hostReset (s : State) : State := resetSequence s

/-- `runPPUUntilCPUCycle(c)` (R453): whether a frame ended since the last call. -/
def runPpuUntilCpuCycle (c : Nat) (s : State) : Bool × State :=
  let s := s.sync c
  (s.dev.ppu.time.frameReady,
    s.withDev { s.dev with ppu := { s.dev.ppu with time := { s.dev.ppu.time with frameReady := false } } })

/-- `stealCycles(n)` (R442); the PPU keeps running during them. -/
def stealCycles (n : Nat) (s : State) : State := (s.charge n).boundary

/-- `dmcRead(addr)` (R1141): one read, then the stolen cycles. -/
def dmcRead (a : Word) (s : State) : Byte × State :=
  let (b, s) := memRead a s.cycles s
  (b, stealCycles s.params.dmcSteal s)

/-- The copy of `pixels` the host takes at a frame end (R905). -/
def frameCopy (s : State) : List (List Pixel) :=
  (List.range 240).map fun line => (List.range 256).map fun col => readPixel s.dev.ppu.pixels line col

/-- The copy of WRAM that is saved, as it stands (R1176). -/
def wramCopy (s : State) : List Byte :=
  (List.range 8192).map fun i => s.dev.cart.wram.read i

/-- What the WRAM save call gives back (R1170): the copy, or `false` on an I/O failure. -/
inductive SaveResult where
  | copy (bytes : List Byte)
  | failed
deriving DecidableEq, Repr

/-- The WRAM save call (R1100, R1170, R1176), with whether the host's I/O succeeds (log 25). It reads the state and changes
none of it. -/
def saveWram (ioOk : Bool) (s : State) : SaveResult :=
  if ioOk then .copy (wramCopy s) else .failed

/-- The host sets the level of `EXT_IRQ` (R1172). -/
def setExtIrq (level : Bool) (s : State) : State := s.withHost { s.host with extIrq := level }

/-- The host sets what a controller will shift out next (R1171, R1172). -/
def setController (n : Nat) (bits : List Bool) (s : State) : State :=
  s.withHost (if n = 1 then { s.host with ctrl1Next := bits } else { s.host with ctrl2Next := bits })

/-- The host sets the breakpoint (R1172). -/
def setBreakpoint (b : Option Word) (s : State) : State :=
  { s with params := { s.params with breakpoint := b } }

end Sys2Proof.Machine
end

