-- ==== Sys2Proof/Safety.lean ====
section
/-! DEFINITION. The invariant of the machine at a boundary, and what counts as a safe run (spec/93_implementation_defined.md
I1; spec/52_mappers.md R1002; spec/51_ppu_timing_rendering.md R900). -/

namespace Sys2Proof.Machine

/-- The cartridge's stores are canonical and within their sizes (R112, R113). -/
abbrev Cartridge.storesWf (c : Cartridge) : Prop :=
  c.prg.wf ∧ Store.below (16384 * c.header.prg16Count) c.prg ∧
  c.chr.wf ∧ Store.below (1024 * c.header.chrPages) c.chr ∧
  c.wram.wf ∧ Store.below 8192 c.wram

/-- The windows are those of the mapper's registers: "always kept consistent with its register state" (R114). -/
abbrev Cartridge.windowsCurrent (c : Cartridge) : Prop := c.windows = c.mapper.windows c.header

/-- The cartridge passes the load checks that bear on its size (R11, R1178). -/
abbrev Cartridge.loaded (c : Cartridge) : Prop := 1 ≤ c.header.prg16Count

/-- The PPU's memories are canonical and within their sizes (R115, R120). -/
abbrev Ppu.storesWf (u : Ppu) (h : Header) : Prop :=
  u.mem.ciram.wf ∧ Store.below h.ciramSize u.mem.ciram ∧
  Store.wf 0 u.mem.palette ∧ Store.below 32 u.mem.palette ∧
  u.mem.oam.wf ∧ Store.below 256 u.mem.oam ∧
  pixelsWf u.pixels

/-- The position is one of the 262 lines and 341 dots (R900). -/
abbrev PpuTime.legal (t : PpuTime) : Prop := t.scanline < 262 ∧ t.dot < 341

/-- The sprite pipeline holds at most eight sprites (R119, R940). -/
abbrev SprPipe.legal (s : SprPipe) : Prop := s.count ≤ 8 ∧ s.lineCount ≤ 8

/-- The invariant of the devices. -/
abbrev Devices.Inv (d : Devices) : Prop :=
  d.cart.loaded ∧ d.cart.windowsCurrent ∧ d.cart.storesWf ∧ d.ppu.storesWf d.cart.header ∧ d.ppu.time.legal ∧ d.ppu.spr.legal

/-- The PPU has run exactly the dots that R452 places before the boundary. -/
abbrev State.locked (s : State) : Prop := s.dev.ppu.time.dotClock = s.ppuTime s.cycles

/-- The invariant of the machine at a boundary. -/
abbrev State.Inv (s : State) : Prop :=
  s.dev.Inv ∧ s.ram.wf ∧ Store.below 2048 s.ram ∧ s.pendingDma = 0 ∧ s.locked

/-- A CPU address that reads as a stored byte and whose read has no side effect: RAM, WRAM and the PRG window (R201, R214). -/
abbrev plainAddr (a : Word) : Prop := a.toNat < 0x2000 ∨ 0x6000 ≤ a.toNat

/-- An address of the PPU ports and their mirrors (R204). -/
abbrev portAddr (a : Word) : Prop := 0x2000 ≤ a.toNat ∧ a.toNat < 0x4000

/-- Two CPU addresses of one stored byte: the same address, or mirrors of one RAM byte (R202). -/
abbrev sameByte (a b : Word) : Prop := a = b ∨ (a.toNat < 0x2000 ∧ b.toNat < 0x2000 ∧ a.toNat % 0x800 = b.toNat % 0x800)

/-- A CPU address a store to which changes a stored byte and nothing else: RAM and WRAM (R202, R207). -/
abbrev storeAddr (a : Word) : Prop := a.toNat < 0x2000 ∨ (0x6000 ≤ a.toNat ∧ a.toNat < 0x8000)

/-- Nothing but the CPU registers and the clock differs: RAM, the cartridge, the PPU, the latches, the callbacks and the
parameters are the same. -/
abbrev onlyCpuAndClock (s t : State) : Prop :=
  t.ram = s.ram ∧ t.dev = s.dev ∧ t.host = s.host ∧ t.params = s.params ∧
  t.pendingDma = s.pendingDma ∧ t.unsupportedSeen = s.unsupportedSeen

/-- Every byte a program can store to or fetch from memory other than through a device port reads as before: RAM, WRAM and
the PRG window. -/
abbrev samePlainBytes (s t : State) : Prop := ∀ a stamp, plainAddr a → (memRead a stamp t).1 = (memRead a stamp s).1

/-- N and Z from a result, as the rules word them: bit 7, and being zero (R15). -/
def nz (v : Byte) (f : Flags) : Flags := { f with n := decide (0x80 ≤ v.toNat), z := decide (v = 0) }

/-- The state in which an instruction of `len` bytes and `cost` cycles has run with no effect but on the registers `c`. -/
def State.ran (s : State) (len cost : Nat) (c : Cpu) : State :=
  { s with cpu := { c with pc := s.cpu.pc + BitVec.ofNat 16 len }, cycles := s.cycles + cost }

/-! ## Shifts and rotates as arithmetic on numbers below 256, with the carry out (R670 to R673) -/

def shiftLeft (v : Byte) (_carry : Bool) : Byte × Bool := (BitVec.ofNat 8 (2 * v.toNat), decide (0x80 ≤ v.toNat))
def shiftRight (v : Byte) (_carry : Bool) : Byte × Bool := (BitVec.ofNat 8 (v.toNat / 2), decide (v.toNat % 2 = 1))
def rotateLeft (v : Byte) (carry : Bool) : Byte × Bool :=
  (BitVec.ofNat 8 (2 * v.toNat + flagBit carry), decide (0x80 ≤ v.toNat))
def rotateRight (v : Byte) (carry : Bool) : Byte × Bool :=
  (BitVec.ofNat 8 (v.toNat / 2 + 128 * flagBit carry), decide (v.toNat % 2 = 1))

/-- The flags a shift leaves: C the bit shifted out, N and Z from the result, V and the others as they were. -/
def shiftFlags (r : Byte × Bool) (f : Flags) : Flags := nz r.1 { f with c := r.2 }

/-! ## Which instructions write what (R101, R102, R104, R105, R404, R550) -/

/-- What an instruction may write: registers, flags (Z and N go together), the byte its memory operand names, and how many
bytes it pushes. -/
structure Writes where
  a : Bool := false
  x : Bool := false
  y : Bool := false
  s : Bool := false
  c : Bool := false
  nz : Bool := false
  i : Bool := false
  d : Bool := false
  v : Bool := false
  b : Bool := false
  store : Option MemMode := none
  pushed : Nat := 0
deriving DecidableEq, Repr

/-- The writers of each register, flag and memory byte, as the spec lists them. -/
def writes : Instr → Writes
  | .lda _ | .and _ | .ora _ | .eor _ | .txa | .tya => { a := true, nz := true }
  | .adc _ | .sbc _ => { a := true, nz := true, c := true, v := true }
  | .aslAcc | .lsrAcc | .rolAcc | .rorAcc => { a := true, nz := true, c := true }
  | .ldx _ | .tax | .tsx | .inx | .dex => { x := true, nz := true }
  | .ldy _ | .tay | .iny | .dey => { y := true, nz := true }
  | .cmp _ | .cpx _ | .cpy _ => { c := true, nz := true }
  | .bit _ => { nz := true, v := true }
  | .sta m | .stx m | .sty m => { store := some m }
  | .inc m | .dec m => { nz := true, store := some m.toMem }
  | .asl m | .lsr m | .rol m | .ror m => { c := true, nz := true, store := some m.toMem }
  | .txs => { s := true }
  | .pha | .php => { s := true, pushed := 1 }
  | .pla => { s := true, a := true, nz := true }
  | .plp | .rti => { s := true, c := true, nz := true, i := true, d := true, v := true, b := true }
  | .jsr _ => { s := true, pushed := 2 }
  | .rts => { s := true }
  | .brk => { s := true, i := true, pushed := 3 }
  | .clc | .sec => { c := true }
  | .cli | .sei => { i := true }
  | .cld | .sed => { d := true }
  | .clv => { v := true }
  | .jmp _ | .jmpInd _ | .bpl _ | .bmi _ | .bvc _ | .bvs _ | .bcc _ | .bcs _ | .bne _ | .beq _ | .nop | .unsupported _ => {}

/-- Every memory of the machine but RAM and secondary OAM, and the PRG windows, are the same. -/
abbrev sameStores (s t : State) : Prop :=
  t.dev.cart.header = s.dev.cart.header ∧ t.dev.cart.prg = s.dev.cart.prg ∧ t.dev.cart.wram = s.dev.cart.wram ∧
  t.dev.cart.chr = s.dev.cart.chr ∧ t.dev.cart.windows = s.dev.cart.windows ∧ t.dev.ppu.mem.ciram = s.dev.ppu.mem.ciram ∧
  t.dev.ppu.mem.palette = s.dev.ppu.mem.palette ∧ t.dev.ppu.mem.oam = s.dev.ppu.mem.oam

/-- A state no unsupported byte has been executed before: a claim about the console is about such runs only (I1). -/
def State.safe (s : State) : Prop := s.unsupportedSeen = false

end Sys2Proof.Machine
end

