-- ==== Sys2Proof/Certificates/Slice0/Obligations.lean ====
section
/-! DEFINITION. The statements for the provers. Each docstring names what of spec/ it formalises; a statement that rests on a
choice of the model names the log entry. -/

open Sys2Proof Sys2Proof.Machine

/-! ## Encoding -/

/-- Words written out from the opcode map decode to the instruction they stand for (spec/30_encoding.md section 3). -/
def Obligations.OpcodeWordsDecode : Prop :=
  decode [0xA9, 0x80] = .ok (.lda (.imm 0x80), []) ∧ decode [0xB1, 0xFF] = .ok (.lda (.mem (.izy 0xFF)), []) ∧
  decode [0xB6, 0x0F] = .ok (.ldx (.mem (.zpy 0x0F)), []) ∧ decode [0x9D, 0x00, 0x03] = .ok (.sta (.abx 0x0300), []) ∧
  decode [0x7E, 0xFF, 0x01] = .ok (.ror (.abx 0x01FF), []) ∧ decode [0x6C, 0xFF, 0x02] = .ok (.jmpInd 0x02FF, []) ∧
  decode [0x20, 0x00, 0xD0] = .ok (.jsr 0xD000, []) ∧ decode [0x00, 0xEE] = .ok (.brk, [0xEE]) ∧
  decode [0xD0, 0xF0] = .ok (.bne 0xF0, []) ∧ decode [0xE1, 0x10] = .ok (.sbc (.mem (.izx 0x10)), []) ∧
  decode [0x28] = .ok (.plp, []) ∧ decode [0x02, 0xA9] = .ok (.unsupported 0x02, [0xA9]) ∧
  decode [0x4C, 0x34] = .error (.missingOperand 0x4C)

/-- Decoding an encoded well-formed instruction gives it back, with every operand, and leaves the bytes after it
(spec/30_encoding.md sections 1 to 4). -/
def Obligations.EncodeDecodeRoundTrip : Prop :=
  ∀ (i : Instr) (rest : List Byte), i.wellFormed = true → decode (encode i ++ rest) = .ok (i, rest)

/-- Each word has one meaning: what decodes is well-formed and its encoding is the bytes it was read from. -/
def Obligations.DecodedBytesReencode : Prop :=
  ∀ (bytes : List Byte) (i : Instr) (rest : List Byte),
    decode bytes = .ok (i, rest) → i.wellFormed = true ∧ encode i ++ rest = bytes

/-- The decoder is total on all 256 opcode bytes: it reads the opcode byte and then the operand bytes its row's length names,
and exactly the 105 listed bytes give the fallback (spec/30_encoding.md sections 1, 3 and 4). -/
def Obligations.EveryOpcodeByteHasARow : Prop :=
  unsupportedBytes.length = 105 ∧
  ∀ (op b1 b2 : Byte) (rest : List Byte), ∃ i : Instr,
    i.wellFormed = true ∧ 1 ≤ i.length ∧ i.length ≤ 3 ∧
    decode (op :: b1 :: b2 :: rest) = .ok (i, (op :: b1 :: b2 :: rest).drop i.length) ∧
    (i = .unsupported op ↔ op ∈ unsupportedBytes)

/-! ## The step -/

/-- With no interrupt taken, a step reads the instruction's bytes one after another at c0, c0 + 1 and c0 + 2 (JSR's second
operand byte later, in the instruction itself), and is `exec` of the instruction they decode to, ended by the boundary
(spec/40_interpreter.md sections 1 and 2, spec/45_control_transfer.md section 3). The model's choices in it: log 3 for the
`EXT_IRQ` level sampled at the step's start, log 9 for JSR's unread byte, log 16 for a step as `exec` and then the boundary. -/
def Obligations.StepRunsDecodedInstruction : Prop :=
  ∀ (s : State) (i : Instr) (rest : List Byte),
    let s0 := s.sampleExtIrq
    let r0 := memRead s0.cpu.pc s0.cycles s0
    let r1 := memRead (s0.cpu.pc + 1) (s0.cycles + 1) r0.2
    let r2 := memRead (s0.cpu.pc + 2) (s0.cycles + 2) r1.2
    s0.dev.nmiPending = false → (s0.irqLine && !s0.cpu.p.i) = false →
    decode [r0.1, r1.1, r2.1] = .ok (i, rest) →
    step s =
      match exec i (if i.length = 1 then r0.2 else if i.length = 2 ∨ r0.1 = 0x20 then r1.2 else r2.2) with
      | .next t => .next t.boundary
      | .fault f => .fault f
      | .refused r => .refused r

/-- The boundary charges, for each write to $4014, the DMA base and one more cycle when it starts on an odd cycle, runs every
dot before 3 * cycles + PPU_PHASE, and does nothing else (spec/50_ppu_registers.md section 9, spec/40_interpreter.md
section 6). A step makes at most two such writes. -/
def Obligations.BoundaryStealsDmaAndRunsDots : Prop :=
  ∀ s : State, ∃ c : Nat,
    s.boundary =
      { s with cycles := c, pendingDma := 0, dev := s.dev.syncTo s.params (3 * c + s.params.ppuPhase.val) } ∧
    s.boundary.dev.ppu.time.dotClock = max s.dev.ppu.time.dotClock (3 * c + s.params.ppuPhase.val) ∧
    (s.pendingDma = 0 → c = s.cycles) ∧
    (s.pendingDma = 1 → c = s.cycles + s.params.oamDmaBase + s.cycles % 2) ∧
    (s.pendingDma = 2 →
      let c1 := s.cycles + s.params.oamDmaBase + s.cycles % 2
      c = c1 + s.params.oamDmaBase + c1 % 2)

/-! ## Operands -/

/-- The effective address and the page cross of every memory mode, in numbers; and no mode changes the state. The pointer
reads of the last two modes are of page 0. -/
def Obligations.OperandAddresses : Prop :=
  ∀ s : State,
    (∀ z, (locate (.zp z) s).ea.toNat = z.toNat ∧ (locate (.zp z) s).cross = false) ∧
    (∀ z, (locate (.zpx z) s).ea.toNat = (z.toNat + s.cpu.x.toNat) % 256 ∧ (locate (.zpx z) s).cross = false) ∧
    (∀ z, (locate (.zpy z) s).ea.toNat = (z.toNat + s.cpu.y.toNat) % 256 ∧ (locate (.zpy z) s).cross = false) ∧
    (∀ a, (locate (.abs a) s).ea = a ∧ (locate (.abs a) s).cross = false) ∧
    (∀ a, (locate (.abx a) s).ea.toNat = (a.toNat + s.cpu.x.toNat) % 65536 ∧
      ((locate (.abx a) s).cross = true ↔ (locate (.abx a) s).ea.toNat / 256 ≠ a.toNat / 256)) ∧
    (∀ a, (locate (.aby a) s).ea.toNat = (a.toNat + s.cpu.y.toNat) % 65536 ∧
      ((locate (.aby a) s).cross = true ↔ (locate (.aby a) s).ea.toNat / 256 ≠ a.toNat / 256)) ∧
    (∀ z,
      let p := (z.toNat + s.cpu.x.toNat) % 256
      (locate (.izx z) s).ea.toNat = (s.ram.read p).toNat + 256 * (s.ram.read ((p + 1) % 256)).toNat ∧
      (locate (.izx z) s).cross = false) ∧
    (∀ z,
      let base := (s.ram.read z.toNat).toNat + 256 * (s.ram.read ((z.toNat + 1) % 256)).toNat
      (locate (.izy z) s).ea.toNat = (base + s.cpu.y.toNat) % 65536 ∧
      ((locate (.izy z) s).cross = true ↔ (locate (.izy z) s).ea.toNat / 256 ≠ base / 256)) ∧
    ∀ m, (locate m s).state = s

/-- The operand of a read instruction: the immediate byte in 2 cycles with no access; or exactly one read of the effective
address, on the last cycle of the instruction, with the base cost of the mode and one cycle more on a page cross of the
three indexed modes (spec/40_interpreter.md section 4). -/
def Obligations.ReadOperandMakesOneAccess : Prop :=
  ∀ s : State,
    (∀ b, readOperand (.imm b) s = { value := b, cost := 2, state := s }) ∧
    ∀ m : MemMode,
      let l := locate m s
      let n := (readOperand (.mem m) s).cost
      (readOperand (.mem m) s).value = (memRead l.ea (s.cycles + n - 1) s).1 ∧
      (readOperand (.mem m) s).state = (memRead l.ea (s.cycles + n - 1) s).2 ∧
      n = match m with
        | .zp _ => 3
        | .zpx _ | .zpy _ | .abs _ => 4
        | .abx _ | .aby _ => if l.cross then 5 else 4
        | .izx _ => 6
        | .izy _ => if l.cross then 6 else 5

/-! ## Results: every instruction completes, with its own effect -/

/-- LDA, LDX, LDY: the register takes the operand byte, N and Z follow it, and nothing else changes but PC, the clock and
what the operand's one read does (spec/41_load_store_transfer.md section 1). -/
def Obligations.LoadsSetRegisterAndNZ : Prop :=
  ∀ (o : ReadOperand) (s : State),
    let r := readOperand o s
    exec (.lda o) s = .next (r.state.ran (1 + o.size) r.cost { s.cpu with a := r.value, p := nz r.value s.cpu.p }) ∧
    exec (.ldx o) s = .next (r.state.ran (1 + o.size) r.cost { s.cpu with x := r.value, p := nz r.value s.cpu.p }) ∧
    exec (.ldy o) s = .next (r.state.ran (1 + o.size) r.cost { s.cpu with y := r.value, p := nz r.value s.cpu.p })

/-- ADC: A + M + C on numbers, modulo 256; C when the sum reaches 256; V when the signed sum leaves -128..127; D plays no
part (spec/43_arith_logic_compare.md sections 1 and 2). -/
def Obligations.AdcAddsWithCarry : Prop :=
  ∀ (o : ReadOperand) (s : State),
    let r := readOperand o s
    let sum := s.cpu.a.toNat + r.value.toNat + flagBit s.cpu.p.c
    let signed := s.cpu.a.toInt + r.value.toInt + flagBit s.cpu.p.c
    let a' : Byte := BitVec.ofNat 8 sum
    exec (.adc o) s = .next (r.state.ran (1 + o.size) r.cost
      { s.cpu with
        a := a'
        p := nz a' { s.cpu.p with c := decide (256 ≤ sum), v := decide (signed < -128 ∨ 127 < signed) } })

/-- SBC: A - M - (1 - C), modulo 256; C when A is at least M plus the borrow; V when the signed difference leaves -128..127;
D plays no part (spec/43_arith_logic_compare.md sections 1 and 2). -/
def Obligations.SbcSubtractsWithBorrow : Prop :=
  ∀ (o : ReadOperand) (s : State),
    let r := readOperand o s
    let borrow := 1 - flagBit s.cpu.p.c
    let signed := s.cpu.a.toInt - r.value.toInt - borrow
    let a' : Byte := BitVec.ofInt 8 ((s.cpu.a.toNat : Int) - r.value.toNat - borrow)
    exec (.sbc o) s = .next (r.state.ran (1 + o.size) r.cost
      { s.cpu with
        a := a'
        p := nz a' { s.cpu.p with
          c := decide (r.value.toNat + borrow ≤ s.cpu.a.toNat), v := decide (signed < -128 ∨ 127 < signed) } })

/-- AND, ORA, EOR: bit by bit, with N and Z from the result (spec/43_arith_logic_compare.md section 3). -/
def Obligations.LogicCombinesBits : Prop :=
  ∀ (o : ReadOperand) (s : State),
    let r := readOperand o s
    let done := fun v : Byte => r.state.ran (1 + o.size) r.cost { s.cpu with a := v, p := nz v s.cpu.p }
    exec (.and o) s = .next (done (s.cpu.a &&& r.value)) ∧
    exec (.ora o) s = .next (done (s.cpu.a ||| r.value)) ∧
    exec (.eor o) s = .next (done (s.cpu.a ^^^ r.value))

/-- CMP, CPX, CPY: C when the register is at least the operand, Z when they are equal, N bit 7 of the difference, and no
register is written. BIT: N and V are bits 7 and 6 of the operand, Z says that the and is zero
(spec/43_arith_logic_compare.md sections 3 and 4). -/
def Obligations.CompareAndBitSetFlags : Prop :=
  ∀ (o : ReadOperand) (m : MemMode) (s : State),
    let r := readOperand o s
    let cmp := fun reg : Byte =>
      { s.cpu.p with
        c := decide (r.value.toNat ≤ reg.toNat)
        z := decide (reg = r.value)
        n := decide (128 ≤ (256 + reg.toNat - r.value.toNat) % 256) }
    let done := fun f : Flags => r.state.ran (1 + o.size) r.cost { s.cpu with p := f }
    let q := readOperand (.mem m) s
    exec (.cmp o) s = .next (done (cmp s.cpu.a)) ∧
    exec (.cpx o) s = .next (done (cmp s.cpu.x)) ∧
    exec (.cpy o) s = .next (done (cmp s.cpu.y)) ∧
    exec (.bit m) s = .next (q.state.ran (1 + m.size) q.cost
      { s.cpu with p := { s.cpu.p with
        z := decide (s.cpu.a &&& q.value = 0), n := decide (128 ≤ q.value.toNat), v := decide (64 ≤ q.value.toNat % 128) } })

/-- STA, STX, STY: exactly one write, of the register, at the effective address, on the last cycle; no flag, no register; the
cost of the mode, with no page-cross cycle (spec/41_load_store_transfer.md section 2, spec/40_interpreter.md section 4). -/
def Obligations.StoresWriteOneByte : Prop :=
  ∀ (m : MemMode) (s : State),
    let n := writeCost m
    let ea := (locate m s).ea
    let done := fun v : Byte => (memWrite ea v (s.cycles + n - 1) s).ran (1 + m.size) n s.cpu
    exec (.sta m) s = .next (done s.cpu.a) ∧
    exec (.stx m) s = .next (done s.cpu.x) ∧
    exec (.sty m) s = .next (done s.cpu.y) ∧
    n = match m with
      | .zp _ => 3
      | .zpx _ | .zpy _ | .abs _ => 4
      | .abx _ | .aby _ => 5
      | .izx _ | .izy _ => 6

/-- INC, DEC, ASL, LSR, ROL, ROR on memory: a read, a write of the original value and a write of the final one, on the last
three cycles, whatever stands at the address; the flags from the operation; the cost of the mode, with no page-cross cycle
(spec/44_incdec_shift.md sections 1 to 3, spec/40_interpreter.md section 4). -/
def Obligations.RmwReadsAndWritesTwice : Prop :=
  ∀ (m : RmwMode) (s : State),
    let n := rmwCost m
    let ea := (locate m.toMem s).ea
    let r := memRead ea (s.cycles + n - 3) s
    let written := memWrite ea r.1 (s.cycles + n - 2) r.2
    let done := fun (v : Byte) (f : Flags) =>
      (memWrite ea v (s.cycles + n - 1) written).ran (1 + m.toMem.size) n { s.cpu with p := f }
    let shift := fun op : Byte → Bool → Byte × Bool =>
      done (op r.1 s.cpu.p.c).1 (shiftFlags (op r.1 s.cpu.p.c) s.cpu.p)
    exec (.inc m) s = .next (done (r.1 + 1) (nz (r.1 + 1) s.cpu.p)) ∧
    exec (.dec m) s = .next (done (r.1 - 1) (nz (r.1 - 1) s.cpu.p)) ∧
    exec (.asl m) s = .next (shift shiftLeft) ∧
    exec (.lsr m) s = .next (shift shiftRight) ∧
    exec (.rol m) s = .next (shift rotateLeft) ∧
    exec (.ror m) s = .next (shift rotateRight) ∧
    n = match m with
      | .zp _ => 5
      | .zpx _ | .abs _ => 6
      | .abx _ => 7

/-- TAX, TAY, TXA, TYA, TSX, TXS: the copy in 2 cycles, N and Z from it but for TXS; and the byte each is encoded as. -/
def Obligations.TransfersCopyRegister : Prop :=
  ∀ s : State,
    let c := s.cpu
    exec .tax s = .next (s.ran 1 2 { c with x := c.a, p := nz c.a c.p }) ∧ encode .tax = [0xAA] ∧
    exec .tay s = .next (s.ran 1 2 { c with y := c.a, p := nz c.a c.p }) ∧ encode .tay = [0xA8] ∧
    exec .txa s = .next (s.ran 1 2 { c with a := c.x, p := nz c.x c.p }) ∧ encode .txa = [0x8A] ∧
    exec .tya s = .next (s.ran 1 2 { c with a := c.y, p := nz c.y c.p }) ∧ encode .tya = [0x98] ∧
    exec .tsx s = .next (s.ran 1 2 { c with x := c.s, p := nz c.s c.p }) ∧ encode .tsx = [0xBA] ∧
    exec .txs s = .next (s.ran 1 2 { c with s := c.x }) ∧ encode .txs = [0x9A]

/-- INX, INY, DEX, DEY: the register plus or minus 1 modulo 256, N and Z from it, in 2 cycles; and the byte each is encoded
as. -/
def Obligations.IndexRegistersStep : Prop :=
  ∀ s : State,
    let c := s.cpu
    let up := fun v : Byte => (BitVec.ofNat 8 ((v.toNat + 1) % 256) : Byte)
    let down := fun v : Byte => (BitVec.ofNat 8 ((v.toNat + 255) % 256) : Byte)
    exec .inx s = .next (s.ran 1 2 { c with x := up c.x, p := nz (up c.x) c.p }) ∧ encode .inx = [0xE8] ∧
    exec .iny s = .next (s.ran 1 2 { c with y := up c.y, p := nz (up c.y) c.p }) ∧ encode .iny = [0xC8] ∧
    exec .dex s = .next (s.ran 1 2 { c with x := down c.x, p := nz (down c.x) c.p }) ∧ encode .dex = [0xCA] ∧
    exec .dey s = .next (s.ran 1 2 { c with y := down c.y, p := nz (down c.y) c.p }) ∧ encode .dey = [0x88]

/-- ASL A, LSR A, ROL A, ROR A: the shift of A as arithmetic, the carry out, N and Z, in 2 cycles and with no data access
(spec/44_incdec_shift.md sections 1 and 3). -/
def Obligations.AccumulatorShifts : Prop :=
  ∀ s : State,
    let done := fun op : Byte → Bool → Byte × Bool =>
      let r := op s.cpu.a s.cpu.p.c
      s.ran 1 2 { s.cpu with a := r.1, p := shiftFlags r s.cpu.p }
    exec .aslAcc s = .next (done shiftLeft) ∧
    exec .lsrAcc s = .next (done shiftRight) ∧
    exec .rolAcc s = .next (done rotateLeft) ∧
    exec .rorAcc s = .next (done rotateRight)

/-- PHA, PHP, PLA, PLP: the byte of page 1 at S, then S - 1 (3 cycles); or S + 1, then the byte of page 1 (4 cycles). PHP
pushes N V 1 1 D I Z C; PLP takes the flags from bits 7 6 4 3 2 1 0 (spec/42_stack.md, spec/10_state.md section 2). -/
def Obligations.StackInstructionsPushAndPull : Prop :=
  ∀ s : State,
    let c := s.cpu
    let pushed := fun v : Byte => s.withRam (s.ram.write (0x100 + c.s.toNat) v)
    let top := s.ram.read (0x100 + (c.s.toNat + 1) % 256)
    let status := 128 * flagBit c.p.n + 64 * flagBit c.p.v + 32 + 16 + 8 * flagBit c.p.d + 4 * flagBit c.p.i +
      2 * flagBit c.p.z + flagBit c.p.c
    exec .pha s = .next ((pushed c.a).ran 1 3 { c with s := c.s - 1 }) ∧
    exec .php s = .next ((pushed (BitVec.ofNat 8 status)).ran 1 3 { c with s := c.s - 1 }) ∧
    exec .pla s = .next (s.ran 1 4 { c with s := c.s + 1, a := top, p := nz top c.p }) ∧
    exec .plp s = .next (s.ran 1 4 { c with
      s := c.s + 1
      p := { n := top.getLsbD 7, v := top.getLsbD 6, b := top.getLsbD 4, d := top.getLsbD 3
             i := top.getLsbD 2, z := top.getLsbD 1, c := top.getLsbD 0 } })

/-- CLC, SEC, CLI, SEI, CLD, SED, CLV write exactly one flag, NOP none; 1 byte, 2 cycles, no data access; and the byte each is
encoded as. -/
def Obligations.FlagInstructionsWriteOneFlag : Prop :=
  ∀ s : State,
    let p := s.cpu.p
    let done := fun f : Flags => s.ran 1 2 { s.cpu with p := f }
    exec .clc s = .next (done { p with c := false }) ∧ encode .clc = [0x18] ∧
    exec .sec s = .next (done { p with c := true }) ∧ encode .sec = [0x38] ∧
    exec .cli s = .next (done { p with i := false }) ∧ encode .cli = [0x58] ∧
    exec .sei s = .next (done { p with i := true }) ∧ encode .sei = [0x78] ∧
    exec .cld s = .next (done { p with d := false }) ∧ encode .cld = [0xD8] ∧
    exec .sed s = .next (done { p with d := true }) ∧ encode .sed = [0xF8] ∧
    exec .clv s = .next (done { p with v := false }) ∧ encode .clv = [0xB8] ∧
    exec .nop s = .next (done p) ∧ encode .nop = [0xEA]

/-- The fallback of the 105 unsupported bytes: the sticky flag, PC + 1, one cycle, and nothing else. -/
def Obligations.UnsupportedByteFallsBack : Prop :=
  ∀ (op : Byte) (s : State),
    op ∈ unsupportedBytes →
    decode [op] = .ok (.unsupported op, []) ∧
    exec (.unsupported op) s = .next { s.ran 1 1 s.cpu with unsupportedSeen := true }

/-- JMP absolute, and JMP indirect with the page wrap: the pointer's high byte comes from the same page; two reads at c0 + 3
and c0 + 4, whatever stands there (spec/45_control_transfer.md section 2, spec/20_memory.md section 2). -/
def Obligations.JumpsSetPc : Prop :=
  ∀ (a : Word) (s : State),
    let second : Word := BitVec.ofNat 16 (a.toNat / 256 * 256 + (a.toNat + 1) % 256)
    let lo := memRead a (s.cycles + 3) s
    let hi := memRead second (s.cycles + 4) lo.2
    exec (.jmp a) s = .next { s with cpu := { s.cpu with pc := a }, cycles := s.cycles + 3 } ∧
    exec (.jmpInd a) s = .next
      { hi.2 with
        cpu := { s.cpu with pc := BitVec.ofNat 16 (256 * hi.1.toNat + lo.1.toNat) }
        cycles := s.cycles + 5 }

/-- JSR: the address of its last byte is pushed high byte first, then its second operand byte is read, at c0 + 5, and gives
the target's high byte; 6 cycles. The decoded high byte plays no part (spec/45_control_transfer.md section 3; log 9). -/
def Obligations.JsrPushesThenReadsTarget : Prop :=
  ∀ (target : Word) (s : State),
    let ret := s.cpu.pc + 2
    let ram := (s.ram.write (0x100 + s.cpu.s.toNat) (BitVec.ofNat 8 (ret.toNat / 256))).write
      (0x100 + (s.cpu.s - 1).toNat) (BitVec.ofNat 8 (ret.toNat % 256))
    let hi := memRead ret (s.cycles + 5) (s.withRam ram)
    exec (.jsr target) s = .next
      { hi.2 with
        cpu := { s.cpu with s := s.cpu.s - 2, pc := BitVec.ofNat 16 (256 * hi.1.toNat + target.toNat % 256) }
        cycles := s.cycles + 6 }

/-- RTS pulls a return address and continues one past it; RTI pulls the flags and then the address; 1 byte and 6 cycles each
(spec/45_control_transfer.md sections 3 and 4). -/
def Obligations.ReturnsPullPc : Prop :=
  ∀ s : State,
    let at' := fun k : Nat => s.ram.read (0x100 + (s.cpu.s.toNat + k) % 256)
    encode .rts = [0x60] ∧ encode .rti = [0x40] ∧
    exec .rts s = .next { s with
      cpu := { s.cpu with s := s.cpu.s + 2, pc := BitVec.ofNat 16 (256 * (at' 2).toNat + (at' 1).toNat + 1) }
      cycles := s.cycles + 6 } ∧
    exec .rti s = .next { s with
      cpu := { s.cpu with
        s := s.cpu.s + 3
        pc := BitVec.ofNat 16 (256 * (at' 3).toNat + (at' 2).toNat)
        p := { n := (at' 1).getLsbD 7, v := (at' 1).getLsbD 6, b := (at' 1).getLsbD 4, d := (at' 1).getLsbD 3
               i := (at' 1).getLsbD 2, z := (at' 1).getLsbD 1, c := (at' 1).getLsbD 0 } }
      cycles := s.cycles + 6 }

/-- BRK: pc0 + 2 and the status with bits 5 and 4 set are pushed, I is set, PC is the word at $FFFE; 7 cycles
(spec/45_control_transfer.md section 4, spec/60_exceptions.md section 3). -/
def Obligations.BrkEntersHandler : Prop :=
  ∀ s : State,
    let c := s.cpu
    let ret := c.pc + 2
    let status := 128 * flagBit c.p.n + 64 * flagBit c.p.v + 32 + 16 + 8 * flagBit c.p.d + 4 * flagBit c.p.i +
      2 * flagBit c.p.z + flagBit c.p.c
    let ram := ((s.ram.write (0x100 + c.s.toNat) (BitVec.ofNat 8 (ret.toNat / 256))).write
      (0x100 + (c.s - 1).toNat) (BitVec.ofNat 8 (ret.toNat % 256))).write (0x100 + (c.s - 2).toNat) (BitVec.ofNat 8 status)
    exec .brk s = .next { s with
      ram := ram
      cpu := { c with
        s := c.s - 3
        p := { c.p with i := true }
        pc := BitVec.ofNat 16 (256 * (s.dev.cart.readPrg 0xFFFF).toNat + (s.dev.cart.readPrg 0xFFFE).toNat) }
      cycles := s.cycles + 7 }

/-- The eight branches: 2 cycles and the next instruction when the condition fails; the target, and 3 cycles or 4 on a page
cross, when it holds. The offset is a number from -128 to 127 (spec/45_control_transfer.md section 5). -/
def Obligations.BranchesFollowFlag : Prop :=
  ∀ (offset : Byte) (s : State),
    let next := (s.cpu.pc.toNat + 2) % 65536
    let target := (((next : Int) + offset.toInt) % 65536).toNat
    let branch := fun taken : Bool =>
      { s with
        cpu := { s.cpu with pc := BitVec.ofNat 16 (if taken then target else next) }
        cycles := s.cycles + (if !taken then 2 else if target / 256 = next / 256 then 3 else 4) }
    exec (.bpl offset) s = .next (branch (!s.cpu.p.n)) ∧ exec (.bmi offset) s = .next (branch s.cpu.p.n) ∧
    exec (.bvc offset) s = .next (branch (!s.cpu.p.v)) ∧ exec (.bvs offset) s = .next (branch s.cpu.p.v) ∧
    exec (.bcc offset) s = .next (branch (!s.cpu.p.c)) ∧ exec (.bcs offset) s = .next (branch s.cpu.p.c) ∧
    exec (.bne offset) s = .next (branch (!s.cpu.p.z)) ∧ exec (.beq offset) s = .next (branch s.cpu.p.z)

/-- "The +1 undoes the -1 of JSR": an RTS run right after a JSR continues after the JSR, with S as it was; and an RTI right
after an entry by any of the three vectors gives back the PC, the flags and S that the entry saved: only the discrete B field
takes the pushed bit 4 (spec/45_control_transfer.md sections 3 and 4, spec/60_exceptions.md sections 3 and 4). -/
def Obligations.ReturnsUndoTheirEntries : Prop :=
  (∀ (target : Word) (s t u : State),
    exec (.jsr target) s = .next t → exec .rts t = .next u →
    u.cpu = { s.cpu with pc := s.cpu.pc + 3 }) ∧
  ∀ (vector : Word) (bflag : Bool) (ret : Word) (s u : State),
    vector = 0xFFFA ∨ vector = 0xFFFC ∨ vector = 0xFFFE →
    exec .rti (enterInterrupt vector bflag ret s) = .next u →
    u.cpu = { s.cpu with pc := ret, p := { s.cpu.p with b := bflag } }

/-! ## Interrupts -/

/-- A pending NMI is taken at the boundary, before any IRQ or instruction: the latch is cleared, PC and the status with bit 4
clear are pushed, I is set, PC is the word at $FFFA, and 7 cycles are charged (spec/60_exceptions.md section 3). The model's
choices in it: log 3 for the `EXT_IRQ` level sampled at the step's start, log 16 for the boundary at its end. -/
def Obligations.PendingNmiIsTaken : Prop :=
  ∀ s : State,
    s.dev.nmiPending = true →
    let s0 := s.sampleExtIrq
    let c := s0.cpu
    let ram := ((s0.ram.write (0x100 + c.s.toNat) (BitVec.ofNat 8 (c.pc.toNat / 256))).write
      (0x100 + (c.s - 1).toNat) (BitVec.ofNat 8 (c.pc.toNat % 256))).write (0x100 + (c.s - 2).toNat) (c.p.pack false)
    step s = .next (State.boundary { s0 with
      ram := ram
      dev := { s0.dev with nmiPending := false }
      cpu := { c with
        s := c.s - 3
        p := { c.p with i := true }
        pc := BitVec.ofNat 16 (256 * (s0.dev.cart.readPrg 0xFFFB).toNat + (s0.dev.cart.readPrg 0xFFFA).toNat) }
      cycles := s0.cycles + 7 })

/-- With no NMI pending and the line at 1: when I is 0 the IRQ is taken, as an NMI but from the word at $FFFE, and nothing
acknowledges its source; when I is 1 it is ignored, and the step runs the instruction (spec/60_exceptions.md section 3). The
model's choices in it: log 3 for the `EXT_IRQ` level sampled at the step's start, log 16 for the boundary at its end. -/
def Obligations.UnmaskedIrqIsTaken : Prop :=
  ∀ s : State,
    let s0 := s.sampleExtIrq
    let c := s0.cpu
    let ram := ((s0.ram.write (0x100 + c.s.toNat) (BitVec.ofNat 8 (c.pc.toNat / 256))).write
      (0x100 + (c.s - 1).toNat) (BitVec.ofNat 8 (c.pc.toNat % 256))).write (0x100 + (c.s - 2).toNat) (c.p.pack false)
    s0.dev.nmiPending = false → (s0.dev.cart.mapper.irq || s0.host.extIrq) = true →
    (c.p.i = false →
      step s = .next (State.boundary { s0 with
        ram := ram
        cpu := { c with
          s := c.s - 3
          p := { c.p with i := true }
          pc := BitVec.ofNat 16 (256 * (s0.dev.cart.readPrg 0xFFFF).toNat + (s0.dev.cart.readPrg 0xFFFE).toNat) }
        cycles := s0.cycles + 7 })) ∧
    (c.p.i = true → step s = finishStep (exec (fetch s0).1 (fetch s0).2))

/-- The NMI latch stays 1 through every instruction, an IRQ entry, and every boundary: only NMI entry and reset clear it
(spec/60_exceptions.md section 2). -/
def Obligations.NmiLatchHeldUntilEntry : Prop :=
  ∀ s : State,
    s.dev.nmiPending = true →
    (∀ i t, exec i s = .next t → t.dev.nmiPending = true) ∧
    (enterIrq s).dev.nmiPending = true ∧ s.boundary.dev.nmiPending = true ∧ (fetch s).2.dev.nmiPending = true ∧
    (enterNmi s).dev.nmiPending = false ∧ s.dev.reset.nmiPending = false

/-! ## Frames: what an instruction leaves alone -/

/-- A, X, Y, S and each flag are written by the listed instructions only (spec/10_state.md sections 1 and 2). -/
def Obligations.RegisterAndFlagWriters : Prop :=
  ∀ (i : Instr) (s t : State),
    exec i s = .next t →
    ((writes i).a = false → t.cpu.a = s.cpu.a) ∧ ((writes i).x = false → t.cpu.x = s.cpu.x) ∧
    ((writes i).y = false → t.cpu.y = s.cpu.y) ∧ ((writes i).s = false → t.cpu.s = s.cpu.s) ∧
    ((writes i).c = false → t.cpu.p.c = s.cpu.p.c) ∧ ((writes i).nz = false → t.cpu.p.z = s.cpu.p.z ∧ t.cpu.p.n = s.cpu.p.n) ∧
    ((writes i).i = false → t.cpu.p.i = s.cpu.p.i) ∧ ((writes i).d = false → t.cpu.p.d = s.cpu.p.d) ∧
    ((writes i).v = false → t.cpu.p.v = s.cpu.p.v) ∧ ((writes i).b = false → t.cpu.p.b = s.cpu.p.b)

/-- An instruction that is neither a store, a read-modify-write form nor a push leaves every memory as it was, whatever device
it reads: every byte of RAM, WRAM and the PRG window reads as before; CHR, CIRAM, the palette and OAM are the same. -/
def Obligations.NonStoringInstructionsFrame : Prop :=
  ∀ (i : Instr) (s t : State),
    (writes i).store = none → (writes i).pushed = 0 → exec i s = .next t →
    t.ram = s.ram ∧ sameStores s t ∧ samePlainBytes s t ∧ t.params = s.params ∧ t.pendingDma = s.pendingDma

/-- STA, STX, STY and the read-modify-write forms store at their operand's effective address and nowhere else. Stored in RAM
or WRAM, every other plain byte reads as before and the PPU and the host see nothing; stored in a device or nowhere, RAM,
WRAM and PRG are the same; and below $8000 the PRG window reads as before. -/
def Obligations.StoringInstructionsFrame : Prop :=
  ∀ (i : Instr) (m : MemMode) (s t : State),
    (writes i).store = some m → exec i s = .next t →
    let ea := (locate m s).ea
    (ea.toNat < 0x8000 → ∀ b n, plainAddr b → ¬(storeAddr ea ∧ sameByte ea b) → (memRead b n t).1 = (memRead b n s).1) ∧
    (storeAddr ea → t.dev.ppu = s.dev.ppu ∧ t.dev.cart.chr = s.dev.cart.chr ∧ t.dev.cart.mapper = s.dev.cart.mapper ∧
      t.host = s.host ∧ t.pendingDma = s.pendingDma) ∧
    (¬storeAddr ea → t.ram = s.ram ∧ t.dev.cart.wram = s.dev.cart.wram) ∧
    t.dev.cart.prg = s.dev.cart.prg ∧ t.dev.cart.header = s.dev.cart.header ∧ t.params = s.params

/-- PHA, PHP, JSR and BRK store 1, 1, 2 and 3 bytes, at page 1 from S downwards, and nowhere else. -/
def Obligations.PushingInstructionsFrame : Prop :=
  ∀ (i : Instr) (s t : State),
    0 < (writes i).pushed → exec i s = .next t →
    (∀ b n, plainAddr b → (∀ k, k < (writes i).pushed → ¬sameByte (stackAddr (s.cpu.s - BitVec.ofNat 8 k)) b) →
      (memRead b n t).1 = (memRead b n s).1) ∧
    sameStores s t ∧ t.params = s.params ∧ t.pendingDma = s.pendingDma

/-- No step, whatever it runs, changes PRG-ROM, the header or the parameters, or CHR when it is ROM
(spec/20_memory.md section 1, spec/10_state.md section 4). -/
def Obligations.StepNeverChangesRom : Prop :=
  ∀ s t : State,
    step s = .next t →
    t.dev.cart.prg = s.dev.cart.prg ∧ t.dev.cart.header = s.dev.cart.header ∧ t.params = s.params ∧
    (s.dev.cart.header.chr8Count ≠ 0 → t.dev.cart.chr = s.dev.cart.chr)

/-- The sticky flag is set by the fallback and by nothing else, and neither an instruction, an interrupt entry nor a reset
clears it (spec/10_state.md section 3). -/
def Obligations.UnsupportedFlagIsSticky : Prop :=
  ∀ s : State,
    (∀ i t, exec i s = .next t → (t.unsupportedSeen = true ↔ s.unsupportedSeen = true ∨ ∃ op, i = .unsupported op)) ∧
    (enterNmi s).unsupportedSeen = s.unsupportedSeen ∧ (enterIrq s).unsupportedSeen = s.unsupportedSeen ∧
    (hostReset s).unsupportedSeen = s.unsupportedSeen

/-- No rule reads the B field: two states that differ in it alone run every instruction to states that differ in it alone
(spec/10_state.md section 2). -/
def Obligations.BreakFlagIsNeverRead : Prop :=
  ∀ (i : Instr) (s t : State) (b : Bool),
    exec i s = .next t →
    ∃ b', exec i { s with cpu := { s.cpu with p := { s.cpu.p with b := b } } } =
      .next { t with cpu := { t.cpu with p := { t.cpu.p with b := b' } } }

/-- ADC and SBC compute the binary result whatever the D flag holds: A is the binary sum or difference, and with D set to
any value the next state is the same but for D. -/
def Obligations.DecimalFlagHasNoEffect : Prop :=
  ∀ (o : ReadOperand) (s : State) (d : Bool),
    let m := (readOperand o s).value
    let carry := flagBit s.cpu.p.c
    let withD := fun u : State => { u with cpu := { u.cpu with p := { u.cpu.p with d := d } } }
    (∃ t, exec (.adc o) s = .next t ∧ t.cpu.a = BitVec.ofNat 8 (s.cpu.a.toNat + m.toNat + carry) ∧
      exec (.adc o) (withD s) = .next (withD t)) ∧
    ∃ t, exec (.sbc o) s = .next t ∧ t.cpu.a = BitVec.ofInt 8 ((s.cpu.a.toNat : Int) - m.toNat - (1 - carry)) ∧
      exec (.sbc o) (withD s) = .next (withD t)

/-! ## Runs and the invariant -/

/-- Every step keeps the invariant: canonical stores within their sizes, windows that are those of the mapper's registers, a
position inside the frame, at most eight sprites, no DMA pending at a boundary, and the PPU exactly at the boundary's dot. -/
def Obligations.StepKeepsInvariant : Prop :=
  ∀ s t : State, s.Inv → step s = .next t → t.Inv

/-- The state after reset, with the cartridge of log 4 and the contents of logs 5, 6, 10 and 11, meets the invariant. -/
def Obligations.ResetMeetsInvariant : Prop := State.reset.Inv

/-- A run reaches its target and overshoots by less than the largest cost and the DMA that its last step began
(spec/40_interpreter.md section 5). -/
def Obligations.RunReachesTarget : Prop :=
  ∀ (target : Nat) (s : State),
    s.pendingDma = 0 →
    ∃ t, executeUntilCycle target s = .next t ∧ target ≤ t.cycles ∧ (target ≤ s.cycles → t = s) ∧
      (s.cycles < target → t.cycles < target + 7 + 2 * (s.params.oamDmaBase + 1))

/-! ## The CPU bus -/

/-- Reads by address: RAM mirrored four times, the PPU port of the address's low three bits after every dot that precedes the
access, WRAM, the PRG window through its page table and inside the ROM, open bus, and the host's answers at $4015 to $4017; a
plain read changes nothing (spec/20_memory.md section 1, spec/40_interpreter.md section 6). That the host's answers come from
the lists of `host`, and that a callback is recorded, are the model's choices (logs 2 and 17). -/
def Obligations.ReadsAreRouted : Prop :=
  ∀ (a : Word) (stamp : Nat) (s : State),
    (a.toNat < 0x2000 → memRead a stamp s = (s.ram.read (a.toNat % 0x800), s)) ∧
    (0x2000 ≤ a.toNat → a.toNat < 0x4000 →
      let now := 3 * stamp + s.params.ppuPhase.val
      let r := portRead s.params now (a.toNat % 8) (s.dev.syncTo s.params now)
      memRead a stamp s = (r.1, { s with dev := r.2 })) ∧
    (0x6000 ≤ a.toNat → a.toNat < 0x8000 → memRead a stamp s = (s.dev.cart.wram.read (a.toNat - 0x6000), s)) ∧
    (0x8000 ≤ a.toNat →
      let page := s.dev.cart.windows.prg[(a.toNat - 0x8000) / 0x2000]?.getD 0
      memRead a stamp s = (s.dev.cart.prg.read (page * 8192 + a.toNat % 0x2000), s) ∧
      (s.dev.Inv → page < 2 * s.dev.cart.header.prg16Count)) ∧
    ((0x4000 ≤ a.toNat ∧ a.toNat < 0x4015) ∨ (0x4018 ≤ a.toNat ∧ a.toNat < 0x6000) → s.params.openBusAt = [] →
      memRead a stamp s = (BitVec.ofNat 8 (a.toNat / 256), s)) ∧
    (a.toNat = 0x4015 →
      (memRead a stamp s).2 = { s with host := { s.host with
        calls := .apuStatus stamp :: s.host.calls, apuNext := s.host.apuNext.tail } } ∧
      ∀ b rest, s.host.apuNext = b :: rest → (memRead a stamp s).1 = b) ∧
    (a.toNat = 0x4016 →
      (memRead a stamp s).2 = { s with host := { s.host with
        calls := .ctrlRead 1 stamp :: s.host.calls, ctrl1Next := s.host.ctrl1Next.tail } } ∧
      (memRead a stamp s).1.toNat / 2 = 0x20 ∧
      ∀ b rest, s.host.ctrl1Next = b :: rest → (memRead a stamp s).1.getLsbD 0 = b) ∧
    (a.toNat = 0x4017 →
      (memRead a stamp s).2 = { s with host := { s.host with
        calls := .ctrlRead 2 stamp :: s.host.calls, ctrl2Next := s.host.ctrl2Next.tail } } ∧
      (memRead a stamp s).1.toNat / 2 = 0x20 ∧
      ∀ b rest, s.host.ctrl2Next = b :: rest → (memRead a stamp s).1.getLsbD 0 = b)

/-- Writes by address: RAM and WRAM store one byte; a PPU port takes the byte after every dot that precedes the access;
$4018-$5FFF ignores it; the audio and strobe ports tell the host and change no core state; the PRG window writes the mapper's
registers, rebuilds the windows, and leaves every store alone (spec/20_memory.md section 1, spec/40_interpreter.md section 6,
spec/52_mappers.md section 1). That a callback is recorded in `host.calls` is the model's choice (log 17). -/
def Obligations.WritesAreRouted : Prop :=
  ∀ (a : Word) (v : Byte) (stamp : Nat) (s : State),
    (storeAddr a → ∀ b n, plainAddr b →
      (memRead b n (memWrite a v stamp s)).1 = if sameByte a b then v else (memRead b n s).1) ∧
    (0x2000 ≤ a.toNat → a.toNat < 0x4000 →
      let now := 3 * stamp + s.params.ppuPhase.val
      memWrite a v stamp s =
        { s with dev := portWrite s.params now (a.toNat % 8) v (s.dev.syncTo s.params now) }) ∧
    (0x4018 ≤ a.toNat → a.toNat < 0x6000 → memWrite a v stamp s = s) ∧
    (0x4000 ≤ a.toNat → a.toNat < 0x4018 → a.toNat ≠ 0x4014 → ∃ call,
      memWrite a v stamp s = { s with host := { s.host with calls := call :: s.host.calls } } ∧
      call = if a.toNat = 0x4016 then .ctrlStrobe (v.getLsbD 0) stamp else .audioWrite a v stamp) ∧
    (0x8000 ≤ a.toNat →
      let t := memWrite a v stamp s
      t.dev.cart.windows = t.dev.cart.mapper.windows t.dev.cart.header ∧
      t.dev.cart.mapper = (s.devAt stamp).cart.mapper.write s.params a v stamp ∧
      t.dev.cart.prg = s.dev.cart.prg ∧ t.dev.cart.chr = s.dev.cart.chr ∧ t.dev.cart.wram = s.dev.cart.wram ∧
      t.dev.ppu.mem.ciram = s.dev.ppu.mem.ciram ∧ t.dev.ppu.mem.palette = s.dev.ppu.mem.palette ∧
      t.dev.ppu.mem.oam = s.dev.ppu.mem.oam ∧ t.ram = s.ram ∧ t.cpu = s.cpu)

/-- OAM DMA from RAM, WRAM or PRG: 256 bytes of the page land in OAM from oamaddr on, wrapping; oamaddr ends as it was; one
more steal is pending; RAM is not touched (spec/50_ppu_registers.md section 9). -/
def Obligations.OamDmaCopiesPage : Prop :=
  ∀ (page : Byte) (stamp : Nat) (s : State),
    page.toNat < 0x20 ∨ 0x60 ≤ page.toNat →
    let t := memWrite 0x4014 page stamp s
    let start := (s.devAt stamp).ppu.regs.oamaddr
    (∀ i : Byte, t.dev.ppu.mem.oam.read (start + i).toNat = (memRead (joinBytes page i) stamp s).1) ∧
    t.dev.ppu.regs.oamaddr = start ∧ t.pendingDma = s.pendingDma + 1 ∧ t.ram = s.ram ∧ t.cpu = s.cpu ∧
    t.cycles = s.cycles

/-! ## The PPU's ports -/

/-- A read of $2002: the status byte, and vblank and w cleared; sprite-0 hit, overflow and all else are kept. -/
def Obligations.StatusReadClearsVblankAndLatch : Prop :=
  ∀ (p : Params) (now : Nat) (d : Devices),
    let r := d.ppu.regs
    let value : Byte := BitVec.ofNat 8
      (128 * flagBit r.vblank + 64 * flagBit r.sprite0Hit + 32 * flagBit r.spriteOverflow + r.ioLatch.toNat % 32)
    portRead p now 2 d = (value, d.withRegs { r with vblank := false, w := false, ioLatch := value }) ∧
    (portRead p now 2 (portRead p now 2 d).2).1.toNat / 128 = 0

/-- Writes of $2005 and $2006, field by field: coarse X and fine X, then coarse Y and fine Y; the high six bits of t, then
its low byte and v from t, which the mapper observes. The two ports share the latch w. -/
def Obligations.ScrollAndAddressWrites : Prop :=
  ∀ (p : Params) (now : Nat) (v : Byte) (d : Devices),
    let r := { d.ppu.regs with ioLatch := v }
    let n := v.toNat
    let t := r.t.toNat
    (r.w = false →
      portWrite p now 5 v d = d.withRegs { r with
        t := BitVec.ofNat 15 (t / 32 * 32 + n / 8), x := BitVec.ofNat 3 (n % 8), w := true } ∧
      portWrite p now 6 v d = d.withRegs { r with t := BitVec.ofNat 15 (n % 64 * 256 + t % 256), w := true }) ∧
    (r.w = true →
      portWrite p now 5 v d = d.withRegs { r with
        t := BitVec.ofNat 15 (n % 8 * 4096 + t / 1024 % 4 * 1024 + n / 8 * 32 + t % 32), w := false } ∧
      let full : VramAddr := BitVec.ofNat 15 (t / 256 * 256 + n)
      portWrite p now 6 v d =
        (d.withRegs { r with t := full, v := full, w := false }).observe p (BitVec.ofNat 14 (full.toNat % 0x4000)) now)

/-- $2007: reads below the palette give the buffer and refill it from the address; palette reads are direct, with the latch's
top two bits, and fill the buffer from $1000 below; a write goes to the address; v moves by 1 or 32 modulo 2^15, and the
mapper observes the address before and after. -/
def Obligations.DataPortIsBuffered : Prop :=
  ∀ (p : Params) (now : Nat) (v : Byte) (d : Devices),
    let a : PpuAddr := BitVec.ofNat 14 (d.ppu.regs.v.toNat % 0x4000)
    let inc := if d.ppu.regs.ctrl.getLsbD 2 then 32 else 1
    let v' : VramAddr := BitVec.ofNat 15 ((d.ppu.regs.v.toNat + inc) % 0x8000)
    let a' : PpuAddr := BitVec.ofNat 14 (v'.toNat % 0x4000)
    let seen := d.observe p a now
    let moved := fun (e : Devices) => (e.withRegs { e.ppu.regs with v := v' }).observe p a' now
    let latched := fun (e : Devices) (b : Byte) => e.withRegs { e.ppu.regs with ioLatch := b }
    let filled := fun (e : Devices) (b : Byte) => e.withRegs { e.ppu.regs with readBuffer := b }
    (a.toNat < 0x3F00 → portRead p now 7 d =
      (d.ppu.regs.readBuffer, moved (latched (filled seen (seen.ppuRead a)) d.ppu.regs.readBuffer))) ∧
    (0x3F00 ≤ a.toNat →
      let value : Byte := BitVec.ofNat 8 (d.ppu.regs.ioLatch.toNat / 64 * 64 + (readPalette d.ppu.mem (palIndex a)).toNat)
      portRead p now 7 d = (value, moved (latched (filled seen (seen.ppuRead (a - 0x1000))) value))) ∧
    portWrite p now 7 v d = moved (((latched d v).observe p a now).ppuWrite a v)

/-- The other ports: $2000 and $2001 store the byte, $2000 its low bits in t too; $2003 and $2004; the write-only ports read
as the latch; every write sets the latch, and $2002 takes nothing else. -/
def Obligations.ControlAndOamPorts : Prop :=
  ∀ (p : Params) (now : Nat) (v : Byte) (d : Devices),
    let r := { d.ppu.regs with ioLatch := v }
    let raw := d.ppu.mem.oam.read d.ppu.regs.oamaddr.toNat
    let masked : Byte := if d.ppu.regs.oamaddr.toNat % 4 = 2 then raw &&& 0xE3 else raw
    let late := p.nmiOnLateEnable && !r.ctrl.getLsbD 7 && v.getLsbD 7 && r.vblank
    (let t' : VramAddr := BitVec.ofNat 15 (r.t.toNat / 4096 * 4096 + v.toNat % 4 * 1024 + r.t.toNat % 1024)
     portWrite p now 0 v d = { d.withRegs { r with ctrl := v, t := t' } with nmiPending := d.nmiPending || late }) ∧
    portWrite p now 1 v d = d.withRegs { r with mask := v } ∧
    portWrite p now 2 v d = d.withRegs r ∧
    portWrite p now 3 v d = d.withRegs { r with oamaddr := v } ∧
    portWrite p now 4 v d = (d.writeOam r.oamaddr v).withRegs { r with oamaddr := r.oamaddr + 1 } ∧
    portRead p now 4 d = (masked, d.withRegs { d.ppu.regs with ioLatch := masked }) ∧
    ∀ port, port = 0 ∨ port = 1 ∨ port = 3 ∨ port = 5 ∨ port = 6 → portRead p now port d = (d.ppu.regs.ioLatch, d)

/-! ## The PPU's time -/

/-- The position is (0, 0), even, at dot clock 0 at power-on and at reset; and with rendering disabled it is
(n div 341 mod 262, n mod 341) after n dots. -/
def Obligations.PositionWithRenderingOff : Prop :=
  let start : PpuTime := { scanline := 0, dot := 0, oddFrame := false, dotClock := 0, frameReady := false }
  (∀ c axy fill p h, (beforePowerOn c axy fill p h).dev.ppu.time = start) ∧ (∀ d : Devices, d.reset.ppu.time = start) ∧
  ∀ (p : Params) (d : Devices) (n : Nat),
    d.ppu.regs.rendering = false → d.ppu.time.scanline = 0 → d.ppu.time.dot = 0 → d.ppu.time.dotClock = 0 →
    (runDots p n d).ppu.time.scanline = n / 341 % 262 ∧ (runDots p n d).ppu.time.dot = n % 341 ∧
    (runDots p n d).ppu.time.dotClock = n

/-- From one frame end to the next there are 89342 dots, or 89341 when rendering is enabled and the frame is odd, and the
frame's parity toggles (spec/51_ppu_timing_rendering.md section 1). -/
def Obligations.FrameLength : Prop :=
  ∀ (p : Params) (d : Devices),
    d.ppu.time.scanline = 240 → d.ppu.time.dot = 0 →
    let n := if d.ppu.regs.rendering && d.ppu.time.oddFrame then 89341 else 89342
    (runDots p n d).ppu.time.scanline = 240 ∧ (runDots p n d).ppu.time.dot = 0 ∧
    (runDots p n d).ppu.time.oddFrame = !d.ppu.time.oddFrame

/-- Vblank entry at (241, 1) sets the flag, and the NMI latch when ctrl[7] is 1; vblank exit at (261, 1) clears the three
status flags; no other dot sets vblank, clears a flag, or touches the NMI latch. -/
def Obligations.VblankFlagsAndNmi : Prop :=
  ∀ (p : Params) (d : Devices),
    let e := ppuDot p d
    let entry := d.ppu.time.scanline = 241 ∧ d.ppu.time.dot = 1
    let leave := d.ppu.time.scanline = 261 ∧ d.ppu.time.dot = 1
    (entry → e.ppu.regs.vblank = true ∧ e.nmiPending = (d.nmiPending || d.ppu.regs.ctrl.getLsbD 7)) ∧
    (leave → e.ppu.regs.vblank = false ∧ e.ppu.regs.sprite0Hit = false ∧ e.ppu.regs.spriteOverflow = false) ∧
    (¬entry → ¬leave → e.ppu.regs.vblank = d.ppu.regs.vblank) ∧
    (¬entry → e.nmiPending = d.nmiPending) ∧
    (¬leave → (d.ppu.regs.sprite0Hit = true → e.ppu.regs.sprite0Hit = true) ∧
      (d.ppu.regs.spriteOverflow = true → e.ppu.regs.spriteOverflow = true))

/-- Whatever a run of dots does, it changes no memory but the picture and secondary OAM, no bank window, and none of the port
registers ctrl, mask, t, x, w, the read buffer and the latch. Dots of rendering lines do change v and oamaddr while rendering is
enabled; with rendering disabled v and the mapper's registers are kept too (spec/51_ppu_timing_rendering.md section 3). -/
def Obligations.DotsKeepMemoriesAndCpuRegisters : Prop :=
  ∀ (p : Params) (n : Nat) (d : Devices),
    let e := runDots p n d
    e.cart.header = d.cart.header ∧ e.cart.prg = d.cart.prg ∧ e.cart.chr = d.cart.chr ∧ e.cart.wram = d.cart.wram ∧
    e.cart.windows = d.cart.windows ∧ e.ppu.mem.ciram = d.ppu.mem.ciram ∧ e.ppu.mem.palette = d.ppu.mem.palette ∧
    e.ppu.mem.oam = d.ppu.mem.oam ∧ e.ppu.regs.ctrl = d.ppu.regs.ctrl ∧ e.ppu.regs.mask = d.ppu.regs.mask ∧
    e.ppu.regs.t = d.ppu.regs.t ∧ e.ppu.regs.x = d.ppu.regs.x ∧ e.ppu.regs.w = d.ppu.regs.w ∧
    e.ppu.regs.readBuffer = d.ppu.regs.readBuffer ∧ e.ppu.regs.ioLatch = d.ppu.regs.ioLatch ∧
    (d.ppu.regs.rendering = false → e.ppu.regs.v = d.ppu.regs.v ∧ e.cart.mapper = d.cart.mapper)

/-- Evaluation finds the first eight sprites in range, in OAM order, and never more; the slots beyond them are filled with $FF.
The overflow flag is set only after eight were found, and it is set when the entry after the eighth is in range; in full, with
the drifting byte index: when byte k mod 4 of the entry k + 1 after the eighth is in range as a Y, for some k
(spec/51_ppu_timing_rendering.md section 5). -/
def Obligations.SpriteEvaluationFindsFirstEight : Prop :=
  ∀ (line : Nat) (d : Devices),
    let oam := d.ppu.mem.oam
    let hit := fun n : Nat => inRange line (oam.read (4 * n)) (if d.ppu.regs.ctrl.getLsbD 5 then 16 else 8)
    let found : List Nat := ((List.range 64).filter fun n => hit n).take 8
    let e := spriteEvaluation line d
    e.ppu.spr.count = found.length ∧ e.ppu.spr.count ≤ 8 ∧
    (∀ j n : Nat, found[j]? = some n → e.ppu.mem.oam2[j]? = some (oamEntry oam n)) ∧
    (∀ j : Nat, found.length ≤ j → j < 8 →
      e.ppu.mem.oam2[j]? = some { y := 0xFF, tile := 0xFF, attr := 0xFF, x := 0xFF }) ∧
    (e.ppu.spr.zeroNext = true ↔ hit 0 = true) ∧
    (found.length < 8 → e.ppu.regs.spriteOverflow = d.ppu.regs.spriteOverflow) ∧
    (∀ n : Nat, found.length = 8 → found[7]? = some n → n < 63 → hit (n + 1) = true → e.ppu.regs.spriteOverflow = true) ∧
    (∀ n : Nat, found.length = 8 → found[7]? = some n →
      (e.ppu.regs.spriteOverflow = true ↔ d.ppu.regs.spriteOverflow = true ∨
        ∃ k : Nat, n + 1 + k < 64 ∧
          inRange line (oam.read (4 * (n + 1 + k) + k % 4)) (if d.ppu.regs.ctrl.getLsbD 5 then 16 else 8) = true))

/-- The increments of v on its fields: coarse X counts modulo 32 and switches the horizontal nametable where it wraps; fine Y
counts modulo 8 and carries into coarse Y, which goes from 29 to 0 with a switch of the vertical nametable and from 31 to 0
without one. -/
def Obligations.ScrollIncrements : Prop :=
  ∀ v : VramAddr,
    let cx := v.toNat % 32
    let cy := v.toNat / 32 % 32
    let h := v.toNat / 1024 % 2
    let vert := v.toNat / 2048 % 2
    let fy := v.toNat / 4096
    (coarseXInc v).toNat =
      (cx + 1) % 32 + 32 * cy + 1024 * (if cx = 31 then 1 - h else h) + 2048 * vert + 4096 * fy ∧
    (fineYInc v).toNat =
      if fy < 7 then v.toNat + 4096
      else
        cx + 32 * (if cy = 29 ∨ cy = 31 then 0 else cy + 1) + 1024 * h + 2048 * (if cy = 29 then 1 - vert else vert)

/-- The picture's value: the palette index by priority of an opaque background and an opaque sprite pixel, and the colour,
masked to its grey column when mask[0] is 1, with the emphasis bits above it. -/
def Obligations.PixelPriorityAndValue : Prop :=
  (∀ (bgP bgPal p : BitVec 2) (u : SprUnit),
    pixelIndex 0 bgPal none = 0 ∧
    (p ≠ 0 → (pixelIndex 0 bgPal (some (u, p))).toNat = 16 + 4 * (u.attr.toNat % 4) + p.toNat) ∧
    (bgP ≠ 0 → (pixelIndex bgP bgPal none).toNat = 4 * bgPal.toNat + bgP.toNat) ∧
    (bgP ≠ 0 → p ≠ 0 → (pixelIndex bgP bgPal (some (u, p))).toNat =
      if u.attr.getLsbD 5 then 4 * bgPal.toNat + bgP.toNat else 16 + 4 * (u.attr.toNat % 4) + p.toNat)) ∧
  ∀ (mask : Byte) (c : BitVec 6),
    (pixelValue mask c).toNat = mask.toNat / 32 * 64 + (if mask.toNat % 2 = 1 then c.toNat / 16 % 4 * 16 else c.toNat)

/-! ## The cartridge -/

/-- Bank numbers wrap in the bank's own size and never leave the ROM: page j of bank b of k pages; every window of every
variant holds a page of its store; and, variant by variant, which register chooses which window's page
(spec/52_mappers.md sections 2 to 7; mapper 0 by R1010, log 27). -/
def Obligations.BankNumbersAndWindows : Prop :=
  (∀ (h : Header) (b k j : Nat),
    h.prgBank b k j = ((b % max 1 (2 * h.prg16Count / k)) * k + j) % (2 * h.prg16Count) ∧
    h.chrBank b k j = ((b % max 1 (8 * max h.chr8Count 1 / k)) * k + j) % (8 * max h.chr8Count 1)) ∧
  (∀ (m : Mapper) (h : Header),
    (1 ≤ h.prg16Count → ∀ i : Fin 4, (m.windows h).prg[i] < 2 * h.prg16Count) ∧
    (∀ i : Fin 8, (m.windows h).chr[i] < 8 * max h.chr8Count 1)) ∧
  ∀ h : Header,
    let p8 := 2 * h.prg16Count
    let last16 := fun j : Nat => h.prgBank (p8 / 2 - 1) 2 j
    let screen := fun m : Mirroring => if h.fourScreen then Mirroring.fourScreen else m
    let vertical := fun bit : Bool => screen (if bit then .horizontal else .vertical)
    (let w := Mapper.nrom.windows h
     (∀ i : Fin 4, w.prg[i] = i.val % p8) ∧ (∀ i : Fin 8, w.chr[i] = i.val % (8 * max h.chr8Count 1)) ∧
     w.mirroring = vertical (h.headerMirroring = .horizontal)) ∧
    (∀ m : Mmc1,
      let w := (Mapper.mmc1 m).windows h
      let pb := m.prg.toNat % 16
      let mode := m.control.toNat / 4 % 4
      (∀ i : Fin 4, w.prg[i] =
        if mode < 2 then h.prgBank (pb / 2) 4 i.val
        else if mode = 2 then (if i.val < 2 then h.prgBank 0 2 i.val else h.prgBank pb 2 (i.val - 2))
        else (if i.val < 2 then h.prgBank pb 2 i.val else last16 (i.val - 2))) ∧
      (∀ i : Fin 8, w.chr[i] =
        if m.control.toNat / 16 = 0 then h.chrBank (m.chr0.toNat / 2) 8 i.val
        else h.chrBank (if i.val < 4 then m.chr0 else m.chr1).toNat 4 (i.val % 4)) ∧
      w.mirroring = screen (match m.control.toNat % 4 with
        | 0 => .singleLower
        | 1 => .singleUpper
        | 2 => .vertical
        | _ => .horizontal)) ∧
    (∀ m : Mmc3,
      let w := (Mapper.mmc3 m).windows h
      let r := fun n : Fin 8 => h.prgBank m.bank[n].toNat 1 0
      let c2 := fun (n : Fin 8) (j : Nat) => h.chrBank (m.bank[n].toNat / 2) 2 j
      let c1 := fun n : Fin 8 => h.chrBank m.bank[n].toNat 1 0
      w.prg = (if m.bankSelect.toNat / 64 % 2 = 0 then #v[r 6, r 7, (p8 - 2) % p8, p8 - 1]
        else #v[(p8 - 2) % p8, r 7, r 6, p8 - 1]) ∧
      w.chr = (if m.bankSelect.toNat / 128 = 0 then #v[c2 0 0, c2 0 1, c2 1 0, c2 1 1, c1 2, c1 3, c1 4, c1 5]
        else #v[c1 2, c1 3, c1 4, c1 5, c2 0 0, c2 0 1, c2 1 0, c2 1 1]) ∧
      w.mirroring = vertical m.mirror) ∧
    (∀ m : Vrc1,
      let w := (Mapper.vrc1 m).windows h
      w.prg = #v[h.prgBank m.prg0.toNat 1 0, h.prgBank m.prg1.toNat 1 0, h.prgBank m.prg2.toNat 1 0, p8 - 1] ∧
      (∀ i : Fin 8, w.chr[i] = h.chrBank (if i.val < 4 then m.chr0 else m.chr1).toNat 4 (i.val % 4)) ∧
      w.mirroring = vertical m.mirror) ∧
    (∀ m : Vrc2b,
      let w := (Mapper.vrc2b m).windows h
      w.prg = #v[h.prgBank m.prg0.toNat 1 0, h.prgBank m.prg1.toNat 1 0, (p8 - 2) % p8, p8 - 1] ∧
      (∀ i : Fin 8, w.chr[i] = h.chrBank m.chr[i].toNat 1 0) ∧
      w.mirroring = vertical m.mirror) ∧
    ∀ m : Sunsoft4,
      let w := (Mapper.sunsoft4 m).windows h
      w.prg = #v[h.prgBank m.prg.toNat 2 0, h.prgBank m.prg.toNat 2 1, last16 0, last16 1] ∧
      (∀ (i : Fin 4) (j : Fin 2), w.chr[2 * i.val + j.val]? = some (h.chrBank m.chr[i].toNat 2 j.val)) ∧
      w.mirroring = screen (match m.ctl.toNat % 4 with
        | 0 => .vertical
        | 1 => .horizontal
        | 2 => .singleLower
        | _ => .singleUpper)

/-- Register writes of the cartridge. MMC1: "The register is chosen by the address of the fifth write": five writes with bit 7 clear, none right after another,
load the register of the last one's address with their five low bits, first bit lowest, and no other register; a write with
bit 7 set empties the shift register and, by default, no more; a write on the cycle after another is ignored. MMC3, VRC1, VRC2b
and mapper 68: what a write to each address of the PRG window stores in which register, every other register being as it was.
Mapper 0: nothing (spec/52_mappers.md sections 2 to 7). -/
def Obligations.MapperRegisterWrites : Prop :=
  (∀ (p : Params) (m : Mmc1) (a1 a2 a3 a4 a5 : Word) (v1 v2 v3 v4 v5 : Byte) (t1 t2 t3 t4 t5 : Nat),
    let bit := fun v : Byte => v.toNat % 2
    let value : BitVec 5 := BitVec.ofNat 5 (bit v1 + 2 * bit v2 + 4 * bit v3 + 8 * bit v4 + 16 * bit v5)
    let last := ((((m.write p a1 v1 t1).write p a2 v2 t2).write p a3 v3 t3).write p a4 v4 t4).write p a5 v5 t5
    let emptied := { m with shift := 0, count := 0, lastWriteCycle := some t5 }
    (m.shift = 0 → m.count = 0 → (∀ c, m.lastWriteCycle = some c → t1 ≠ c + 1) →
      t2 ≠ t1 + 1 → t3 ≠ t2 + 1 → t4 ≠ t3 + 1 → t5 ≠ t4 + 1 →
      v1.toNat < 128 → v2.toNat < 128 → v3.toNat < 128 → v4.toNat < 128 → v5.toNat < 128 →
      last = match a5.toNat / 0x2000 % 4 with
        | 0 => { emptied with control := value }
        | 1 => { emptied with chr0 := value }
        | 2 => { emptied with chr1 := value }
        | _ => { emptied with prg := value }) ∧
    (128 ≤ v5.toNat → (∀ c, m.lastWriteCycle = some c → t5 ≠ c + 1) → p.mmc1ResetForcesPrgMode3 = false →
      m.write p a5 v5 t5 = emptied) ∧
    (p.mmc1IgnoreConsecutive = true → m.lastWriteCycle = some t1 →
      m.write p a5 v5 (t1 + 1) = { m with lastWriteCycle := some (t1 + 1) })) ∧
  ∀ (a : Word) (v : Byte), 0x8000 ≤ a.toNat →
    let n := v.toNat
    (∀ m : Mmc3, m.write a v =
      match a.toNat / 0x2000 % 4, a.toNat % 2 with
      | 0, 0 => { m with bankSelect := v }
      | 0, _ => { m with bank := Vector.ofFn fun i => if i.val = m.bankSelect.toNat % 8 then v else m.bank[i] }
      | 1, 0 => { m with mirror := decide (n % 2 = 1) }
      | 1, _ => m
      | 2, 0 => { m with irqLatch := v }
      | 2, _ => { m with irqCounter := 0, irqReload := true }
      | _, 0 => { m with irqEnable := false, irqPending := false }
      | _, _ => { m with irqEnable := true }) ∧
    (∀ m : Vrc1, m.write a v =
      match a.toNat / 0x1000 with
      | 8 => { m with prg0 := BitVec.ofNat 4 (n % 16) }
      | 9 => { m with
          mirror := decide (n % 2 = 1)
          chr0 := BitVec.ofNat 5 (16 * (n / 2 % 2) + m.chr0.toNat % 16)
          chr1 := BitVec.ofNat 5 (16 * (n / 4 % 2) + m.chr1.toNat % 16) }
      | 10 => { m with prg1 := BitVec.ofNat 4 (n % 16) }
      | 12 => { m with prg2 := BitVec.ofNat 4 (n % 16) }
      | 14 => { m with chr0 := BitVec.ofNat 5 (m.chr0.toNat / 16 * 16 + n % 16) }
      | 15 => { m with chr1 := BitVec.ofNat 5 (m.chr1.toNat / 16 * 16 + n % 16) }
      | _ => m) ∧
    (∀ m : Vrc2b, m.write a v =
      let page := a.toNat / 0x1000
      if page = 8 then { m with prg0 := BitVec.ofNat 5 (n % 32) }
      else if page = 9 then { m with mirror := decide (n % 2 = 1) }
      else if page = 10 then { m with prg1 := BitVec.ofNat 5 (n % 32) }
      else if page = 15 then m
      else { m with chr := Vector.ofFn fun i =>
          let old := m.chr[i].toNat
          if i.val ≠ 2 * (page - 11) + a.toNat / 2 % 2 then m.chr[i]
          else BitVec.ofNat 8 (if a.toNat % 2 = 0 then old / 16 * 16 + n % 16 else n % 16 * 16 + old % 16) }) ∧
    (∀ m : Sunsoft4, m.write a v =
      let page := a.toNat / 0x1000
      if page < 12 then { m with chr := Vector.ofFn fun i => if i.val = page - 8 then v else m.chr[i] }
      else if page = 12 then { m with nt0 := BitVec.ofNat 7 (n % 128) }
      else if page = 13 then { m with nt1 := BitVec.ofNat 7 (n % 128) }
      else if page = 14 then { m with ctl := v }
      else { m with prg := BitVec.ofNat 4 (n % 16) }) ∧
    ∀ (p : Params) (t : Nat),
      Mapper.write p .nrom a v t = .nrom ∧
      (∀ m, Mapper.write p (.mmc1 m) a v t = .mmc1 (m.write p a v t)) ∧
      (∀ m, Mapper.write p (.mmc3 m) a v t = .mmc3 (m.write a v)) ∧
      (∀ m, Mapper.write p (.vrc1 m) a v t = .vrc1 (m.write a v)) ∧
      (∀ m, Mapper.write p (.vrc2b m) a v t = .vrc2b (m.write a v)) ∧
      ∀ m, Mapper.write p (.sunsoft4 m) a v t = .sunsoft4 (m.write a v)

/-- "Feeding exactly r+1 PPU line-12 rising edges raises exactly one IRQ": after $C000 <- r, $C001 and $E001, in both
revisions, the IRQ becomes pending at edge r + 1 and not before; only a write selecting $E000 clears it. An edge is an observed
address with bit 12 set, after one with it clear, when it has been clear since at least A12_FILTER_DOTS before; the observer
keeps the level and the time it fell, and no other variant observes anything or has an IRQ (spec/52_mappers.md sections 1
and 4; log 22 on the derived count of edges in a line). -/
def Obligations.Mmc3CountsRPlusOneEdges : Prop :=
  (∀ (p : Params) (m : Mmc3) (r v w : Byte),
    m.irqPending = false →
    let start := ((m.write 0xC000 r).write 0xC001 v).write 0xE001 w
    (∀ k, k ≤ r.toNat → ((Mmc3.clockCounter p)^[k] start).irqPending = false) ∧
    ((Mmc3.clockCounter p)^[r.toNat + 1] start).irqPending = true) ∧
  (∀ (p : Params) (m : Mmc3), m.irqPending = true → (m.clockCounter p).irqPending = true) ∧
  (∀ (m : Mmc3) (a : Word) (v : Byte),
    (m.write a v).irqPending = (m.irqPending && decide (a &&& 0xE001 ≠ 0xE000))) ∧
  (∀ (p : Params) (m : Mmc3) (a : PpuAddr) (t : Nat),
    let long := m.a12LowSince + p.a12FilterDots ≤ t
    (a.toNat / 0x1000 % 2 = 1 → m.a12Prev = false → long → m.observe p a t = { m.clockCounter p with a12Prev := true }) ∧
    (a.toNat / 0x1000 % 2 = 1 → (m.a12Prev = true ∨ ¬long) → m.observe p a t = { m with a12Prev := true }) ∧
    (a.toNat / 0x1000 % 2 = 0 → m.a12Prev = true → m.observe p a t = { m with a12LowSince := t, a12Prev := false }) ∧
    (a.toNat / 0x1000 % 2 = 0 → m.a12Prev = false → m.observe p a t = m)) ∧
  ∀ (p : Params) (m : Mapper) (a : PpuAddr) (t : Nat),
    (∀ k, m = .mmc3 k → m.observe p a t = .mmc3 (k.observe p a t) ∧ m.irq = k.irqPending) ∧
    ((∀ k, m ≠ .mmc3 k) → m.observe p a t = m ∧ m.irq = false)

/-- The PPU's address space: nametable mirroring as a table from logical to physical, the palette index with the four mirrored
entries, and where a read or write of each address goes: a 1 KB CHR window (a write only when it is CHR-RAM), CIRAM through the
mirroring, or a six-bit palette entry (spec/20_memory.md section 3). -/
def Obligations.PpuAddressSpace : Prop :=
  (∀ (m : Mirroring) (a : PpuAddr), 0x2000 ≤ a.toNat → a.toNat < 0x3F00 →
    let n := (a.toNat - 0x2000) % 0x1000
    let table : List Nat := match m with
      | .horizontal => [0, 0, 1, 1]
      | .vertical => [0, 1, 0, 1]
      | .singleLower => [0, 0, 0, 0]
      | .singleUpper => [1, 1, 1, 1]
      | .fourScreen => [0, 1, 2, 3]
    ∃ q, table[n / 1024]? = some q ∧ m.ntIndex a = q * 1024 + n % 1024) ∧
  (∀ a : PpuAddr, palIndex a =
    let i := a.toNat % 32
    if i = 16 ∨ i = 20 ∨ i = 24 ∨ i = 28 then i - 16 else i) ∧
  (∀ (m : PpuMem) (i : Nat), (readPalette m i).toNat < 64) ∧
  ∀ (d : Devices) (a : PpuAddr) (v : Byte),
    let page := d.cart.windows.chr[a.toNat / 1024]?.getD 0
    let chr := page * 1024 + a.toNat % 1024
    let nt := d.cart.windows.mirroring.ntIndex a
    (a.toNat < 0x2000 →
      d.ppuRead a = d.cart.chr.read chr ∧
      (d.cart.header.chr8Count = 0 → d.ppuWrite a v = { d with cart := { d.cart with chr := d.cart.chr.write chr v } }) ∧
      (d.cart.header.chr8Count ≠ 0 → d.ppuWrite a v = d) ∧
      (d.Inv → page < 8 * max d.cart.header.chr8Count 1)) ∧
    (0x2000 ≤ a.toNat → a.toNat < 0x3F00 →
      d.ppuRead a = d.ppu.mem.ciram.read nt ∧
      d.ppuWrite a v = { d with ppu := { d.ppu with mem := { d.ppu.mem with ciram := d.ppu.mem.ciram.write nt v } } }) ∧
    (0x3F00 ≤ a.toNat →
      (d.ppuRead a).toNat = (readPalette d.ppu.mem (palIndex a)).toNat ∧
      d.ppuWrite a v = { d with ppu := { d.ppu with
        mem := writePalette d.ppu.mem (palIndex a) (BitVec.ofNat 6 (v.toNat % 64)) } })

/-! ## Reset -/

/-- The reset sequence: S three lower, I set, PC the word at $FFFC through the windows of the mapper's reset registers, 7
cycles and the dots before them; A, X, Y, the other flags, the sticky flag and every memory but secondary OAM and the
picture keep their contents (spec/10_state.md section 8, spec/70_reset_and_hazards.md section 1). -/
def Obligations.ResetSequenceEffects : Prop :=
  ∀ s : State,
    let t := hostReset s
    let cart := s.dev.cart.reset
    t.cpu = { s.cpu with
      s := s.cpu.s - 3
      p := { s.cpu.p with i := true }
      pc := BitVec.ofNat 16 (256 * (cart.readPrg 0xFFFD).toNat + (cart.readPrg 0xFFFC).toNat) } ∧
    t.cycles = 7 ∧ t.pendingDma = 0 ∧ t.dev.nmiPending = false ∧ t.unsupportedSeen = s.unsupportedSeen ∧
    t.ram = s.ram ∧ t.dev.cart.wram = s.dev.cart.wram ∧ t.dev.cart.prg = s.dev.cart.prg ∧
    t.dev.cart.chr = s.dev.cart.chr ∧ t.dev.ppu.mem.ciram = s.dev.ppu.mem.ciram ∧
    t.dev.ppu.mem.palette = s.dev.ppu.mem.palette ∧ t.dev.ppu.mem.oam = s.dev.ppu.mem.oam ∧
    t.dev.cart.mapper = s.dev.cart.mapper.atReset s.dev.cart.header ∧
    t.dev.cart.windows = t.dev.cart.mapper.windows t.dev.cart.header ∧
    t.dev.ppu.regs = PpuRegs.atReset ∧
    t.dev.ppu.time = { scanline := 0, dot := 21 + s.params.ppuPhase.val, oddFrame := false,
                       dotClock := 21 + s.params.ppuPhase.val, frameReady := false }
end

