-- ==== Sys2Proof/Laws/Decode.lean ====
section
/-! SUPPORT. The decoder by rows: what each shape of row makes of the bytes after its opcode. -/

namespace Sys2Proof

theorem decode_one {op : Byte} {i : Instr} (h : opRow op = .one i) (rest : List Byte) :
    decode (op :: rest) = .ok (i, rest) := by simp [decode, h]

theorem decode_two {op : Byte} {f : Byte → Instr} (h : opRow op = .two f) (b1 : Byte) (rest : List Byte) :
    decode (op :: b1 :: rest) = .ok (f b1, rest) := by simp [decode, h]

theorem decode_three {op : Byte} {f : Word → Instr} (h : opRow op = .three f) (b1 b2 : Byte) (rest : List Byte) :
    decode (op :: b1 :: b2 :: rest) = .ok (f (joinBytes b2 b1), rest) := by simp [decode, h]

theorem decode_two_short {op : Byte} {f : Byte → Instr} (h : opRow op = .two f) :
    decode [op] = .error (.missingOperand op) := by simp [decode, h]

theorem decode_three_short {op : Byte} {f : Word → Instr} (h : opRow op = .three f) :
    decode [op] = .error (.missingOperand op) ∧ ∀ b : Byte, decode [op, b] = .error (.missingOperand op) := by
  simp [decode, h]

/-- Three bytes are enough for any opcode, and the decoder then assembles its row. -/
theorem decode_assemble (op b1 b2 : Byte) (rest : List Byte) :
    decode (op :: b1 :: b2 :: rest) =
      .ok ((opRow op).assemble b1 b2, (op :: b1 :: b2 :: rest).drop (1 + (opRow op).operands)) := by
  cases h : opRow op with
  | one i => rw [decode_one h]; rfl
  | two f => rw [decode_two h]; rfl
  | three f => rw [decode_three h]; rfl

end Sys2Proof
end

