-- ==== Sys2Proof/Laws/Memory.lean ====
section
/-! SUPPORT. The laws of the sparse store: read after write, and every operation keeps the canonical form. -/

namespace Sys2Proof.Machine

variable {α : Type}

/-! ## Reads -/

theorem Store.read_erase (d : α) (m : Store α) (a b : Nat) :
    Store.read d (m.erase a) b = if a = b then d else Store.read d m b := by
  induction m with
  | nil => simp [Store.erase, Store.read]
  | cons e m ih => obtain ⟨k, v⟩ := e; simp only [Store.erase, Store.read]; grind [Store.read]

theorem Store.mem_erase {m : Store α} {a : Nat} {e : Nat × α} : e ∈ m.erase a ↔ e ∈ m ∧ e.1 ≠ a := by
  induction m with
  | nil => simp [Store.erase]
  | cons f m ih => obtain ⟨k, v⟩ := f; simp only [Store.erase]; grind

theorem Store.mem_insert {m : Store α} {a : Nat} {v : α} {e : Nat × α} :
    e ∈ m.insert a v ↔ e = (a, v) ∨ e ∈ m := by
  induction m with
  | nil => simp [Store.insert]
  | cons f m ih => obtain ⟨k, x⟩ := f; simp only [Store.insert]; grind

theorem Store.read_insert (d : α) (m : Store α) (a b : Nat) (v : α) (h : ∀ e ∈ m, e.1 ≠ a) :
    Store.read d (m.insert a v) b = if a = b then v else Store.read d m b := by
  induction m with
  | nil => simp [Store.insert, Store.read]
  | cons e m ih =>
    obtain ⟨k, x⟩ := e
    have := ih fun e he => h e (List.mem_cons_of_mem _ he)
    have := h (k, x) (by simp)
    simp only [Store.insert]; grind [Store.read]

/-- Read after write: the written index gives the written value, every other index what it gave before. -/
theorem Store.read_write [DecidableEq α] (d : α) (m : Store α) (a b : Nat) (v : α) :
    Store.read d (Store.write d m a v) b = if a = b then v else Store.read d m b := by
  unfold Store.write
  split
  · subst_vars; exact Store.read_erase ..
  · rw [Store.read_insert _ _ _ _ _ fun e he => (Store.mem_erase.1 he).2, Store.read_erase]; grind

theorem Store.read_of_not_mem (d : α) (m : Store α) (a : Nat) (h : ∀ e ∈ m, e.1 ≠ a) : Store.read d m a = d := by
  induction m with
  | nil => rfl
  | cons e m ih =>
    obtain ⟨k, x⟩ := e
    have := h (k, x) (by simp)
    simp [Store.read, this, ih fun e he => h e (List.mem_cons_of_mem _ he)]

theorem Store.read_ofList [DecidableEq α] (d : α) (l : List α) (i a : Nat) :
    Store.read d (Store.ofList d i l) a = if i ≤ a then l.getD (a - i) d else d := by
  induction l generalizing i with
  | nil => simp [Store.ofList, Store.read]
  | cons v l ih =>
    simp only [Store.ofList]
    rcases Nat.lt_trichotomy a i with h | h | h
    · have hi : ¬ i ≤ a := by omega
      have hi' : ¬ i + 1 ≤ a := by omega
      split <;> simp [Store.read, ih, hi', Nat.ne_of_gt h]
    · subst h
      split <;> simp_all [Store.read]
    · obtain ⟨n, rfl⟩ : ∃ n, a = i + n + 1 := ⟨a - i - 1, by omega⟩
      have e1 : i + n + 1 - i = n + 1 := by omega
      have e2 : i + n + 1 - (i + 1) = n := by omega
      have e3 : ¬ i + n + 1 < i := by omega
      have e4 : i + 1 ≤ i + n + 1 := by omega
      have e5 : ¬ i = i + n + 1 := by omega
      split <;> simp [Store.read, ih, e1, e2, e3, e4, e5]

/-! ## The canonical form -/

theorem Store.wf_nil (d : α) : Store.wf d ([] : Store α) := by simp [Store.wf]

theorem Store.wf_cons {d : α} {k : Nat} {x : α} {m : Store α} :
    Store.wf d ((k, x) :: m) ↔ (∀ e ∈ m, k < e.1) ∧ x ≠ d ∧ Store.wf d m := by
  simp only [Store.wf, List.map_cons, List.pairwise_cons, List.mem_map, forall_exists_index, and_imp, List.mem_cons,
    forall_eq_or_imp]
  constructor
  · rintro ⟨⟨h1, h2⟩, h3, h4⟩; exact ⟨fun e he => h1 _ e he rfl, h3, h2, h4⟩
  · rintro ⟨h1, h3, h2, h4⟩; exact ⟨⟨fun n e he hn => hn ▸ h1 e he, h2⟩, h3, h4⟩

theorem Store.wf_erase {d : α} {m : Store α} (h : m.wf d) (a : Nat) : (m.erase a).wf d := by
  induction m with
  | nil => exact h
  | cons e m ih =>
    obtain ⟨k, x⟩ := e
    rw [Store.wf_cons] at h
    simp only [Store.erase]
    split
    · exact ih h.2.2
    · exact Store.wf_cons.2 ⟨fun e he => h.1 e (Store.mem_erase.1 he).1, h.2.1, ih h.2.2⟩

theorem Store.wf_insert {d : α} {m : Store α} (h : m.wf d) {a : Nat} {v : α} (ha : ∀ e ∈ m, e.1 ≠ a) (hv : v ≠ d) :
    (m.insert a v).wf d := by
  induction m with
  | nil => simpa [Store.insert, Store.wf_cons, hv] using h
  | cons e m ih =>
    obtain ⟨k, x⟩ := e
    have hk := Store.wf_cons.1 h
    have hne := ha (k, x) (by simp)
    simp only [Store.insert]
    split
    · refine Store.wf_cons.2 ⟨fun e he => ?_, hv, h⟩
      rcases List.mem_cons.1 he with rfl | he
      · assumption
      · exact Nat.lt_trans (by assumption) (hk.1 e he)
    · refine Store.wf_cons.2 ⟨fun e he => ?_, hk.2.1, ih hk.2.2 fun e he => ha e (List.mem_cons_of_mem _ he)⟩
      rcases Store.mem_insert.1 he with rfl | he
      · simp only at hne ⊢; omega
      · exact hk.1 e he

/-- A write keeps the canonical form. -/
theorem Store.wf_write [DecidableEq α] {d : α} {m : Store α} (h : m.wf d) (a : Nat) (v : α) :
    (Store.write d m a v).wf d := by
  unfold Store.write
  split
  · exact Store.wf_erase h a
  · exact Store.wf_insert (Store.wf_erase h a) (fun e he => (Store.mem_erase.1 he).2) (by assumption)

/-- A write below a bound keeps every index below it. -/
theorem Store.below_write [DecidableEq α] {d : α} {m : Store α} {n : Nat} (h : m.below n) {a : Nat} (ha : a < n) (v : α) :
    (Store.write d m a v).below n := by
  intro e he
  unfold Store.write at he
  split at he
  · exact h e (Store.mem_erase.1 he).1
  · rcases Store.mem_insert.1 he with rfl | he
    · exact ha
    · exact h e (Store.mem_erase.1 he).1

theorem Store.mem_ofList [DecidableEq α] {d : α} {l : List α} {i : Nat} {e : Nat × α} (h : e ∈ Store.ofList d i l) :
    i ≤ e.1 ∧ e.1 < i + l.length ∧ e.2 ≠ d := by
  induction l generalizing i with
  | nil => simp [Store.ofList] at h
  | cons v l ih =>
    simp only [Store.ofList] at h
    split at h
    · obtain ⟨h1, h2, h3⟩ := ih h; simp only [List.length_cons]; exact ⟨by omega, by omega, h3⟩
    · rcases List.mem_cons.1 h with rfl | h
      · simp_all
      · obtain ⟨h1, h2, h3⟩ := ih h; simp only [List.length_cons]; exact ⟨by omega, by omega, h3⟩

theorem Store.wf_ofList [DecidableEq α] (d : α) (i : Nat) (l : List α) : (Store.ofList d i l).wf d := by
  induction l generalizing i with
  | nil => exact Store.wf_nil d
  | cons v l ih =>
    simp only [Store.ofList]
    split
    · exact ih _
    · exact Store.wf_cons.2 ⟨fun e he => (Store.mem_ofList he).1, by assumption, ih _⟩

theorem Store.below_ofList [DecidableEq α] (d : α) (l : List α) {n : Nat} (h : l.length ≤ n) :
    (Store.ofList d 0 l).below n := by
  intro e he; have := Store.mem_ofList he; omega

theorem Store.wf_read {d : α} {m : Store α} (h : m.wf d) {e : Nat × α} (he : e ∈ m) : Store.read d m e.1 = e.2 := by
  induction m with
  | nil => simp at he
  | cons f m ih =>
    obtain ⟨k, x⟩ := f
    have hk := Store.wf_cons.1 h
    rcases List.mem_cons.1 he with rfl | he
    · simp [Store.read]
    · have := hk.1 e he
      simp [Store.read, Nat.ne_of_lt this, ih hk.2.2 he]

/-- Stores in canonical form with equal contents are equal data. -/
theorem Store.ext_of_wf {d : α} {m m' : Store α} (h : m.wf d) (h' : m'.wf d)
    (heq : ∀ a, Store.read d m a = Store.read d m' a) : m = m' := by
  induction m generalizing m' with
  | nil =>
    cases m' with
    | nil => rfl
    | cons f m' =>
      have := Store.wf_read h' (e := f) (by simp)
      rw [← heq] at this
      exact absurd this.symm (h'.2 f (by simp))
  | cons e m ih =>
    obtain ⟨k, x⟩ := e
    have hk := Store.wf_cons.1 h
    cases m' with
    | nil =>
      have := heq k
      simp only [Store.read, if_true] at this
      exact absurd this hk.2.1
    | cons f m' =>
      obtain ⟨k', x'⟩ := f
      have hk' := Store.wf_cons.1 h'
      have below : ∀ {n : Store α} {j i : Nat}, (∀ e ∈ n, j < e.1) → i ≤ j → Store.read d n i = d :=
        fun hn hi => Store.read_of_not_mem _ _ _ fun e he => by have := hn e he; omega
      have hkk : k = k' := by
        rcases Nat.lt_trichotomy k k' with hlt | heq' | hlt
        · have h1 := heq k
          simp only [Store.read, if_true, if_neg (Nat.ne_of_gt hlt)] at h1
          exact absurd (h1.trans (below hk'.1 (Nat.le_of_lt hlt))) hk.2.1
        · exact heq'
        · have h1 := heq k'
          simp only [Store.read, if_true, if_neg (Nat.ne_of_gt hlt)] at h1
          exact absurd (h1.symm.trans (below hk.1 (Nat.le_of_lt hlt))) hk'.2.1
      subst hkk
      have hx := heq k
      simp only [Store.read, if_true] at hx
      subst hx
      congr 1
      refine ih hk.2.2 hk'.2.2 fun a => ?_
      by_cases ha : k = a
      · subst ha; rw [below hk.1 (Nat.le_refl _), below hk'.1 (Nat.le_refl _)]
      · have := heq a; simpa only [Store.read, if_neg ha] using this

/-! ## Bytes -/

theorem Memory.read_nil (a : Nat) : Memory.read [] a = 0 := rfl

theorem Memory.read_write (m : Memory) (a b : Nat) (v : Byte) :
    (m.write a v).read b = if a = b then v else m.read b := Store.read_write ..

@[simp] theorem Memory.read_write_same (m : Memory) (a : Nat) (v : Byte) : (m.write a v).read a = v := by
  simp [Memory.read_write]

theorem Memory.read_write_ne (m : Memory) {a b : Nat} (v : Byte) (h : a ≠ b) : (m.write a v).read b = m.read b := by
  simp [Memory.read_write, h]

theorem Memory.wf_write {m : Memory} (h : m.wf) (a : Nat) (v : Byte) : (m.write a v).wf := Store.wf_write h a v

theorem Memory.wf_ofBytes (l : List Byte) : (Memory.ofBytes l).wf := Store.wf_ofList 0 0 l

theorem Memory.below_write {m : Memory} {n : Nat} (h : Store.below n m) {a : Nat} (ha : a < n) (v : Byte) :
    Store.below n (m.write a v) := Store.below_write h ha v

theorem Memory.read_ofBytes (l : List Byte) (a : Nat) : (Memory.ofBytes l).read a = l.getD a 0 := by
  simp [Memory.read, Memory.ofBytes, Store.read_ofList]

/-! ## The palette and the pixels -/

theorem readPalette_writePalette (m : PpuMem) (i j : Nat) (v : BitVec 6) :
    readPalette (writePalette m i v) j = if i = j then v else readPalette m j := Store.read_write ..

theorem readPixel_writePixel (px : Store (Store Pixel)) (l c l' c' : Nat) (v : Pixel) :
    readPixel (writePixel px l c v) l' c' = if l = l' ∧ c = c' then v else readPixel px l' c' := by
  simp only [readPixel, writePixel, Store.read_write]
  by_cases h : l = l'
  · subst h; simp [Store.read_write]
  · simp [h]

theorem Store.read_wf {px : Store (Store Pixel)} (h : pixelsWf px) (l : Nat) :
    Store.wf 0 (Store.read [] px l) ∧ Store.below 256 (Store.read [] px l) := by
  have h3 := h.2.2
  clear h
  induction px with
  | nil => exact ⟨Store.wf_nil 0, by simp [Store.read, Store.below]⟩
  | cons e px ih =>
    obtain ⟨k, x⟩ := e
    simp only [Store.read]
    split
    · exact h3 (k, x) (by simp)
    · exact ih fun e he => h3 e (List.mem_cons_of_mem _ he)

/-- Writing a pixel of the 240 by 256 picture keeps the buffer's canonical form. -/
theorem pixelsWf_writePixel {px : Store (Store Pixel)} (h : pixelsWf px) {l c : Nat} (hl : l < 240) (hc : c < 256)
    (v : Pixel) : pixelsWf (writePixel px l c v) := by
  refine ⟨Store.wf_write h.1 _ _, Store.below_write h.2.1 hl _, fun e he => ?_⟩
  have line := Store.read_wf h l
  unfold writePixel at he
  generalize hx : Store.write 0 (Store.read [] px l) c v = x at he
  unfold Store.write at he
  split at he
  · exact h.2.2 e (Store.mem_erase.1 he).1
  · rcases Store.mem_insert.1 he with rfl | he
    · exact hx ▸ ⟨Store.wf_write line.1 _ _, Store.below_write line.2 hc _⟩
    · exact h.2.2 e (Store.mem_erase.1 he).1

end Sys2Proof.Machine
end

