-- ==== Sys2Proof/Laws/State.lean ====
section
/-! SUPPORT. One lemma per field per update of the records of Machine/State.lean, so that no later proof unfolds an update. -/

namespace Sys2Proof.Machine

/-! ## Cpu -/

@[simp] theorem Cpu.withA_a (c : Cpu) (v : Byte) : (c.withA v).a = v := rfl
@[simp] theorem Cpu.withA_x (c : Cpu) (v : Byte) : (c.withA v).x = c.x := rfl
@[simp] theorem Cpu.withA_y (c : Cpu) (v : Byte) : (c.withA v).y = c.y := rfl
@[simp] theorem Cpu.withA_s (c : Cpu) (v : Byte) : (c.withA v).s = c.s := rfl
@[simp] theorem Cpu.withA_pc (c : Cpu) (v : Byte) : (c.withA v).pc = c.pc := rfl
@[simp] theorem Cpu.withA_p (c : Cpu) (v : Byte) : (c.withA v).p = c.p := rfl
@[simp] theorem Cpu.withX_a (c : Cpu) (v : Byte) : (c.withX v).a = c.a := rfl
@[simp] theorem Cpu.withX_x (c : Cpu) (v : Byte) : (c.withX v).x = v := rfl
@[simp] theorem Cpu.withX_y (c : Cpu) (v : Byte) : (c.withX v).y = c.y := rfl
@[simp] theorem Cpu.withX_s (c : Cpu) (v : Byte) : (c.withX v).s = c.s := rfl
@[simp] theorem Cpu.withX_pc (c : Cpu) (v : Byte) : (c.withX v).pc = c.pc := rfl
@[simp] theorem Cpu.withX_p (c : Cpu) (v : Byte) : (c.withX v).p = c.p := rfl
@[simp] theorem Cpu.withY_a (c : Cpu) (v : Byte) : (c.withY v).a = c.a := rfl
@[simp] theorem Cpu.withY_x (c : Cpu) (v : Byte) : (c.withY v).x = c.x := rfl
@[simp] theorem Cpu.withY_y (c : Cpu) (v : Byte) : (c.withY v).y = v := rfl
@[simp] theorem Cpu.withY_s (c : Cpu) (v : Byte) : (c.withY v).s = c.s := rfl
@[simp] theorem Cpu.withY_pc (c : Cpu) (v : Byte) : (c.withY v).pc = c.pc := rfl
@[simp] theorem Cpu.withY_p (c : Cpu) (v : Byte) : (c.withY v).p = c.p := rfl
@[simp] theorem Cpu.withS_a (c : Cpu) (v : Byte) : (c.withS v).a = c.a := rfl
@[simp] theorem Cpu.withS_x (c : Cpu) (v : Byte) : (c.withS v).x = c.x := rfl
@[simp] theorem Cpu.withS_y (c : Cpu) (v : Byte) : (c.withS v).y = c.y := rfl
@[simp] theorem Cpu.withS_s (c : Cpu) (v : Byte) : (c.withS v).s = v := rfl
@[simp] theorem Cpu.withS_pc (c : Cpu) (v : Byte) : (c.withS v).pc = c.pc := rfl
@[simp] theorem Cpu.withS_p (c : Cpu) (v : Byte) : (c.withS v).p = c.p := rfl
@[simp] theorem Cpu.withPc_a (c : Cpu) (v : Word) : (c.withPc v).a = c.a := rfl
@[simp] theorem Cpu.withPc_x (c : Cpu) (v : Word) : (c.withPc v).x = c.x := rfl
@[simp] theorem Cpu.withPc_y (c : Cpu) (v : Word) : (c.withPc v).y = c.y := rfl
@[simp] theorem Cpu.withPc_s (c : Cpu) (v : Word) : (c.withPc v).s = c.s := rfl
@[simp] theorem Cpu.withPc_pc (c : Cpu) (v : Word) : (c.withPc v).pc = v := rfl
@[simp] theorem Cpu.withPc_p (c : Cpu) (v : Word) : (c.withPc v).p = c.p := rfl
@[simp] theorem Cpu.withP_a (c : Cpu) (v : Flags) : (c.withP v).a = c.a := rfl
@[simp] theorem Cpu.withP_x (c : Cpu) (v : Flags) : (c.withP v).x = c.x := rfl
@[simp] theorem Cpu.withP_y (c : Cpu) (v : Flags) : (c.withP v).y = c.y := rfl
@[simp] theorem Cpu.withP_s (c : Cpu) (v : Flags) : (c.withP v).s = c.s := rfl
@[simp] theorem Cpu.withP_pc (c : Cpu) (v : Flags) : (c.withP v).pc = c.pc := rfl
@[simp] theorem Cpu.withP_p (c : Cpu) (v : Flags) : (c.withP v).p = v := rfl

@[simp] theorem Cpu.withA_withA (c : Cpu) (v w : Byte) : (c.withA v).withA w = c.withA w := rfl
@[simp] theorem Cpu.withA_self (c : Cpu) : c.withA c.a = c := rfl
@[simp] theorem Cpu.withX_withX (c : Cpu) (v w : Byte) : (c.withX v).withX w = c.withX w := rfl
@[simp] theorem Cpu.withX_self (c : Cpu) : c.withX c.x = c := rfl
@[simp] theorem Cpu.withY_withY (c : Cpu) (v w : Byte) : (c.withY v).withY w = c.withY w := rfl
@[simp] theorem Cpu.withY_self (c : Cpu) : c.withY c.y = c := rfl
@[simp] theorem Cpu.withS_withS (c : Cpu) (v w : Byte) : (c.withS v).withS w = c.withS w := rfl
@[simp] theorem Cpu.withS_self (c : Cpu) : c.withS c.s = c := rfl
@[simp] theorem Cpu.withPc_withPc (c : Cpu) (v w : Word) : (c.withPc v).withPc w = c.withPc w := rfl
@[simp] theorem Cpu.withPc_self (c : Cpu) : c.withPc c.pc = c := rfl
@[simp] theorem Cpu.withP_withP (c : Cpu) (v w : Flags) : (c.withP v).withP w = c.withP w := rfl
@[simp] theorem Cpu.withP_self (c : Cpu) : c.withP c.p = c := rfl

@[simp] theorem Cpu.loadA_a (c : Cpu) (v : Byte) : (c.loadA v).a = v := rfl
@[simp] theorem Cpu.loadA_x (c : Cpu) (v : Byte) : (c.loadA v).x = c.x := rfl
@[simp] theorem Cpu.loadA_y (c : Cpu) (v : Byte) : (c.loadA v).y = c.y := rfl
@[simp] theorem Cpu.loadA_s (c : Cpu) (v : Byte) : (c.loadA v).s = c.s := rfl
@[simp] theorem Cpu.loadA_pc (c : Cpu) (v : Byte) : (c.loadA v).pc = c.pc := rfl
@[simp] theorem Cpu.loadA_p (c : Cpu) (v : Byte) : (c.loadA v).p = c.p.setNZ v := rfl
@[simp] theorem Cpu.loadX_a (c : Cpu) (v : Byte) : (c.loadX v).a = c.a := rfl
@[simp] theorem Cpu.loadX_x (c : Cpu) (v : Byte) : (c.loadX v).x = v := rfl
@[simp] theorem Cpu.loadX_y (c : Cpu) (v : Byte) : (c.loadX v).y = c.y := rfl
@[simp] theorem Cpu.loadX_s (c : Cpu) (v : Byte) : (c.loadX v).s = c.s := rfl
@[simp] theorem Cpu.loadX_pc (c : Cpu) (v : Byte) : (c.loadX v).pc = c.pc := rfl
@[simp] theorem Cpu.loadX_p (c : Cpu) (v : Byte) : (c.loadX v).p = c.p.setNZ v := rfl
@[simp] theorem Cpu.loadY_a (c : Cpu) (v : Byte) : (c.loadY v).a = c.a := rfl
@[simp] theorem Cpu.loadY_x (c : Cpu) (v : Byte) : (c.loadY v).x = c.x := rfl
@[simp] theorem Cpu.loadY_y (c : Cpu) (v : Byte) : (c.loadY v).y = v := rfl
@[simp] theorem Cpu.loadY_s (c : Cpu) (v : Byte) : (c.loadY v).s = c.s := rfl
@[simp] theorem Cpu.loadY_pc (c : Cpu) (v : Byte) : (c.loadY v).pc = c.pc := rfl
@[simp] theorem Cpu.loadY_p (c : Cpu) (v : Byte) : (c.loadY v).p = c.p.setNZ v := rfl
@[simp] theorem Cpu.combineA_a (c : Cpu) (r : Byte × Flags) : (c.combineA r).a = r.1 := rfl
@[simp] theorem Cpu.combineA_x (c : Cpu) (r : Byte × Flags) : (c.combineA r).x = c.x := rfl
@[simp] theorem Cpu.combineA_y (c : Cpu) (r : Byte × Flags) : (c.combineA r).y = c.y := rfl
@[simp] theorem Cpu.combineA_s (c : Cpu) (r : Byte × Flags) : (c.combineA r).s = c.s := rfl
@[simp] theorem Cpu.combineA_pc (c : Cpu) (r : Byte × Flags) : (c.combineA r).pc = c.pc := rfl
@[simp] theorem Cpu.combineA_p (c : Cpu) (r : Byte × Flags) : (c.combineA r).p = r.2 := rfl

/-! ## Flags -/

@[simp] theorem Flags.setNZ_n (f : Flags) (v : Byte) : (f.setNZ v).n = v.getLsbD 7 := rfl
@[simp] theorem Flags.setNZ_v (f : Flags) (v : Byte) : (f.setNZ v).v = f.v := rfl
@[simp] theorem Flags.setNZ_b (f : Flags) (v : Byte) : (f.setNZ v).b = f.b := rfl
@[simp] theorem Flags.setNZ_d (f : Flags) (v : Byte) : (f.setNZ v).d = f.d := rfl
@[simp] theorem Flags.setNZ_i (f : Flags) (v : Byte) : (f.setNZ v).i = f.i := rfl
@[simp] theorem Flags.setNZ_z (f : Flags) (v : Byte) : (f.setNZ v).z = (v == 0) := rfl
@[simp] theorem Flags.setNZ_c (f : Flags) (v : Byte) : (f.setNZ v).c = f.c := rfl

/-! ## State -/

@[simp] theorem State.withCpu_cpu (s : State) (c : Cpu) : (s.withCpu c).cpu = c := rfl
@[simp] theorem State.withCpu_cycles (s : State) (c : Cpu) : (s.withCpu c).cycles = s.cycles := rfl
@[simp] theorem State.withCpu_unsupportedSeen (s : State) (c : Cpu) : (s.withCpu c).unsupportedSeen = s.unsupportedSeen := rfl
@[simp] theorem State.withCpu_pendingDma (s : State) (c : Cpu) : (s.withCpu c).pendingDma = s.pendingDma := rfl
@[simp] theorem State.withCpu_ram (s : State) (c : Cpu) : (s.withCpu c).ram = s.ram := rfl
@[simp] theorem State.withCpu_dev (s : State) (c : Cpu) : (s.withCpu c).dev = s.dev := rfl
@[simp] theorem State.withCpu_host (s : State) (c : Cpu) : (s.withCpu c).host = s.host := rfl
@[simp] theorem State.withCpu_params (s : State) (c : Cpu) : (s.withCpu c).params = s.params := rfl
@[simp] theorem State.withCpu_withCpu (s : State) (c c' : Cpu) : (s.withCpu c).withCpu c' = s.withCpu c' := rfl
@[simp] theorem State.withCpu_self (s : State) : s.withCpu s.cpu = s := rfl
@[simp] theorem State.withRam_cpu (s : State) (m : Memory) : (s.withRam m).cpu = s.cpu := rfl
@[simp] theorem State.withRam_cycles (s : State) (m : Memory) : (s.withRam m).cycles = s.cycles := rfl
@[simp] theorem State.withRam_unsupportedSeen (s : State) (m : Memory) : (s.withRam m).unsupportedSeen = s.unsupportedSeen := rfl
@[simp] theorem State.withRam_pendingDma (s : State) (m : Memory) : (s.withRam m).pendingDma = s.pendingDma := rfl
@[simp] theorem State.withRam_ram (s : State) (m : Memory) : (s.withRam m).ram = m := rfl
@[simp] theorem State.withRam_dev (s : State) (m : Memory) : (s.withRam m).dev = s.dev := rfl
@[simp] theorem State.withRam_host (s : State) (m : Memory) : (s.withRam m).host = s.host := rfl
@[simp] theorem State.withRam_params (s : State) (m : Memory) : (s.withRam m).params = s.params := rfl
@[simp] theorem State.withRam_withRam (s : State) (m m' : Memory) : (s.withRam m).withRam m' = s.withRam m' := rfl
@[simp] theorem State.withRam_self (s : State) : s.withRam s.ram = s := rfl
@[simp] theorem State.withDev_cpu (s : State) (d : Devices) : (s.withDev d).cpu = s.cpu := rfl
@[simp] theorem State.withDev_cycles (s : State) (d : Devices) : (s.withDev d).cycles = s.cycles := rfl
@[simp] theorem State.withDev_unsupportedSeen (s : State) (d : Devices) : (s.withDev d).unsupportedSeen = s.unsupportedSeen := rfl
@[simp] theorem State.withDev_pendingDma (s : State) (d : Devices) : (s.withDev d).pendingDma = s.pendingDma := rfl
@[simp] theorem State.withDev_ram (s : State) (d : Devices) : (s.withDev d).ram = s.ram := rfl
@[simp] theorem State.withDev_dev (s : State) (d : Devices) : (s.withDev d).dev = d := rfl
@[simp] theorem State.withDev_host (s : State) (d : Devices) : (s.withDev d).host = s.host := rfl
@[simp] theorem State.withDev_params (s : State) (d : Devices) : (s.withDev d).params = s.params := rfl
@[simp] theorem State.withDev_withDev (s : State) (d d' : Devices) : (s.withDev d).withDev d' = s.withDev d' := rfl
@[simp] theorem State.withDev_self (s : State) : s.withDev s.dev = s := rfl
@[simp] theorem State.withHost_cpu (s : State) (h : HostSide) : (s.withHost h).cpu = s.cpu := rfl
@[simp] theorem State.withHost_cycles (s : State) (h : HostSide) : (s.withHost h).cycles = s.cycles := rfl
@[simp] theorem State.withHost_unsupportedSeen (s : State) (h : HostSide) : (s.withHost h).unsupportedSeen = s.unsupportedSeen := rfl
@[simp] theorem State.withHost_pendingDma (s : State) (h : HostSide) : (s.withHost h).pendingDma = s.pendingDma := rfl
@[simp] theorem State.withHost_ram (s : State) (h : HostSide) : (s.withHost h).ram = s.ram := rfl
@[simp] theorem State.withHost_dev (s : State) (h : HostSide) : (s.withHost h).dev = s.dev := rfl
@[simp] theorem State.withHost_host (s : State) (h : HostSide) : (s.withHost h).host = h := rfl
@[simp] theorem State.withHost_params (s : State) (h : HostSide) : (s.withHost h).params = s.params := rfl
@[simp] theorem State.withHost_withHost (s : State) (h h' : HostSide) : (s.withHost h).withHost h' = s.withHost h' := rfl
@[simp] theorem State.withHost_self (s : State) : s.withHost s.host = s := rfl
@[simp] theorem State.withPendingDma_cpu (s : State) (n : Nat) : (s.withPendingDma n).cpu = s.cpu := rfl
@[simp] theorem State.withPendingDma_cycles (s : State) (n : Nat) : (s.withPendingDma n).cycles = s.cycles := rfl
@[simp] theorem State.withPendingDma_unsupportedSeen (s : State) (n : Nat) : (s.withPendingDma n).unsupportedSeen = s.unsupportedSeen := rfl
@[simp] theorem State.withPendingDma_pendingDma (s : State) (n : Nat) : (s.withPendingDma n).pendingDma = n := rfl
@[simp] theorem State.withPendingDma_ram (s : State) (n : Nat) : (s.withPendingDma n).ram = s.ram := rfl
@[simp] theorem State.withPendingDma_dev (s : State) (n : Nat) : (s.withPendingDma n).dev = s.dev := rfl
@[simp] theorem State.withPendingDma_host (s : State) (n : Nat) : (s.withPendingDma n).host = s.host := rfl
@[simp] theorem State.withPendingDma_params (s : State) (n : Nat) : (s.withPendingDma n).params = s.params := rfl
@[simp] theorem State.withPendingDma_withPendingDma (s : State) (n n' : Nat) : (s.withPendingDma n).withPendingDma n' = s.withPendingDma n' := rfl
@[simp] theorem State.withPendingDma_self (s : State) : s.withPendingDma s.pendingDma = s := rfl
@[simp] theorem State.withUnsupported_cpu (s : State) (b : Bool) : (s.withUnsupported b).cpu = s.cpu := rfl
@[simp] theorem State.withUnsupported_cycles (s : State) (b : Bool) : (s.withUnsupported b).cycles = s.cycles := rfl
@[simp] theorem State.withUnsupported_unsupportedSeen (s : State) (b : Bool) : (s.withUnsupported b).unsupportedSeen = b := rfl
@[simp] theorem State.withUnsupported_pendingDma (s : State) (b : Bool) : (s.withUnsupported b).pendingDma = s.pendingDma := rfl
@[simp] theorem State.withUnsupported_ram (s : State) (b : Bool) : (s.withUnsupported b).ram = s.ram := rfl
@[simp] theorem State.withUnsupported_dev (s : State) (b : Bool) : (s.withUnsupported b).dev = s.dev := rfl
@[simp] theorem State.withUnsupported_host (s : State) (b : Bool) : (s.withUnsupported b).host = s.host := rfl
@[simp] theorem State.withUnsupported_params (s : State) (b : Bool) : (s.withUnsupported b).params = s.params := rfl
@[simp] theorem State.withUnsupported_withUnsupported (s : State) (b b' : Bool) : (s.withUnsupported b).withUnsupported b' = s.withUnsupported b' := rfl
@[simp] theorem State.withUnsupported_self (s : State) : s.withUnsupported s.unsupportedSeen = s := rfl
@[simp] theorem State.charge_cpu (s : State) (n : Nat) : (s.charge n).cpu = s.cpu := rfl
@[simp] theorem State.charge_cycles (s : State) (n : Nat) : (s.charge n).cycles = s.cycles + n := rfl
@[simp] theorem State.charge_unsupportedSeen (s : State) (n : Nat) : (s.charge n).unsupportedSeen = s.unsupportedSeen := rfl
@[simp] theorem State.charge_pendingDma (s : State) (n : Nat) : (s.charge n).pendingDma = s.pendingDma := rfl
@[simp] theorem State.charge_ram (s : State) (n : Nat) : (s.charge n).ram = s.ram := rfl
@[simp] theorem State.charge_dev (s : State) (n : Nat) : (s.charge n).dev = s.dev := rfl
@[simp] theorem State.charge_host (s : State) (n : Nat) : (s.charge n).host = s.host := rfl
@[simp] theorem State.charge_params (s : State) (n : Nat) : (s.charge n).params = s.params := rfl
@[simp] theorem State.advance_cpu (s : State) (len : Nat) : (s.advance len).cpu = s.cpu.withPc (s.cpu.pc + BitVec.ofNat 16 len) := rfl
@[simp] theorem State.advance_cycles (s : State) (len : Nat) : (s.advance len).cycles = s.cycles := rfl
@[simp] theorem State.advance_unsupportedSeen (s : State) (len : Nat) : (s.advance len).unsupportedSeen = s.unsupportedSeen := rfl
@[simp] theorem State.advance_pendingDma (s : State) (len : Nat) : (s.advance len).pendingDma = s.pendingDma := rfl
@[simp] theorem State.advance_ram (s : State) (len : Nat) : (s.advance len).ram = s.ram := rfl
@[simp] theorem State.advance_dev (s : State) (len : Nat) : (s.advance len).dev = s.dev := rfl
@[simp] theorem State.advance_host (s : State) (len : Nat) : (s.advance len).host = s.host := rfl
@[simp] theorem State.advance_params (s : State) (len : Nat) : (s.advance len).params = s.params := rfl

/-! ## Devices -/

@[simp] theorem Devices.withRegs_regs (d : Devices) (r : PpuRegs) : (d.withRegs r).ppu.regs = r := rfl
@[simp] theorem Devices.withRegs_time (d : Devices) (r : PpuRegs) : (d.withRegs r).ppu.time = d.ppu.time := rfl
@[simp] theorem Devices.withRegs_bg (d : Devices) (r : PpuRegs) : (d.withRegs r).ppu.bg = d.ppu.bg := rfl
@[simp] theorem Devices.withRegs_spr (d : Devices) (r : PpuRegs) : (d.withRegs r).ppu.spr = d.ppu.spr := rfl
@[simp] theorem Devices.withRegs_mem (d : Devices) (r : PpuRegs) : (d.withRegs r).ppu.mem = d.ppu.mem := rfl
@[simp] theorem Devices.withRegs_pixels (d : Devices) (r : PpuRegs) : (d.withRegs r).ppu.pixels = d.ppu.pixels := rfl
@[simp] theorem Devices.withRegs_cart (d : Devices) (r : PpuRegs) : (d.withRegs r).cart = d.cart := rfl
@[simp] theorem Devices.withRegs_nmiPending (d : Devices) (r : PpuRegs) : (d.withRegs r).nmiPending = d.nmiPending := rfl
@[simp] theorem Devices.withBg_regs (d : Devices) (b : BgPipe) : (d.withBg b).ppu.regs = d.ppu.regs := rfl
@[simp] theorem Devices.withBg_time (d : Devices) (b : BgPipe) : (d.withBg b).ppu.time = d.ppu.time := rfl
@[simp] theorem Devices.withBg_bg (d : Devices) (b : BgPipe) : (d.withBg b).ppu.bg = b := rfl
@[simp] theorem Devices.withBg_spr (d : Devices) (b : BgPipe) : (d.withBg b).ppu.spr = d.ppu.spr := rfl
@[simp] theorem Devices.withBg_mem (d : Devices) (b : BgPipe) : (d.withBg b).ppu.mem = d.ppu.mem := rfl
@[simp] theorem Devices.withBg_pixels (d : Devices) (b : BgPipe) : (d.withBg b).ppu.pixels = d.ppu.pixels := rfl
@[simp] theorem Devices.withBg_cart (d : Devices) (b : BgPipe) : (d.withBg b).cart = d.cart := rfl
@[simp] theorem Devices.withBg_nmiPending (d : Devices) (b : BgPipe) : (d.withBg b).nmiPending = d.nmiPending := rfl
@[simp] theorem Devices.withSpr_regs (d : Devices) (p : SprPipe) : (d.withSpr p).ppu.regs = d.ppu.regs := rfl
@[simp] theorem Devices.withSpr_time (d : Devices) (p : SprPipe) : (d.withSpr p).ppu.time = d.ppu.time := rfl
@[simp] theorem Devices.withSpr_bg (d : Devices) (p : SprPipe) : (d.withSpr p).ppu.bg = d.ppu.bg := rfl
@[simp] theorem Devices.withSpr_spr (d : Devices) (p : SprPipe) : (d.withSpr p).ppu.spr = p := rfl
@[simp] theorem Devices.withSpr_mem (d : Devices) (p : SprPipe) : (d.withSpr p).ppu.mem = d.ppu.mem := rfl
@[simp] theorem Devices.withSpr_pixels (d : Devices) (p : SprPipe) : (d.withSpr p).ppu.pixels = d.ppu.pixels := rfl
@[simp] theorem Devices.withSpr_cart (d : Devices) (p : SprPipe) : (d.withSpr p).cart = d.cart := rfl
@[simp] theorem Devices.withSpr_nmiPending (d : Devices) (p : SprPipe) : (d.withSpr p).nmiPending = d.nmiPending := rfl
@[simp] theorem Devices.withV_time (d : Devices) (v : VramAddr) : (d.withV v).ppu.time = d.ppu.time := rfl
@[simp] theorem Devices.withV_bg (d : Devices) (v : VramAddr) : (d.withV v).ppu.bg = d.ppu.bg := rfl
@[simp] theorem Devices.withV_spr (d : Devices) (v : VramAddr) : (d.withV v).ppu.spr = d.ppu.spr := rfl
@[simp] theorem Devices.withV_mem (d : Devices) (v : VramAddr) : (d.withV v).ppu.mem = d.ppu.mem := rfl
@[simp] theorem Devices.withV_pixels (d : Devices) (v : VramAddr) : (d.withV v).ppu.pixels = d.ppu.pixels := rfl
@[simp] theorem Devices.withV_cart (d : Devices) (v : VramAddr) : (d.withV v).cart = d.cart := rfl
@[simp] theorem Devices.withV_nmiPending (d : Devices) (v : VramAddr) : (d.withV v).nmiPending = d.nmiPending := rfl
@[simp] theorem Devices.withV_v (d : Devices) (v : VramAddr) : (d.withV v).ppu.regs.v = v := rfl
@[simp] theorem Devices.observe_ppu (p : Params) (d : Devices) (a : PpuAddr) (t : Nat) : (d.observe p a t).ppu = d.ppu := rfl
@[simp] theorem Devices.observe_nmiPending (p : Params) (d : Devices) (a : PpuAddr) (t : Nat) : (d.observe p a t).nmiPending = d.nmiPending := rfl
@[simp] theorem Devices.observe_cart (p : Params) (d : Devices) (a : PpuAddr) (t : Nat) :
    (d.observe p a t).cart = d.cart.observe p a t := rfl
@[simp] theorem Cartridge.observe_header (p : Params) (c : Cartridge) (a : PpuAddr) (t : Nat) : (c.observe p a t).header = c.header := rfl
@[simp] theorem Cartridge.observe_prg (p : Params) (c : Cartridge) (a : PpuAddr) (t : Nat) : (c.observe p a t).prg = c.prg := rfl
@[simp] theorem Cartridge.observe_chr (p : Params) (c : Cartridge) (a : PpuAddr) (t : Nat) : (c.observe p a t).chr = c.chr := rfl
@[simp] theorem Cartridge.observe_wram (p : Params) (c : Cartridge) (a : PpuAddr) (t : Nat) : (c.observe p a t).wram = c.wram := rfl
@[simp] theorem Cartridge.observe_windows (p : Params) (c : Cartridge) (a : PpuAddr) (t : Nat) : (c.observe p a t).windows = c.windows := rfl
@[simp] theorem Cartridge.rebuild_header (c : Cartridge) : c.rebuild.header = c.header := rfl
@[simp] theorem Cartridge.rebuild_prg (c : Cartridge) : c.rebuild.prg = c.prg := rfl
@[simp] theorem Cartridge.rebuild_chr (c : Cartridge) : c.rebuild.chr = c.chr := rfl
@[simp] theorem Cartridge.rebuild_wram (c : Cartridge) : c.rebuild.wram = c.wram := rfl
@[simp] theorem Cartridge.rebuild_mapper (c : Cartridge) : c.rebuild.mapper = c.mapper := rfl
@[simp] theorem Cartridge.rebuild_windows (c : Cartridge) : c.rebuild.windows = c.mapper.windows c.header := rfl
@[simp] theorem Cartridge.mapperWrite_header (p : Params) (c : Cartridge) (a : Word) (v : Byte) (t : Nat) :
    (c.mapperWrite p a v t).header = c.header := rfl
@[simp] theorem Cartridge.mapperWrite_prg (p : Params) (c : Cartridge) (a : Word) (v : Byte) (t : Nat) :
    (c.mapperWrite p a v t).prg = c.prg := rfl
@[simp] theorem Cartridge.mapperWrite_chr (p : Params) (c : Cartridge) (a : Word) (v : Byte) (t : Nat) :
    (c.mapperWrite p a v t).chr = c.chr := rfl
@[simp] theorem Cartridge.mapperWrite_wram (p : Params) (c : Cartridge) (a : Word) (v : Byte) (t : Nat) :
    (c.mapperWrite p a v t).wram = c.wram := rfl
@[simp] theorem Cartridge.writeWram_header (c : Cartridge) (a : Word) (v : Byte) : (c.writeWram a v).header = c.header := rfl
@[simp] theorem Cartridge.writeWram_prg (c : Cartridge) (a : Word) (v : Byte) : (c.writeWram a v).prg = c.prg := rfl
@[simp] theorem Cartridge.writeWram_chr (c : Cartridge) (a : Word) (v : Byte) : (c.writeWram a v).chr = c.chr := rfl
@[simp] theorem Cartridge.writeWram_mapper (c : Cartridge) (a : Word) (v : Byte) : (c.writeWram a v).mapper = c.mapper := rfl
@[simp] theorem Cartridge.writeWram_windows (c : Cartridge) (a : Word) (v : Byte) : (c.writeWram a v).windows = c.windows := rfl

end Sys2Proof.Machine
end

