-- ==== Sys2Proof/Laws/Mapper.lean ====
section
/-! SUPPORT. The laws of the cartridge: bank pages stay in range, the windows depend on the banking registers only, which
register an address selects, and the stores keep their canonical form and their sizes. -/

namespace Sys2Proof.Machine

/-! ## Bank pages are in range (R1002, R208) -/

theorem bankPage_lt {total : Nat} (h : 0 < total) (b k j : Nat) : bankPage total b k j < total := Nat.mod_lt _ h

theorem Header.prgPages_pos {h : Header} (hl : 1 ≤ h.prg16Count) : 0 < h.prgPages := by
  unfold Header.prgPages; omega

theorem Header.chrPages_pos (h : Header) : 0 < h.chrPages := by
  unfold Header.chrPages; omega

theorem Header.prgBank_lt {h : Header} (hl : 1 ≤ h.prg16Count) (b k j : Nat) : h.prgBank b k j < h.prgPages :=
  bankPage_lt (h.prgPages_pos hl) b k j

theorem Header.chrBank_lt (h : Header) (b k j : Nat) : h.chrBank b k j < h.chrPages := bankPage_lt h.chrPages_pos b k j

theorem Header.lastPrg_lt {h : Header} (hl : 1 ≤ h.prg16Count) : h.lastPrg < h.prgPages := by
  have := h.prgPages_pos hl; unfold Header.lastPrg; omega

theorem Header.secondLastPrg_lt {h : Header} (hl : 1 ≤ h.prg16Count) : h.secondLastPrg < h.prgPages :=
  Nat.mod_lt _ (h.prgPages_pos hl)

theorem Header.lastPrg16_lt {h : Header} (hl : 1 ≤ h.prg16Count) (j : Nat) : h.lastPrg16 j < h.prgPages :=
  h.prgBank_lt hl _ _ _

/-- Every page of a window table is below a bound. -/
theorem page4_lt {n : Nat} {a b c d : Nat} (ha : a < n) (hb : b < n) (hc : c < n) (hd : d < n) (i : Nat) :
    (#v[a, b, c, d])[i]?.getD 0 < n := by
  have h0 : 0 < n := by omega
  match i with
  | 0 => exact ha
  | 1 => exact hb
  | 2 => exact hc
  | 3 => exact hd
  | _ + 4 => simpa using h0

theorem page8_lt {n : Nat} {a b c d e f g h : Nat} (ha : a < n) (hb : b < n) (hc : c < n) (hd : d < n)
    (he : e < n) (hf : f < n) (hg : g < n) (hh : h < n) (i : Nat) :
    (#v[a, b, c, d, e, f, g, h])[i]?.getD 0 < n := by
  have h0 : 0 < n := by omega
  match i with
  | 0 => exact ha
  | 1 => exact hb
  | 2 => exact hc
  | 3 => exact hd
  | 4 => exact he
  | 5 => exact hf
  | 6 => exact hg
  | 7 => exact hh
  | _ + 8 => simpa using h0

/-- Every PRG window of every mapper holds a page of the ROM: "never out-of-bounds access" (R1002, R208). -/
theorem Mapper.prgPage_lt (m : Mapper) {h : Header} (hl : 1 ≤ h.prg16Count) (i : Nat) :
    (m.windows h).prg[i]?.getD 0 < h.prgPages := by
  have hb := fun b k j => h.prgBank_lt hl b k j
  have h1 := h.lastPrg_lt hl
  have h2 := h.secondLastPrg_lt hl
  have h3 := fun j => h.lastPrg16_lt hl j
  have hm := fun a => Nat.mod_lt a (h.prgPages_pos hl)
  cases m with
  | nrom => exact page4_lt (hm _) (hm _) (hm _) (hm _) i
  | mmc1 m =>
    simp only [Mapper.windows, Mmc1.prgWindows]
    split <;> exact page4_lt (hb _ _ _) (hb _ _ _) (hb _ _ _) (hb _ _ _) i
  | mmc3 m =>
    simp only [Mapper.windows, Mmc3.prgWindows]
    split
    · exact page4_lt h2 (hb _ _ _) (hb _ _ _) h1 i
    · exact page4_lt (hb _ _ _) (hb _ _ _) h2 h1 i
  | vrc1 m => exact page4_lt (hb _ _ _) (hb _ _ _) (hb _ _ _) h1 i
  | vrc2b m => exact page4_lt (hb _ _ _) (hb _ _ _) h2 h1 i
  | sunsoft4 m => exact page4_lt (hb _ _ _) (hb _ _ _) (h3 _) (h3 _) i

/-- Every CHR window of every mapper holds a page of the CHR store (R1002). -/
theorem Mapper.chrPage_lt (m : Mapper) (h : Header) (i : Nat) : (m.windows h).chr[i]?.getD 0 < h.chrPages := by
  have hb := fun b k j => h.chrBank_lt b k j
  have hm := fun a => Nat.mod_lt a h.chrPages_pos
  cases m with
  | nrom => exact page8_lt (hm _) (hm _) (hm _) (hm _) (hm _) (hm _) (hm _) (hm _) i
  | mmc1 m =>
    simp only [Mapper.windows, Mmc1.chrWindows]
    split <;> exact page8_lt (hb _ _ _) (hb _ _ _) (hb _ _ _) (hb _ _ _) (hb _ _ _) (hb _ _ _) (hb _ _ _) (hb _ _ _) i
  | mmc3 m =>
    simp only [Mapper.windows, Mmc3.chrWindows]
    split <;> exact page8_lt (hb _ _ _) (hb _ _ _) (hb _ _ _) (hb _ _ _) (hb _ _ _) (hb _ _ _) (hb _ _ _) (hb _ _ _) i
  | vrc1 m =>
    exact page8_lt (hb _ _ _) (hb _ _ _) (hb _ _ _) (hb _ _ _) (hb _ _ _) (hb _ _ _) (hb _ _ _) (hb _ _ _) i
  | vrc2b m =>
    simp only [Mapper.windows, Vrc2b.chrWindows, Vector.getElem?_map]
    cases m.chr[i]? with
    | none => exact h.chrPages_pos
    | some b => exact hb _ _ _
  | sunsoft4 m =>
    exact page8_lt (hb _ _ _) (hb _ _ _) (hb _ _ _) (hb _ _ _) (hb _ _ _) (hb _ _ _) (hb _ _ _) (hb _ _ _) i

/-- A PRG offset is inside the ROM (R208). -/
theorem Cartridge.prgOffset_lt {c : Cartridge} (hl : 1 ≤ c.header.prg16Count) (hw : c.windows = c.mapper.windows c.header)
    (a : Word) : c.prgOffset a < 16384 * c.header.prg16Count := by
  have h := c.mapper.prgPage_lt hl ((a.toNat - 0x8000) / 8192)
  rw [← hw] at h
  unfold Cartridge.prgOffset
  unfold Header.prgPages at h
  have := Nat.mod_lt a.toNat (show 0 < 8192 by omega)
  omega

/-- A CHR offset is inside the CHR store (R220). -/
theorem Cartridge.chrOffset_lt {c : Cartridge} (hw : c.windows = c.mapper.windows c.header) (a : PpuAddr) :
    c.chrOffset a < 1024 * c.header.chrPages := by
  have h := c.mapper.chrPage_lt c.header (a.toNat / 1024)
  rw [← hw] at h
  unfold Cartridge.chrOffset
  have := Nat.mod_lt a.toNat (show 0 < 1024 by omega)
  omega

/-! ## Mirroring -/

/-- Without a four-screen header no variant gives four-screen mirroring (R1004). -/
theorem Mapper.mirroring_ne_fourScreen (m : Mapper) {h : Header} (hf : h.fourScreen = false) :
    (m.windows h).mirroring ≠ .fourScreen := by
  cases m with
  | nrom => simp [Mapper.windows, Header.effectiveMirroring, hf]; cases h.headerMirroring <;> simp [HeaderMirroring.mode]
  | mmc1 m => simp [Mapper.windows, Header.effectiveMirroring, hf, Mmc1.mirroring]; split <;> simp
  | mmc3 m => simp [Mapper.windows, Header.effectiveMirroring, hf, mirrorBit]; split <;> simp
  | vrc1 m => simp [Mapper.windows, Header.effectiveMirroring, hf, mirrorBit]; split <;> simp
  | vrc2b m => simp [Mapper.windows, Header.effectiveMirroring, hf, mirrorBit]; split <;> simp
  | sunsoft4 m => simp [Mapper.windows, Header.effectiveMirroring, hf, Sunsoft4.mirroring]; split <;> simp

/-- A four-screen header overrides every variant (R1004). -/
theorem Mapper.mirroring_eq_fourScreen (m : Mapper) {h : Header} (hf : h.fourScreen = true) :
    (m.windows h).mirroring = .fourScreen := by
  cases m <;> simp [Mapper.windows, Header.effectiveMirroring, hf]

theorem Mirroring.physical_lt {m : Mirroring} {q : Nat} (hq : q < 4) : m.physical q < 4 := by
  cases m <;> simp only [Mirroring.physical] <;> omega

theorem Mirroring.physical_lt_two {m : Mirroring} (hm : m ≠ .fourScreen) {q : Nat} (hq : q < 4) : m.physical q < 2 := by
  cases m <;> simp only [Mirroring.physical] <;> first | omega | exact absurd rfl hm

theorem Mirroring.ntIndex_lt (m : Mirroring) (a : PpuAddr) : m.ntIndex a < 4096 := by
  have h := Nat.mod_lt (a.toNat - 0x2000) (show 0 < 0x1000 by omega)
  have := Mirroring.physical_lt (m := m) (q := (a.toNat - 0x2000) % 0x1000 / 0x400) (by omega)
  have := Nat.mod_lt ((a.toNat - 0x2000) % 0x1000) (show 0 < 0x400 by omega)
  simp only [Mirroring.ntIndex]; omega

theorem Mirroring.ntIndex_lt_two {m : Mirroring} (hm : m ≠ .fourScreen) (a : PpuAddr) : m.ntIndex a < 2048 := by
  have h := Nat.mod_lt (a.toNat - 0x2000) (show 0 < 0x1000 by omega)
  have := Mirroring.physical_lt_two hm (q := (a.toNat - 0x2000) % 0x1000 / 0x400) (by omega)
  have := Nat.mod_lt ((a.toNat - 0x2000) % 0x1000) (show 0 < 0x400 by omega)
  simp only [Mirroring.ntIndex]; omega

/-! ## Which register an address selects -/

/-- A mask of the bits from `k` on keeps the multiple of `2^k` below. -/
theorem and_highBits (a mask : Word) (k : Nat) (h : ∀ i, i < 16 → mask.toNat.testBit i = decide (k ≤ i)) :
    (a &&& mask).toNat = a.toNat / 2 ^ k * 2 ^ k := by
  rw [BitVec.toNat_and]
  apply Nat.eq_of_testBit_eq
  intro i
  rw [← Nat.shiftRight_eq_div_pow, ← Nat.shiftLeft_eq, Nat.testBit_and, Nat.testBit_shiftLeft, Nat.testBit_shiftRight]
  by_cases hi : i < 16
  · rw [h i hi]
    by_cases hk : k ≤ i <;> simp [hk]
  · have ha : a.toNat.testBit i = false :=
      Nat.testBit_lt_two_pow (lt_of_lt_of_le a.isLt (Nat.pow_le_pow_right (by decide) (by omega)))
    by_cases hk : k ≤ i <;> simp [hk, ha]

/-- The register number of VRC1, VRC2b and mapper 68 (R1061, R1071, R1081). -/
theorem regAddr_f000 (a : Word) : (a &&& 0xF000).toNat = a.toNat / 0x1000 * 0x1000 :=
  and_highBits a 0xF000 12 (by decide)

/-- The register number of MMC3 (R1041). -/
theorem regAddr_e001 (a : Word) : (a &&& 0xE001).toNat = a.toNat / 0x2000 * 0x2000 + a.toNat % 2 := by
  have hs : a &&& 0xE001 = (a &&& 0xE000) + (a &&& 0x0001) := by
    rw [BitVec.add_eq_or_of_and_eq_zero, ← BitVec.and_or_distrib_left]
    · rfl
    · rw [BitVec.and_assoc, BitVec.and_comm a 1, ← BitVec.and_assoc 0xE000, show (0xE000 : Word) &&& 1 = 0 from rfl]
      simp
  have hh := and_highBits a 0xE000 13 (by decide)
  have hl : (a &&& 0x0001).toNat = a.toNat % 2 := by rw [BitVec.toNat_and]; exact Nat.and_two_pow_sub_one_eq_mod _ 1
  rw [hs, BitVec.toNat_add, hh, hl]
  have := a.isLt
  omega

/-! ## The observer changes no window -/

theorem Mmc3.clockCounter_banks (p : Params) (m : Mmc3) :
    (m.clockCounter p).bankSelect = m.bankSelect ∧ (m.clockCounter p).bank = m.bank ∧ (m.clockCounter p).mirror = m.mirror :=
  ⟨rfl, rfl, rfl⟩

theorem Mmc3.observe_banks (p : Params) (m : Mmc3) (a : PpuAddr) (t : Nat) :
    (m.observe p a t).bankSelect = m.bankSelect ∧ (m.observe p a t).bank = m.bank ∧ (m.observe p a t).mirror = m.mirror := by
  unfold Mmc3.observe
  split
  · simp only []
    split <;> exact ⟨rfl, rfl, rfl⟩
  · exact ⟨rfl, rfl, rfl⟩

theorem Mapper.observe_windows (p : Params) (m : Mapper) (a : PpuAddr) (t : Nat) (h : Header) :
    (m.observe p a t).windows h = m.windows h := by
  cases m with
  | mmc3 m =>
    have hb := m.observe_banks p a t
    simp only [Mapper.observe, Mapper.windows, Mmc3.prgWindows, Mmc3.chrWindows, hb]
  | nrom => rfl
  | mmc1 m => rfl
  | vrc1 m => rfl
  | vrc2b m => rfl
  | sunsoft4 m => rfl

end Sys2Proof.Machine
end

