-- ==== Sys2Proof/Laws/Ppu.lean ====
section
/-! SUPPORT. What a dot can do, said once (`DotKeeps`, `ppuDot_time`), lifted to runs of dots and to catch-up; and what a
CPU access to a port can do (`PortKeeps`). -/

namespace Sys2Proof.Machine

/-- What no dot changes: the cartridge but for the mapper's A12 observer, the memories but for secondary OAM and the picture,
and every PPU register but v, oamaddr and the three status flags. An invariant of the rest is kept. -/
structure DotKeeps (d e : Devices) : Prop where
  header : e.cart.header = d.cart.header
  prg : e.cart.prg = d.cart.prg
  chr : e.cart.chr = d.cart.chr
  wram : e.cart.wram = d.cart.wram
  windows : e.cart.windows = d.cart.windows
  mapperWindows : ∀ h, e.cart.mapper.windows h = d.cart.mapper.windows h
  ciram : e.ppu.mem.ciram = d.ppu.mem.ciram
  palette : e.ppu.mem.palette = d.ppu.mem.palette
  oam : e.ppu.mem.oam = d.ppu.mem.oam
  ctrl : e.ppu.regs.ctrl = d.ppu.regs.ctrl
  mask : e.ppu.regs.mask = d.ppu.regs.mask
  t : e.ppu.regs.t = d.ppu.regs.t
  x : e.ppu.regs.x = d.ppu.regs.x
  w : e.ppu.regs.w = d.ppu.regs.w
  readBuffer : e.ppu.regs.readBuffer = d.ppu.regs.readBuffer
  ioLatch : e.ppu.regs.ioLatch = d.ppu.regs.ioLatch
  nmi : d.nmiPending = true → e.nmiPending = true
  pixels : pixelsWf d.ppu.pixels → pixelsWf e.ppu.pixels
  spr : d.ppu.spr.legal → e.ppu.spr.legal

theorem DotKeeps.refl (d : Devices) : DotKeeps d d := by constructor <;> intros <;> first | rfl | assumption

theorem DotKeeps.trans {d e f : Devices} (h : DotKeeps d e) (k : DotKeeps e f) : DotKeeps d f where
  header := k.header.trans h.header
  prg := k.prg.trans h.prg
  chr := k.chr.trans h.chr
  wram := k.wram.trans h.wram
  windows := k.windows.trans h.windows
  mapperWindows := fun hd => (k.mapperWindows hd).trans (h.mapperWindows hd)
  ciram := k.ciram.trans h.ciram
  palette := k.palette.trans h.palette
  oam := k.oam.trans h.oam
  ctrl := k.ctrl.trans h.ctrl
  mask := k.mask.trans h.mask
  t := k.t.trans h.t
  x := k.x.trans h.x
  w := k.w.trans h.w
  readBuffer := k.readBuffer.trans h.readBuffer
  ioLatch := k.ioLatch.trans h.ioLatch
  nmi := fun hn => k.nmi (h.nmi hn)
  pixels := fun hp => k.pixels (h.pixels hp)
  spr := fun hs => k.spr (h.spr hs)

theorem DotKeeps.ite {c : Prop} [Decidable c] {d a b : Devices} (ha : c → DotKeeps d a) (hb : ¬c → DotKeeps d b) :
    DotKeeps d (if c then a else b) := by
  split
  · exact ha (by assumption)
  · exact hb (by assumption)

/-! ## The parts of a dot -/

theorem observe_keeps (p : Params) (d : Devices) (a : PpuAddr) (t : Nat) : DotKeeps d (d.observe p a t) := by
  constructor
  case mapperWindows => exact fun h => Mapper.observe_windows p d.cart.mapper a t h
  all_goals intros; first | rfl | assumption

theorem withV_keeps (d : Devices) (v : VramAddr) : DotKeeps d (d.withV v) := by
  constructor <;> intros <;> first | rfl | assumption

theorem withBg_keeps (d : Devices) (b : BgPipe) : DotKeeps d (d.withBg b) := by
  constructor <;> intros <;> first | rfl | assumption

theorem withSpr_keeps (d : Devices) (s : SprPipe) (h : d.ppu.spr.legal → s.legal) : DotKeeps d (d.withSpr s) := by
  constructor
  case spr => exact h
  all_goals intros; first | rfl | assumption

theorem setUnit_keeps (d : Devices) (i : Nat) (f : SprUnit → SprUnit) : DotKeeps d (d.setUnit i f) := by
  unfold Devices.setUnit
  split
  · exact withSpr_keeps _ _ id
  · exact DotKeeps.refl d

theorem loadSlots_keeps (d : Devices) : DotKeeps d (loadSlots d) :=
  withSpr_keeps _ _ fun h => ⟨h.1, h.1⟩

theorem vUpdate_keeps (line dot : Nat) (d : Devices) : DotKeeps d (vUpdate line dot d) := by
  unfold vUpdate
  exact .ite (fun _ => withV_keeps _ _) fun _ => .ite (fun _ => withV_keeps _ _) fun _ =>
    .ite (fun _ => withV_keeps _ _) fun _ => .refl d

theorem bgFetchPhase_keeps (p : Params) (q : Nat) (d : Devices) : DotKeeps d (bgFetchPhase p q d) := by
  unfold bgFetchPhase
  split
  · exact observe_keeps ..
  · exact withBg_keeps ..
  · exact observe_keeps ..
  · exact withBg_keeps ..
  · exact observe_keeps ..
  · exact withBg_keeps ..
  · exact observe_keeps ..
  · exact (withBg_keeps d _).trans (withV_keeps _ _)

theorem bgFetch_keeps (p : Params) (dot : Nat) (d : Devices) : DotKeeps d (bgFetch p dot d) := by
  unfold bgFetch
  exact .ite (fun _ => bgFetchPhase_keeps ..) fun _ => .ite (fun _ => bgFetchPhase_keeps ..) fun _ =>
    .ite (fun _ => bgFetchPhase_keeps ..) fun _ => .refl d

theorem bgShiftAndReload_keeps (dot : Nat) (d : Devices) : DotKeeps d (bgShiftAndReload dot d) := withBg_keeps ..

/-- Evaluation never finds more than eight sprites (R940). -/
theorem spriteScan_length_le (oam : Memory) (line h fuel n : Nat) (found : List Nat) (hf : found.length ≤ 8) :
    (spriteScan oam line h fuel n found).1.length ≤ 8 := by
  induction fuel generalizing n found with
  | zero => exact hf
  | succ fuel ih =>
    unfold spriteScan
    split
    · exact hf
    · split
      · exact ih _ _ (by simp only [List.length_append, List.length_singleton]; omega)
      · exact ih _ _ hf

theorem spriteEvaluation_keeps (line : Nat) (d : Devices) : DotKeeps d (spriteEvaluation line d) := by
  constructor
  case spr => exact fun h => ⟨spriteScan_length_le d.ppu.mem.oam line (spriteHeight d.ppu.regs.ctrl) 64 0 [] (by simp), h.2⟩
  all_goals intros; first | rfl | assumption

theorem dotEvaluation_keeps (line dot : Nat) (d : Devices) : DotKeeps d (dotEvaluation line dot d) := by
  unfold dotEvaluation
  exact .ite (fun _ => .ite (fun _ => spriteEvaluation_keeps ..) fun _ =>
    .ite (fun _ => withSpr_keeps _ _ fun h => ⟨by simp, h.2⟩) fun _ => .refl d) fun _ => .refl d

theorem spriteFetchPhase_keeps (p : Params) (line i q : Nat) (d : Devices) :
    DotKeeps d (spriteFetchPhase p line i q d) := by
  unfold spriteFetchPhase
  split
  · exact observe_keeps ..
  · exact observe_keeps ..
  · exact observe_keeps ..
  · exact setUnit_keeps ..
  · exact observe_keeps ..
  · exact setUnit_keeps ..
  · exact DotKeeps.refl d

theorem spriteFetch_keeps (p : Params) (line dot : Nat) (d : Devices) : DotKeeps d (spriteFetch p line dot d) := by
  have h0 : DotKeeps d (d.withRegs { d.ppu.regs with oamaddr := 0 }) := by
    constructor <;> intros <;> first | rfl | assumption
  unfold spriteFetch
  simp only []
  refine h0.trans (DotKeeps.trans ?_ (spriteFetchPhase_keeps ..))
  exact .ite (fun _ => loadSlots_keeps _) fun _ => .refl _

theorem dotFetches_keeps (p : Params) (line dot : Nat) (d : Devices) : DotKeeps d (dotFetches p line dot d) := by
  unfold dotFetches
  exact ((bgFetch_keeps p dot d).trans (vUpdate_keeps ..)).trans <| (dotEvaluation_keeps ..).trans
    (.ite (fun _ => spriteFetch_keeps ..) fun _ => .refl _)

theorem vblankEntry_keeps (d : Devices) : DotKeeps d (vblankEntry d) := by
  constructor
  case nmi => intro h; simp [vblankEntry, h]
  all_goals intros; first | rfl | assumption

theorem vblankExit_keeps (d : Devices) : DotKeeps d (vblankExit d) := by
  constructor <;> intros <;> first | rfl | assumption

theorem dotEvents_keeps (line dot : Nat) (d : Devices) : DotKeeps d (dotEvents line dot d) := by
  unfold dotEvents
  exact .ite (fun _ => by constructor <;> intros <;> first | rfl | assumption) fun _ =>
    .ite (fun _ => vblankEntry_keeps d) fun _ => .ite (fun _ => vblankExit_keeps d) fun _ => .refl d

theorem outputPixel_keeps {line x : Nat} (hl : line < 240) (hx : x < 256) (d : Devices) :
    DotKeeps d (outputPixel line x d) := by
  unfold outputPixel
  refine .ite (fun _ => ?_) fun _ => ?_
  all_goals
    constructor
    case pixels => exact fun h => pixelsWf_writePixel h hl hx _
    all_goals intros; first | rfl | assumption

theorem dotPixel_keeps (line dot : Nat) (d : Devices) : DotKeeps d (dotPixel line dot d) := by
  unfold dotPixel
  exact .ite (fun h => outputPixel_keeps (by omega) (by omega) d) fun _ => .refl d

theorem dotWork_keeps (p : Params) (line dot : Nat) (d : Devices) : DotKeeps d (dotWork p line dot d) := by
  unfold dotWork
  extract_lets d1 active d2 d3
  have h1 : DotKeeps d d1 := dotEvents_keeps line dot d
  have h2 : DotKeeps d1 d2 := DotKeeps.ite (fun _ => bgShiftAndReload_keeps ..) fun _ => .refl _
  have h3 : DotKeeps d2 d3 := dotPixel_keeps line dot _
  exact ((h1.trans h2).trans h3).trans <| .ite (fun _ => dotFetches_keeps ..) fun _ =>
    .ite (fun _ => withSpr_keeps _ _ fun h => ⟨h.1, by simp⟩) fun _ => .refl _

theorem ppuDot_keeps (p : Params) (d : Devices) : DotKeeps d (ppuDot p d) := by
  refine (dotWork_keeps p d.ppu.time.scanline d.ppu.time.dot d).trans ?_
  constructor <;> intros <;> first | rfl | assumption

/-- What a run of dots keeps. -/
theorem runDots_keeps (p : Params) (n : Nat) (d : Devices) : DotKeeps d (runDots p n d) := by
  induction n generalizing d with
  | zero => exact .refl d
  | succ n ih => exact (ppuDot_keeps p d).trans (ih _)

/-- What catch-up keeps. -/
theorem syncTo_keeps (p : Params) (target : Nat) (d : Devices) : DotKeeps d (d.syncTo p target) := runDots_keeps ..

/-! ## The position -/

/-- No part of a dot but its end moves the position. -/
structure SameTime (d e : Devices) : Prop where
  scanline : e.ppu.time.scanline = d.ppu.time.scanline
  dot : e.ppu.time.dot = d.ppu.time.dot
  oddFrame : e.ppu.time.oddFrame = d.ppu.time.oddFrame
  dotClock : e.ppu.time.dotClock = d.ppu.time.dotClock

theorem SameTime.refl (d : Devices) : SameTime d d := ⟨rfl, rfl, rfl, rfl⟩

theorem SameTime.trans {d e f : Devices} (h : SameTime d e) (k : SameTime e f) : SameTime d f :=
  ⟨k.1.trans h.1, k.2.trans h.2, k.3.trans h.3, k.4.trans h.4⟩

theorem SameTime.ite {c : Prop} [Decidable c] {d a b : Devices} (ha : SameTime d a) (hb : SameTime d b) :
    SameTime d (if c then a else b) := by
  split
  · exact ha
  · exact hb

theorem SameTime.of_eq {d e : Devices} (h : e.ppu.time = d.ppu.time) : SameTime d e := by
  constructor <;> rw [h]

theorem setUnit_time (d : Devices) (i : Nat) (f : SprUnit → SprUnit) : SameTime d (d.setUnit i f) := by
  unfold Devices.setUnit
  split
  · exact .of_eq rfl
  · exact .refl d

theorem spriteEvaluation_time (line : Nat) (d : Devices) : (spriteEvaluation line d).ppu.time = d.ppu.time := rfl

theorem bgFetchPhase_time (p : Params) (q : Nat) (d : Devices) : SameTime d (bgFetchPhase p q d) := by
  unfold bgFetchPhase
  split <;> exact .of_eq rfl

theorem spriteFetchPhase_time (p : Params) (line i q : Nat) (d : Devices) :
    SameTime d (spriteFetchPhase p line i q d) := by
  unfold spriteFetchPhase
  split <;> first | exact .of_eq rfl | exact setUnit_time ..

theorem dotFetches_time (p : Params) (line dot : Nat) (d : Devices) : SameTime d (dotFetches p line dot d) := by
  have hf : ∀ d, SameTime d (bgFetch p dot d) := fun d => by
    unfold bgFetch
    exact .ite (bgFetchPhase_time ..) (.ite (bgFetchPhase_time ..) (.ite (bgFetchPhase_time ..) (.refl d)))
  have hv : ∀ d, SameTime d (vUpdate line dot d) := fun d => by
    unfold vUpdate; exact .ite (.of_eq rfl) (.ite (.of_eq rfl) (.ite (.of_eq rfl) (.refl d)))
  have he : ∀ d, SameTime d (dotEvaluation line dot d) := fun d => by
    unfold dotEvaluation
    split
    · exact .ite (.of_eq (spriteEvaluation_time line d)) (.ite (.of_eq rfl) (.refl d))
    · exact .refl d
  have hs : ∀ d, SameTime d (spriteFetch p line dot d) := fun d => by
    unfold spriteFetch
    simp only []
    refine SameTime.trans ?_ (spriteFetchPhase_time ..)
    exact .ite (.of_eq rfl) (.of_eq rfl)
  unfold dotFetches
  simp only []
  refine ((hf d).trans (hv _)).trans ((he _).trans ?_)
  exact .ite (hs _) (.refl _)

theorem dotWork_time (p : Params) (line dot : Nat) (d : Devices) : SameTime d (dotWork p line dot d) := by
  have he : SameTime d (dotEvents line dot d) := by
    unfold dotEvents
    exact .ite ⟨rfl, rfl, rfl, rfl⟩ (.ite (.of_eq rfl) (.ite (.of_eq rfl) (.refl d)))
  have hp : ∀ d, SameTime d (dotPixel line dot d) := fun d => by
    unfold dotPixel outputPixel; exact .ite (.ite (.of_eq rfl) (.of_eq rfl)) (.refl d)
  unfold dotWork
  extract_lets d1 active d2 d3
  have h2 : SameTime d1 d2 := SameTime.ite (.of_eq rfl) (.refl _)
  exact ((he.trans h2).trans (hp _)).trans (.ite (dotFetches_time ..) (.ite (.of_eq rfl) (.refl _)))

theorem advance_dotClock (t : PpuTime) (r : Bool) : (t.advance r).dotClock = t.dotClock + 1 := by
  unfold PpuTime.advance; simp only []; split
  · split <;> rfl
  · rfl

theorem ppuDot_dotClock (p : Params) (d : Devices) : (ppuDot p d).ppu.time.dotClock = d.ppu.time.dotClock + 1 := by
  simp only [ppuDot, advance_dotClock, (dotWork_time p _ _ d).dotClock]

theorem advance_legal {t : PpuTime} (h : t.legal) (r : Bool) : (t.advance r).legal := by
  unfold PpuTime.advance PpuTime.legal at *
  simp only []
  split
  · split <;> simp only [] <;> omega
  · simp only []; omega

theorem ppuDot_legal (p : Params) {d : Devices} (h : d.ppu.time.legal) : (ppuDot p d).ppu.time.legal := by
  have ht := dotWork_time p d.ppu.time.scanline d.ppu.time.dot d
  exact advance_legal (t := (dotWork p d.ppu.time.scanline d.ppu.time.dot d).ppu.time)
    (by unfold PpuTime.legal at *; rw [ht.scanline, ht.dot]; exact h) _

theorem runDots_dotClock (p : Params) (n : Nat) (d : Devices) :
    (runDots p n d).ppu.time.dotClock = d.ppu.time.dotClock + n := by
  induction n generalizing d with
  | zero => rfl
  | succ n ih => simp only [runDots, ih, ppuDot_dotClock]; omega

theorem runDots_legal (p : Params) (n : Nat) {d : Devices} (h : d.ppu.time.legal) : (runDots p n d).ppu.time.legal := by
  induction n generalizing d with
  | zero => exact h
  | succ n ih => exact ih (ppuDot_legal p h)

theorem runDots_add (p : Params) (m n : Nat) (d : Devices) : runDots p (m + n) d = runDots p n (runDots p m d) := by
  induction m generalizing d with
  | zero => simp [runDots]
  | succ m ih => rw [Nat.succ_add]; exact ih _

/-- Catch-up runs exactly the dots before its target: none where they have already run. -/
theorem syncTo_dotClock (p : Params) (target : Nat) (d : Devices) :
    (d.syncTo p target).ppu.time.dotClock = max d.ppu.time.dotClock target := by
  simp only [Devices.syncTo, runDots_dotClock]; omega

/-- "Any schedule of catch-up calls is correct that gives the same order" (R452): an earlier catch-up changes nothing. -/
theorem syncTo_syncTo (p : Params) {s t : Nat} (h : s ≤ t) (d : Devices) : (d.syncTo p s).syncTo p t = d.syncTo p t := by
  simp only [Devices.syncTo, runDots_dotClock]
  rw [← runDots_add]
  congr 1
  omega

/-! ## The invariant of the devices -/

theorem Devices.Inv.of_keeps {d e : Devices} (h : d.Inv) (k : DotKeeps d e) (ht : e.ppu.time.legal) : e.Inv := by
  obtain ⟨h1, h2, h3, h4, -, h6⟩ := h
  refine ⟨?_, ?_, ?_, ?_, ht, k.spr h6⟩
  · unfold Cartridge.loaded at *; rw [k.header]; exact h1
  · unfold Cartridge.windowsCurrent at *; rw [k.windows, k.mapperWindows, k.header]; exact h2
  · unfold Cartridge.storesWf at *; rw [k.prg, k.chr, k.wram, k.header]; exact h3
  · unfold Ppu.storesWf at *; rw [k.ciram, k.palette, k.oam, k.header]
    exact ⟨h4.1, h4.2.1, h4.2.2.1, h4.2.2.2.1, h4.2.2.2.2.1, h4.2.2.2.2.2.1, k.pixels h4.2.2.2.2.2.2⟩

theorem runDots_inv (p : Params) (n : Nat) {d : Devices} (h : d.Inv) : (runDots p n d).Inv :=
  h.of_keeps (runDots_keeps p n d) (runDots_legal p n h.2.2.2.2.1)

theorem syncTo_inv (p : Params) (target : Nat) {d : Devices} (h : d.Inv) : (d.syncTo p target).Inv := runDots_inv p _ h

theorem palIndex_lt (a : PpuAddr) : palIndex a < 32 := by
  have h : ∀ i : BitVec 14, (i &&& 0x1F).toNat < 32 := fun i => by
    rw [BitVec.toNat_and]; exact Nat.lt_of_le_of_lt Nat.and_le_right (by decide)
  have h' : ∀ i : BitVec 14, (i &&& 0x0F).toNat < 32 := fun i => by
    rw [BitVec.toNat_and]; exact Nat.lt_of_le_of_lt Nat.and_le_right (by decide)
  simp only [palIndex]
  split
  · exact h' _
  · exact h _

theorem ntIndex_lt_ciramSize {c : Cartridge} (hw : c.windowsCurrent) (a : PpuAddr) :
    c.windows.mirroring.ntIndex a < c.header.ciramSize := by
  unfold Header.ciramSize
  split
  · exact Mirroring.ntIndex_lt _ a
  · refine Mirroring.ntIndex_lt_two ?_ a
    rw [hw]; exact Mapper.mirroring_ne_fourScreen _ (by simp_all)

theorem ppuWrite_inv {d : Devices} (h : d.Inv) (a : PpuAddr) (v : Byte) : (d.ppuWrite a v).Inv := by
  obtain ⟨h1, h2, h3, h4, h5, h6⟩ := h
  unfold Devices.ppuWrite
  split
  · unfold Cartridge.writeChr
    split
    · refine ⟨h1, h2, ?_, h4, h5, h6⟩
      exact ⟨h3.1, h3.2.1, Memory.wf_write h3.2.2.1 _ _, Memory.below_write h3.2.2.2.1 (Cartridge.chrOffset_lt h2 a) _,
        h3.2.2.2.2⟩
    · exact ⟨h1, h2, h3, h4, h5, h6⟩
  · split
    · refine ⟨h1, h2, h3, ?_, h5, h6⟩
      exact ⟨Memory.wf_write h4.1 _ _, Memory.below_write h4.2.1 (ntIndex_lt_ciramSize h2 a) _, h4.2.2⟩
    · refine ⟨h1, h2, h3, ?_, h5, h6⟩
      exact ⟨h4.1, h4.2.1, Store.wf_write h4.2.2.1 _ _, Store.below_write h4.2.2.2.1 (palIndex_lt a) _, h4.2.2.2.2⟩

theorem observe_inv (p : Params) {d : Devices} (h : d.Inv) (a : PpuAddr) (t : Nat) : (d.observe p a t).Inv :=
  h.of_keeps (observe_keeps p d a t) h.2.2.2.2.1

theorem withRegs_inv {d : Devices} (h : d.Inv) (r : PpuRegs) : (d.withRegs r).Inv := h

theorem writeOam_inv {d : Devices} (h : d.Inv) (i v : Byte) : (d.writeOam i v).Inv := by
  obtain ⟨h1, h2, h3, h4, h5, h6⟩ := h
  exact ⟨h1, h2, h3, ⟨h4.1, h4.2.1, h4.2.2.1, h4.2.2.2.1, Memory.wf_write h4.2.2.2.2.1 _ _,
    Memory.below_write h4.2.2.2.2.2.1 i.isLt _, h4.2.2.2.2.2.2⟩, h5, h6⟩

theorem stepV_inv (p : Params) (now : Nat) {d : Devices} (h : d.Inv) : (stepV p now d).Inv := observe_inv p h _ _

theorem portRead_inv (p : Params) (now port : Nat) {d : Devices} (h : d.Inv) : (portRead p now port d).2.Inv := by
  unfold portRead
  split
  · exact withRegs_inv h _
  · exact withRegs_inv h _
  · exact stepV_inv p now (observe_inv p h _ _)
  · exact h

theorem portWrite_inv (p : Params) (now port : Nat) (v : Byte) {d : Devices} (h : d.Inv) :
    (portWrite p now port v d).Inv := by
  unfold portWrite
  simp only []
  split
  · exact h
  · exact h
  · exact h
  · exact writeOam_inv h _ _
  · unfold writeScroll; simp only []; split <;> exact h
  · unfold writeAddr; simp only []; split
    · exact observe_inv p h _ _
    · exact h
  · have h' : (d.withRegs { d.ppu.regs with ioLatch := v }).Inv := h
    exact stepV_inv p now (ppuWrite_inv (observe_inv p h' _ _) _ _)
  · exact h

theorem mapperWrite_inv (p : Params) {d : Devices} (h : d.Inv) (a : Word) (v : Byte) (stamp : Nat) :
    Devices.Inv { d with cart := d.cart.mapperWrite p a v stamp } := by
  obtain ⟨h1, h2, h3, h4, h5, h6⟩ := h
  exact ⟨h1, rfl, h3, h4, h5, h6⟩

theorem writeWram_inv {d : Devices} (h : d.Inv) {a : Word} (ha : a.toNat < 0x8000) (v : Byte) :
    Devices.Inv { d with cart := d.cart.writeWram a v } := by
  obtain ⟨h1, h2, h3, h4, h5, h6⟩ := h
  exact ⟨h1, h2, ⟨h3.1, h3.2.1, h3.2.2.1, h3.2.2.2.1, Memory.wf_write h3.2.2.2.2.1 _ _,
    Memory.below_write h3.2.2.2.2.2 (by omega) _⟩, h4, h5, h6⟩

/-! ## What a CPU access to a port leaves alone -/

/-- What no port access changes: the cartridge's header, PRG, WRAM and windows, and the PPU's time. -/
structure PortKeeps (d e : Devices) : Prop where
  header : e.cart.header = d.cart.header
  prg : e.cart.prg = d.cart.prg
  wram : e.cart.wram = d.cart.wram
  windows : e.cart.windows = d.cart.windows
  time : e.ppu.time = d.ppu.time
  nmi : d.nmiPending = true → e.nmiPending = true

theorem portRead_keeps (p : Params) (now port : Nat) (d : Devices) : PortKeeps d (portRead p now port d).2 := by
  unfold portRead
  split <;> constructor <;> intros <;> first | rfl | assumption

/-- A read of a port writes no memory. -/
theorem portRead_stores (p : Params) (now port : Nat) (d : Devices) :
    (portRead p now port d).2.cart.chr = d.cart.chr ∧ (portRead p now port d).2.ppu.mem.ciram = d.ppu.mem.ciram ∧
    (portRead p now port d).2.ppu.mem.palette = d.ppu.mem.palette ∧ (portRead p now port d).2.ppu.mem.oam = d.ppu.mem.oam := by
  unfold portRead
  split <;> exact ⟨rfl, rfl, rfl, rfl⟩

theorem ppuWrite_keeps (d : Devices) (a : PpuAddr) (v : Byte) : PortKeeps d (d.ppuWrite a v) := by
  unfold Devices.ppuWrite Cartridge.writeChr
  split
  · split <;> constructor <;> intros <;> first | rfl | assumption
  · split <;> constructor <;> intros <;> first | rfl | assumption

theorem portWrite_keeps (p : Params) (now port : Nat) (v : Byte) (d : Devices) :
    PortKeeps d (portWrite p now port v d) := by
  unfold portWrite
  simp only []
  split
  · constructor
    case nmi => intro h; simp [writeCtrl, h]
    all_goals rfl
  · constructor <;> intros <;> first | rfl | assumption
  · constructor <;> intros <;> first | rfl | assumption
  · constructor <;> intros <;> first | rfl | assumption
  · unfold writeScroll; simp only []; split <;> constructor <;> intros <;> first | rfl | assumption
  · unfold writeAddr; simp only []; split <;> constructor <;> intros <;> first | rfl | assumption
  · have h := ppuWrite_keeps ((d.withRegs { d.ppu.regs with ioLatch := v }).observe p d.ppu.regs.busAddr now)
      d.ppu.regs.busAddr v
    exact ⟨h.header, h.prg, h.wram, h.windows, h.time, h.nmi⟩
  · constructor <;> intros <;> first | rfl | assumption

end Sys2Proof.Machine
end

