-- ==== Sys2Proof/Laws/Ops.lean ====
section
/-! SUPPORT. One law per shared operation of Machine/Ops.lean and Machine/Operands.lean: what it can do, and what it leaves
alone. -/

namespace Sys2Proof.Machine

/-! ## Address facts -/

theorem zext16_toNat (b : Byte) : (zext16 b).toNat = b.toNat := by
  simp only [zext16, BitVec.toNat_setWidth]; have := b.isLt; omega

theorem zext16_lt (b : Byte) : (zext16 b).toNat < 0x100 := by rw [zext16_toNat]; exact b.isLt

theorem stackAddr_toNat (sp : Byte) : (stackAddr sp).toNat = 0x100 + sp.toNat := by
  have h : ∀ b : Byte, (stackAddr b).toNat = 0x100 + b.toNat := by decide
  exact h sp

theorem stackAddr_lt (sp : Byte) : (stackAddr sp).toNat < 0x2000 := by
  rw [stackAddr_toNat]; have := sp.isLt; omega

theorem wrapNext_zext16 (b : Byte) : wrapNext (zext16 b) = zext16 (b + 1) := by
  revert b; unfold wrapNext zext16; decide

theorem joinBytes_toNat (hi lo : Byte) : (joinBytes hi lo).toNat = 256 * hi.toNat + lo.toNat := by
  have := lo.isLt
  simp only [joinBytes, BitVec.toNat_append]
  rw [← Nat.shiftLeft_add_eq_or_of_lt this, Nat.shiftLeft_eq]; omega

theorem highByte_toNat (w : Word) : (highByte w).toNat = w.toNat / 256 := by
  have := w.isLt
  simp only [highByte, BitVec.toNat_setWidth, BitVec.toNat_ushiftRight, Nat.shiftRight_eq_div_pow]; omega

theorem lowByte_toNat (w : Word) : (lowByte w).toNat = w.toNat % 256 := by
  simp only [lowByte, BitVec.toNat_setWidth]

@[simp] theorem joinBytes_high_low (w : Word) : joinBytes (highByte w) (lowByte w) = w := by
  apply BitVec.eq_of_toNat_eq
  rw [joinBytes_toNat, highByte_toNat, lowByte_toNat]; omega

@[simp] theorem highByte_joinBytes (hi lo : Byte) : highByte (joinBytes hi lo) = hi := by
  apply BitVec.eq_of_toNat_eq
  have := lo.isLt
  rw [highByte_toNat, joinBytes_toNat]; omega

@[simp] theorem lowByte_joinBytes (hi lo : Byte) : lowByte (joinBytes hi lo) = lo := by
  apply BitVec.eq_of_toNat_eq
  have := lo.isLt
  rw [lowByte_toNat, joinBytes_toNat]; omega

/-- The page part of an address (R16, R433). -/
theorem pagePart_eq (a : Word) : a &&& 0xFF00 = joinBytes (highByte a) 0 := by
  have h : a &&& 0xFF00 = joinBytes (highByte a) (lowByte a) &&& joinBytes 0xFF 0x00 := by rw [joinBytes_high_low]; rfl
  rw [h]
  unfold joinBytes
  rw [BitVec.and_append]
  congr 1 <;> first | exact BitVec.and_zero | exact BitVec.and_allOnes

theorem lowPart_eq (a : Word) : a &&& 0x00FF = joinBytes 0 (lowByte a) := by
  have h : a &&& 0x00FF = joinBytes (highByte a) (lowByte a) &&& joinBytes 0x00 0xFF := by rw [joinBytes_high_low]; rfl
  rw [h]
  unfold joinBytes
  rw [BitVec.and_append]
  congr 1 <;> first | exact BitVec.and_zero | exact BitVec.and_allOnes

/-- A page cross, on numbers (R433). -/
theorem pageCross_iff (a b : Word) : pageCross a b = true ↔ b.toNat / 256 ≠ a.toNat / 256 := by
  have h : ∀ w : Word, (w &&& 0xFF00).toNat = w.toNat / 256 * 256 := fun w => by
    rw [pagePart_eq, joinBytes_toNat, highByte_toNat]; simp; omega
  unfold pageCross
  rw [bne_iff_ne, Ne, ← BitVec.toNat_inj, h, h]
  omega

/-- The second byte of a page-wrapping read, on numbers (R219). -/
theorem wrapNext_toNat (a : Word) : (wrapNext a).toNat = a.toNat / 256 * 256 + (a.toNat + 1) % 256 := by
  unfold wrapNext
  rw [pagePart_eq, lowPart_eq]
  unfold joinBytes
  rw [BitVec.or_append]
  show (joinBytes (highByte a ||| 0) (0 ||| lowByte (a + 1))).toNat = _
  have h : highByte a ||| 0 = highByte a := BitVec.or_zero
  have h' : 0 ||| lowByte (a + 1) = lowByte (a + 1) := BitVec.zero_or
  have h1 : (1 : Word).toNat = 1 := rfl
  rw [h, h', joinBytes_toNat, highByte_toNat, lowByte_toNat, BitVec.toNat_add, h1]
  omega

/-- The joined word as a number, and the two bytes of a word (R211). -/
theorem joinBytes_eq (hi lo : Byte) : joinBytes hi lo = BitVec.ofNat 16 (256 * hi.toNat + lo.toNat) := by
  apply BitVec.eq_of_toNat_eq
  have := hi.isLt
  have := lo.isLt
  rw [joinBytes_toNat, BitVec.toNat_ofNat]; omega

theorem highByte_eq (w : Word) : highByte w = BitVec.ofNat 8 (w.toNat / 256) := by
  apply BitVec.eq_of_toNat_eq
  have := w.isLt
  rw [highByte_toNat, BitVec.toNat_ofNat]; omega

theorem lowByte_eq (w : Word) : lowByte w = BitVec.ofNat 8 (w.toNat % 256) := by
  apply BitVec.eq_of_toNat_eq
  rw [lowByte_toNat, BitVec.toNat_ofNat]; omega

/-! ## The status byte (R104) -/

@[simp] theorem Flags.unpack_pack (f : Flags) (b : Bool) : Flags.unpack (f.pack b) = { f with b := b } := by
  obtain ⟨n, v, b', d, i, z, c⟩ := f
  revert n v b' d i z c b
  decide

/-! ## Reads -/

/-- A read of RAM: the mirrored byte, and no side effect (R202). -/
theorem memRead_ram {a : Word} (h : a.toNat < 0x2000) (stamp : Nat) (s : State) :
    memRead a stamp s = (s.ram.read (a.toNat % 0x800), s) := by simp [memRead, h]

/-- A read of WRAM (R207). -/
theorem memRead_wram {a : Word} (h : 0x6000 ≤ a.toNat) (h' : a.toNat < 0x8000) (stamp : Nat) (s : State) :
    memRead a stamp s = (s.dev.cart.readWram a, s) := by
  have h1 : ¬ a.toNat < 0x2000 := by omega
  have h2 : ¬ a.toNat < 0x4000 := by omega
  have h3 : ¬ a.toNat < 0x6000 := by omega
  simp [memRead, h1, h2, h3, h']

/-- A read of the PRG window (R208). -/
theorem memRead_prg {a : Word} (h : 0x8000 ≤ a.toNat) (stamp : Nat) (s : State) :
    memRead a stamp s = (s.dev.cart.readPrg a, s) := by
  have h1 : ¬ a.toNat < 0x2000 := by omega
  have h2 : ¬ a.toNat < 0x4000 := by omega
  have h3 : ¬ a.toNat < 0x6000 := by omega
  have h4 : ¬ a.toNat < 0x8000 := by omega
  simp [memRead, h1, h2, h3, h4]

/-- "Reads of RAM, WRAM, PRG ... have no side effect and are idempotent" (R214). -/
theorem memRead_plain_state {a : Word} (h : plainAddr a) (stamp : Nat) (s : State) : (memRead a stamp s).2 = s := by
  rcases h with h | h
  · rw [memRead_ram h]
  · by_cases h' : a.toNat < 0x8000
    · rw [memRead_wram h h']
    · rw [memRead_prg (by omega)]

/-- The byte a plain address reads as does not depend on when it is read. -/
theorem memRead_plain_stamp {a : Word} (h : plainAddr a) (m n : Nat) (s : State) : memRead a m s = memRead a n s := by
  rcases h with h | h
  · rw [memRead_ram h, memRead_ram h]
  · by_cases h' : a.toNat < 0x8000
    · rw [memRead_wram h h', memRead_wram h h']
    · rw [memRead_prg (by omega), memRead_prg (by omega)]

/-! ## What an access can do -/

/-- The part of the invariant that holds inside a step, with the PPU not past cycle `T`. -/
def State.Ok (T : Nat) (s : State) : Prop :=
  s.dev.Inv ∧ s.ram.wf ∧ Store.below 2048 s.ram ∧ s.dev.ppu.time.dotClock ≤ s.ppuTime T

/-- What no access of a step changes. -/
structure Keeps (T : Nat) (s t : State) : Prop where
  cycles : t.cycles = s.cycles
  params : t.params = s.params
  unsupported : t.unsupportedSeen = s.unsupportedSeen
  header : t.dev.cart.header = s.dev.cart.header
  prg : t.dev.cart.prg = s.dev.cart.prg
  nmi : s.dev.nmiPending = true → t.dev.nmiPending = true
  ok : s.Ok T → t.Ok T

theorem Keeps.refl (T : Nat) (s : State) : Keeps T s s := ⟨rfl, rfl, rfl, rfl, rfl, id, id⟩

theorem Keeps.trans {T : Nat} {s t u : State} (h : Keeps T s t) (k : Keeps T t u) : Keeps T s u where
  cycles := k.cycles.trans h.cycles
  params := k.params.trans h.params
  unsupported := k.unsupported.trans h.unsupported
  header := k.header.trans h.header
  prg := k.prg.trans h.prg
  nmi := fun hn => k.nmi (h.nmi hn)
  ok := fun ho => k.ok (h.ok ho)

theorem withCpu_keeps (T : Nat) (s : State) (c : Cpu) : Keeps T s (s.withCpu c) := ⟨rfl, rfl, rfl, rfl, rfl, id, id⟩

theorem withHost_keeps (T : Nat) (s : State) (h : HostSide) : Keeps T s (s.withHost h) := ⟨rfl, rfl, rfl, rfl, rfl, id, id⟩

theorem withPendingDma_keeps (T : Nat) (s : State) (n : Nat) : Keeps T s (s.withPendingDma n) :=
  ⟨rfl, rfl, rfl, rfl, rfl, id, id⟩

theorem advance_keeps (T : Nat) (s : State) (n : Nat) : Keeps T s (s.advance n) := withCpu_keeps ..

theorem ppuTime_mono (s : State) {m n : Nat} (h : m ≤ n) : s.ppuTime m ≤ s.ppuTime n := by
  unfold State.ppuTime; omega

theorem devAt_keeps (s : State) (stamp : Nat) : DotKeeps s.dev (s.devAt stamp) := syncTo_keeps ..

theorem devAt_dotClock (s : State) (stamp : Nat) :
    (s.devAt stamp).ppu.time.dotClock = max s.dev.ppu.time.dotClock (s.ppuTime stamp) := syncTo_dotClock ..

theorem sync_keeps {T stamp : Nat} (h : stamp ≤ T) (s : State) : Keeps T s (s.sync stamp) where
  cycles := rfl
  params := rfl
  unsupported := rfl
  header := (devAt_keeps s stamp).header
  prg := (devAt_keeps s stamp).prg
  nmi := (devAt_keeps s stamp).nmi
  ok := fun ho => ⟨syncTo_inv _ _ ho.1, ho.2.1, ho.2.2.1, by
    have h1 := devAt_dotClock s stamp
    have h2 := ho.2.2.2
    have h3 := ppuTime_mono s h
    show (s.devAt stamp).ppu.time.dotClock ≤ s.ppuTime T
    omega⟩

theorem sameStores.refl (s : State) : sameStores s s := ⟨rfl, rfl, rfl, rfl, rfl, rfl, rfl, rfl⟩

theorem sameStores.trans {s t u : State} (h : sameStores s t) (k : sameStores t u) : sameStores s u := by
  obtain ⟨h1, h2, h3, h4, h5, h6, h7, h8⟩ := h
  obtain ⟨k1, k2, k3, k4, k5, k6, k7, k8⟩ := k
  exact ⟨k1.trans h1, k2.trans h2, k3.trans h3, k4.trans h4, k5.trans h5, k6.trans h6, k7.trans h7, k8.trans h8⟩

/-- What a read leaves alone: all of `Keeps`, the CPU's registers, every memory, the windows and the DMA count. -/
structure ReadKeeps (T : Nat) (s t : State) : Prop where
  keeps : Keeps T s t
  cpu : t.cpu = s.cpu
  ram : t.ram = s.ram
  stores : sameStores s t
  pendingDma : t.pendingDma = s.pendingDma

theorem ReadKeeps.wram {T : Nat} {s t : State} (h : ReadKeeps T s t) : t.dev.cart.wram = s.dev.cart.wram := h.stores.2.2.1

theorem ReadKeeps.windows {T : Nat} {s t : State} (h : ReadKeeps T s t) : t.dev.cart.windows = s.dev.cart.windows :=
  h.stores.2.2.2.2.1

theorem ReadKeeps.refl (T : Nat) (s : State) : ReadKeeps T s s := ⟨.refl T s, rfl, rfl, .refl s, rfl⟩

theorem ReadKeeps.trans {T : Nat} {s t u : State} (h : ReadKeeps T s t) (k : ReadKeeps T t u) : ReadKeeps T s u :=
  ⟨h.keeps.trans k.keeps, k.cpu.trans h.cpu, k.ram.trans h.ram, h.stores.trans k.stores, k.pendingDma.trans h.pendingDma⟩

theorem withHost_reads (T : Nat) (s : State) (h : HostSide) : ReadKeeps T s (s.withHost h) :=
  ⟨withHost_keeps .., rfl, rfl, .refl s, rfl⟩

theorem readPort_keeps {T stamp : Nat} (h : stamp ≤ T) (s : State) (a : Word) :
    ReadKeeps T s (s.readPort a stamp).2 := by
  have k := devAt_keeps s stamp
  have r := portRead_keeps s.params (s.ppuTime stamp) (a.toNat % 8) (s.devAt stamp)
  refine ⟨⟨rfl, rfl, rfl, r.header.trans k.header, r.prg.trans k.prg, fun hn => r.nmi (k.nmi hn), fun ho => ?_⟩,
    rfl, rfl, ?_, rfl⟩
  · refine ⟨portRead_inv _ _ _ ((sync_keeps h s).ok ho).1, ho.2.1, ho.2.2.1, ?_⟩
    have h1 := ((sync_keeps h s).ok ho).2.2.2
    show (portRead s.params (s.ppuTime stamp) (a.toNat % 8) (s.devAt stamp)).2.ppu.time.dotClock ≤ _
    rw [r.time]
    exact h1
  · exact ⟨r.header.trans k.header, r.prg.trans k.prg, r.wram.trans k.wram, (portRead_stores ..).1.trans k.chr,
      r.windows.trans k.windows, (portRead_stores ..).2.1.trans k.ciram, (portRead_stores ..).2.2.1.trans k.palette,
      (portRead_stores ..).2.2.2.trans k.oam⟩

/-- What a read of any address can do. -/
theorem memRead_keeps {T stamp : Nat} (h : stamp ≤ T) (a : Word) (s : State) : ReadKeeps T s (memRead a stamp s).2 := by
  unfold memRead
  simp only []
  split
  · exact .refl T s
  · split
    · exact readPort_keeps h s a
    · split
      · split
        · unfold State.apuStatus; split <;> exact withHost_reads ..
        · split
          · exact withHost_reads ..
          · split
            · exact withHost_reads ..
            · exact .refl T s
      · split <;> exact .refl T s

/-- A read of a plain byte gives what it gave before any other read. -/
theorem memRead_byte_of_reads {T : Nat} {s t : State} (k : ReadKeeps T s t) : samePlainBytes s t := by
  intro a stamp h
  rcases h with h | h
  · rw [memRead_ram h, memRead_ram h, k.ram]
  · by_cases h' : a.toNat < 0x8000
    · rw [memRead_wram h h', memRead_wram h h']; simp only [Cartridge.readWram, k.wram]
    · rw [memRead_prg (by omega), memRead_prg (by omega)]
      simp only [Cartridge.readPrg, Cartridge.prgOffset, k.keeps.prg, k.windows]

theorem read16wrap_keeps {T stamp : Nat} (h : stamp + 1 ≤ T) (a : Word) (s : State) :
    ReadKeeps T s (read16wrap a stamp s).2 :=
  (memRead_keeps (by omega) a s).trans (memRead_keeps h (wrapNext a) _)

theorem read16_keeps {T stamp : Nat} (h : stamp + 1 ≤ T) (a : Word) (s : State) : ReadKeeps T s (read16 a stamp s).2 :=
  (memRead_keeps (by omega) a s).trans (memRead_keeps h (a + 1) _)

/-! ## Writes -/

theorem withDev_keeps {T : Nat} {s : State} {d : Devices} (hh : d.cart.header = s.dev.cart.header)
    (hp : d.cart.prg = s.dev.cart.prg) (hn : s.dev.nmiPending = true → d.nmiPending = true)
    (hi : s.Ok T → d.Inv ∧ d.ppu.time.dotClock ≤ s.ppuTime T) : Keeps T s (s.withDev d) :=
  ⟨rfl, rfl, rfl, hh, hp, hn, fun ho => ⟨(hi ho).1, ho.2.1, ho.2.2.1, (hi ho).2⟩⟩

theorem withRam_keeps {T : Nat} {s : State} {i : Nat} (hi : i < 2048) (v : Byte) :
    Keeps T s (s.withRam (s.ram.write i v)) :=
  ⟨rfl, rfl, rfl, rfl, rfl, id, fun ho =>
    ⟨ho.1, Memory.wf_write ho.2.1 _ _, Memory.below_write ho.2.2.1 hi _, ho.2.2.2⟩⟩

theorem dmaCopy_keeps {T stamp : Nat} (h : stamp ≤ T) (page : Byte) (fuel : Nat) (s : State) :
    Keeps T s (dmaCopy page stamp fuel s) ∧ (dmaCopy page stamp fuel s).cpu = s.cpu ∧
    (dmaCopy page stamp fuel s).ram = s.ram := by
  induction fuel generalizing s with
  | zero => exact ⟨.refl T s, rfl, rfl⟩
  | succ fuel ih =>
    have r := memRead_keeps h (joinBytes page (BitVec.ofNat 8 (255 - fuel))) s
    generalize hm : memRead (joinBytes page (BitVec.ofNat 8 (255 - fuel))) stamp s = m at r
    have w : Keeps T m.2 (m.2.withDev (m.2.dev.writeOam (m.2.dev.ppu.regs.oamaddr + BitVec.ofNat 8 (255 - fuel)) m.1)) :=
      withDev_keeps rfl rfl id fun ho => ⟨writeOam_inv ho.1 _ _, ho.2.2.2⟩
    have i := ih (m.2.withDev (m.2.dev.writeOam (m.2.dev.ppu.regs.oamaddr + BitVec.ofNat 8 (255 - fuel)) m.1))
    simp only [dmaCopy, hm]
    exact ⟨(r.keeps.trans w).trans i.1, i.2.1.trans r.cpu, i.2.2.trans r.ram⟩

/-- What a write of any address can do. -/
theorem memWrite_keeps {T stamp : Nat} (h : stamp ≤ T) (a : Word) (v : Byte) (s : State) :
    Keeps T s (memWrite a v stamp s) ∧ (memWrite a v stamp s).cpu = s.cpu := by
  unfold memWrite
  simp only []
  split
  · exact ⟨withRam_keeps (Nat.mod_lt _ (by omega)) v, rfl⟩
  · split
    · have k := devAt_keeps s stamp
      have w := portWrite_keeps s.params (s.ppuTime stamp) (a.toNat % 8) v (s.devAt stamp)
      refine ⟨withDev_keeps (w.header.trans k.header) (w.prg.trans k.prg) (fun hn => w.nmi (k.nmi hn)) fun ho =>
        ⟨portWrite_inv _ _ _ _ ((sync_keeps h s).ok ho).1, ?_⟩, rfl⟩
      rw [w.time]; exact ((sync_keeps h s).ok ho).2.2.2
    · split
      · split
        · have c := dmaCopy_keeps h v 256 (s.sync stamp)
          exact ⟨((sync_keeps h s).trans c.1).trans (withPendingDma_keeps ..), c.2.1⟩
        · split
          · exact ⟨withHost_keeps .., rfl⟩
          · split
            · exact ⟨withHost_keeps .., rfl⟩
            · exact ⟨.refl T s, rfl⟩
      · split
        · exact ⟨withDev_keeps rfl rfl id fun ho => ⟨writeWram_inv ho.1 (by assumption) v, ho.2.2.2⟩, rfl⟩
        · have k := devAt_keeps s stamp
          refine ⟨withDev_keeps k.header k.prg k.nmi fun ho => ?_, rfl⟩
          exact ⟨mapperWrite_inv _ ((sync_keeps h s).ok ho).1 a v stamp, ((sync_keeps h s).ok ho).2.2.2⟩

/-- A write of RAM (R202). -/
theorem memWrite_ram {a : Word} (h : a.toNat < 0x2000) (v : Byte) (stamp : Nat) (s : State) :
    memWrite a v stamp s = s.withRam (s.ram.write (a.toNat % 0x800) v) := by simp [memWrite, h]

/-- A write of WRAM (R207). -/
theorem memWrite_wram {a : Word} (h : 0x6000 ≤ a.toNat) (h' : a.toNat < 0x8000) (v : Byte) (stamp : Nat) (s : State) :
    memWrite a v stamp s = s.withDev { s.dev with cart := s.dev.cart.writeWram a v } := by
  have h1 : ¬ a.toNat < 0x2000 := by omega
  have h2 : ¬ a.toNat < 0x4000 := by omega
  have h3 : ¬ a.toNat < 0x6000 := by omega
  simp [memWrite, h1, h2, h3, h']

/-- A store to RAM or WRAM: the stored byte reads as written, every other plain byte as before. -/
theorem memRead_memWrite {a b : Word} (ha : storeAddr a) (hb : plainAddr b) (v : Byte) (m n : Nat) (s : State) :
    (memRead b n (memWrite a v m s)).1 = if sameByte a b then v else (memRead b n s).1 := by
  have hab : a.toNat = b.toNat → a = b := BitVec.eq_of_toNat_eq
  rcases ha with ha | ⟨ha, ha'⟩
  · rw [memWrite_ram ha]
    by_cases hb1 : b.toNat < 0x2000
    · rw [memRead_ram hb1, memRead_ram hb1]
      simp only [State.withRam_ram, Memory.read_write]
      by_cases he : a.toNat % 0x800 = b.toNat % 0x800
      · rw [if_pos he, if_pos (.inr ⟨ha, hb1, he⟩)]
      · rw [if_neg he, if_neg]
        rintro (rfl | ⟨-, -, h⟩)
        · exact he rfl
        · exact he h
    · have hn : ¬ sameByte a b := by
        rintro (rfl | ⟨-, h, -⟩)
        · exact hb1 ha
        · exact hb1 h
      rw [if_neg hn]
      by_cases hb2 : b.toNat < 0x8000
      · rw [memRead_wram (by rcases hb with h | h <;> omega) hb2, memRead_wram (by rcases hb with h | h <;> omega) hb2]; rfl
      · rw [memRead_prg (by omega), memRead_prg (by omega)]; rfl
  · rw [memWrite_wram ha ha']
    by_cases hb1 : b.toNat < 0x2000
    · rw [memRead_ram hb1, memRead_ram hb1, if_neg]
      · rfl
      · rintro (rfl | ⟨h, -, -⟩) <;> omega
    · by_cases hb2 : b.toNat < 0x8000
      · have hb3 : 0x6000 ≤ b.toNat := by rcases hb with h | h <;> omega
        rw [memRead_wram hb3 hb2, memRead_wram hb3 hb2]
        simp only [Cartridge.readWram, Cartridge.writeWram, State.withDev_dev, Memory.read_write]
        by_cases he : a = b
        · subst he; simp
        · rw [if_neg, if_neg]
          · rintro (h | ⟨h, -, -⟩)
            · exact he h
            · omega
          · intro h; exact he (hab (by omega))
      · rw [memRead_prg (by omega), memRead_prg (by omega), if_neg]
        · rfl
        · rintro (rfl | ⟨h, -, -⟩) <;> omega

/-! ## Accesses do not look at the CPU's registers -/

/-- A read answers the same, and does the same, whatever the CPU's registers hold. -/
theorem memRead_withCpu (a : Word) (stamp : Nat) (s : State) (c : Cpu) :
    memRead a stamp (s.withCpu c) = ((memRead a stamp s).1, (memRead a stamp s).2.withCpu c) := by
  unfold memRead
  simp only []
  split
  · rfl
  · split
    · rfl
    · split
      · split
        · simp only [State.apuStatus, State.withCpu_host]; split <;> rfl
        · split
          · rfl
          · split <;> rfl
      · split <;> rfl

theorem dmaCopy_withCpu (page : Byte) (stamp fuel : Nat) (s : State) (c : Cpu) :
    dmaCopy page stamp fuel (s.withCpu c) = (dmaCopy page stamp fuel s).withCpu c := by
  induction fuel generalizing s with
  | zero => rfl
  | succ fuel ih =>
    simp only [dmaCopy, memRead_withCpu]
    have h : ∀ (t : State) (d : Devices), (t.withCpu c).withDev d = (t.withDev d).withCpu c := fun _ _ => rfl
    rw [h, ih]
    rfl

/-- A write does the same whatever the CPU's registers hold. -/
theorem memWrite_withCpu (a : Word) (v : Byte) (stamp : Nat) (s : State) (c : Cpu) :
    memWrite a v stamp (s.withCpu c) = (memWrite a v stamp s).withCpu c := by
  unfold memWrite
  simp only []
  split
  · rfl
  · split
    · rfl
    · split
      · split
        · have h : State.sync stamp (s.withCpu c) = (State.sync stamp s).withCpu c := rfl
          simp only [oamDma, h, dmaCopy_withCpu]; rfl
        · split
          · rfl
          · split <;> rfl
      · split <;> rfl

theorem read16wrap_withCpu (a : Word) (stamp : Nat) (s : State) (c : Cpu) :
    read16wrap a stamp (s.withCpu c) = ((read16wrap a stamp s).1, (read16wrap a stamp s).2.withCpu c) := by
  simp only [read16wrap, memRead_withCpu]

theorem read16_withCpu (a : Word) (stamp : Nat) (s : State) (c : Cpu) :
    read16 a stamp (s.withCpu c) = ((read16 a stamp s).1, (read16 a stamp s).2.withCpu c) := by
  simp only [read16, memRead_withCpu]

/-! ## The stack -/

theorem stackAddr_mod (sp : Byte) : (stackAddr sp).toNat % 0x800 = 0x100 + sp.toNat := by
  rw [stackAddr_toNat]; have := sp.isLt; omega

/-- A push: one byte of page 1, and S (R102, R550). -/
theorem push_eq (v : Byte) (stamp : Nat) (s : State) :
    push v stamp s = (s.withRam (s.ram.write (0x100 + s.cpu.s.toNat) v)).withCpu (s.cpu.withS (s.cpu.s - 1)) := by
  simp only [push, memWrite_ram (stackAddr_lt _), stackAddr_mod]; rfl

/-- A pull: a byte of page 1, and S (R102, R550). -/
theorem pull_eq (stamp : Nat) (s : State) :
    pull stamp s = (s.ram.read (0x100 + (s.cpu.s + 1).toNat), s.withCpu (s.cpu.withS (s.cpu.s + 1))) := by
  simp only [pull, State.withCpu_cpu, Cpu.withS_s, memRead_ram (stackAddr_lt _), stackAddr_mod]; rfl

theorem pushWord_eq (w : Word) (stamp : Nat) (s : State) :
    pushWord w stamp s =
      (s.withRam ((s.ram.write (0x100 + s.cpu.s.toNat) (highByte w)).write (0x100 + (s.cpu.s - 1).toNat) (lowByte w))).withCpu
        (s.cpu.withS (s.cpu.s - 1 - 1)) := by
  simp only [pushWord, push_eq]; rfl

theorem pullWord_eq (stamp : Nat) (s : State) :
    pullWord stamp s =
      (joinBytes (s.ram.read (0x100 + (s.cpu.s + 1 + 1).toNat)) (s.ram.read (0x100 + (s.cpu.s + 1).toNat)),
        s.withCpu (s.cpu.withS (s.cpu.s + 1 + 1))) := by
  simp only [pullWord, pull_eq]; rfl

/-- A pull after a push gives the byte back and S as it was. -/
theorem pull_push (v : Byte) (m n : Nat) (s : State) :
    pull n (push v m s) = (v, s.withRam (s.ram.write (0x100 + s.cpu.s.toNat) v)) := by
  simp only [pull_eq, push_eq, State.withCpu_cpu, Cpu.withS_s, BitVec.sub_add_cancel, State.withCpu_ram, State.withRam_ram,
    Memory.read_write_same]
  rfl

theorem push_keeps (T : Nat) (v : Byte) (stamp : Nat) (s : State) : Keeps T s (push v stamp s) := by
  rw [push_eq]
  exact (withRam_keeps (by have := s.cpu.s.isLt; omega) v).trans (withCpu_keeps ..)

theorem pull_keeps (T : Nat) (stamp : Nat) (s : State) : Keeps T s (pull stamp s).2 := by
  rw [pull_eq]; exact withCpu_keeps ..

theorem pushWord_keeps (T : Nat) (w : Word) (stamp : Nat) (s : State) : Keeps T s (pushWord w stamp s) :=
  (push_keeps T _ _ s).trans (push_keeps T _ _ _)

theorem pullWord_keeps (T : Nat) (stamp : Nat) (s : State) : Keeps T s (pullWord stamp s).2 := by
  rw [pullWord_eq]; exact withCpu_keeps ..

/-! ## Interrupts -/

theorem read16_prg {a : Word} (h : 0x8000 ≤ a.toNat) (h' : a.toNat < 0xFFFF) (stamp : Nat) (s : State) :
    read16 a stamp s = (joinBytes (s.dev.cart.readPrg (a + 1)) (s.dev.cart.readPrg a), s) := by
  have hs : (a + 1).toNat = a.toNat + 1 := by
    have : (1 : Word).toNat = 1 := rfl
    rw [BitVec.toNat_add, this]; omega
  simp only [read16, memRead_prg h, memRead_prg (a := a + 1) (by omega)]

theorem enterInterrupt_keeps (T : Nat) {vector : Word} (h : 0x8000 ≤ vector.toNat) (h' : vector.toNat < 0xFFFF) (b : Bool)
    (ret : Word) (s : State) : Keeps T s (enterInterrupt vector b ret s) := by
  simp only [enterInterrupt, read16_prg h h']
  exact (((pushWord_keeps T _ _ s).trans (push_keeps T _ _ _)).trans (withCpu_keeps ..)).trans (withCpu_keeps ..)

/-- What an interrupt entry does: three bytes of page 1, S three lower, I set and PC from the vector (R1120, R1123). -/
theorem enterInterrupt_eq {vector : Word} (h : 0x8000 ≤ vector.toNat) (h' : vector.toNat < 0xFFFF) (b : Bool) (ret : Word)
    (s : State) :
    enterInterrupt vector b ret s =
      (s.withRam (((s.ram.write (0x100 + s.cpu.s.toNat) (highByte ret)).write (0x100 + (s.cpu.s - 1).toNat)
        (lowByte ret)).write (0x100 + (s.cpu.s - 1 - 1).toNat) (s.cpu.p.pack b))).withCpu
        { s.cpu with
          s := s.cpu.s - 1 - 1 - 1
          p := { s.cpu.p with i := true }
          pc := joinBytes (s.dev.cart.readPrg (vector + 1)) (s.dev.cart.readPrg vector) } := by
  simp only [enterInterrupt, read16_prg h h', pushWord_eq, push_eq]
  rfl

theorem returnFromInterrupt_keeps (T : Nat) (s : State) : Keeps T s (returnFromInterrupt s) := by
  simp only [returnFromInterrupt]
  exact (((pull_keeps T _ s).trans (withCpu_keeps ..)).trans (pullWord_keeps T _ _)).trans (withCpu_keeps ..)

/-- What a return from interrupt does: S three higher, P and PC from page 1 (R714). -/
theorem returnFromInterrupt_eq (s : State) :
    returnFromInterrupt s = s.withCpu
      { s.cpu with
        s := s.cpu.s + 1 + 1 + 1
        p := Flags.unpack (s.ram.read (0x100 + (s.cpu.s + 1).toNat))
        pc := joinBytes (s.ram.read (0x100 + (s.cpu.s + 1 + 1 + 1).toNat)) (s.ram.read (0x100 + (s.cpu.s + 1 + 1).toNat)) } := by
  simp only [returnFromInterrupt, pull_eq, pullWord_eq]
  rfl

/-! ## Operands -/

/-- The pointer of (zp,X) and (zp),Y is read from page 0, with no side effect. -/
theorem read16wrap_zp (z : Byte) (stamp : Nat) (s : State) :
    read16wrap (zext16 z) stamp s = (joinBytes (s.ram.read (z + 1).toNat) (s.ram.read z.toNat), s) := by
  have h := zext16_lt z
  have h' := zext16_lt (z + 1)
  have e : ∀ b : Byte, (zext16 b).toNat % 0x800 = b.toNat := fun b => by rw [zext16_toNat]; have := b.isLt; omega
  simp only [read16wrap, wrapNext_zext16, memRead_ram (a := zext16 z) (by omega), memRead_ram (a := zext16 (z + 1)) (by omega), e]

/-- No addressing mode changes the state. -/
@[simp] theorem locate_state (m : MemMode) (s : State) : (locate m s).state = s := by
  cases m <;> simp only [locate, read16wrap_zp] <;> rfl

/-- Where an operand lies does not depend on PC. -/
theorem locate_advance (m : MemMode) (n : Nat) (s : State) :
    (locate m (s.advance n)).ea = (locate m s).ea ∧ (locate m (s.advance n)).cross = (locate m s).cross := by
  cases m <;> simp only [locate, read16wrap_zp] <;> constructor <;> trivial

/-- What an operand reads does not depend on PC. -/
theorem readOperand_advance (o : ReadOperand) (n : Nat) (s : State) :
    (readOperand o (s.advance n)).value = (readOperand o s).value ∧
    (readOperand o (s.advance n)).cost = (readOperand o s).cost ∧
    (readOperand o (s.advance n)).state = (readOperand o s).state.withCpu (s.advance n).cpu := by
  cases o with
  | imm b => exact ⟨rfl, rfl, rfl⟩
  | mem m =>
    obtain ⟨h1, h2⟩ := locate_advance m n s
    have hw : s.advance n = s.withCpu (s.advance n).cpu := rfl
    simp only [readOperand, locate_state, h1, h2, State.advance_cycles]
    refine ⟨?_, trivial, ?_⟩
    · rw [hw, memRead_withCpu]
    · rw [hw, memRead_withCpu]; rfl

theorem readOperand_keeps {T : Nat} (o : ReadOperand) (s : State) (h : s.cycles + (readOperand o s).cost ≤ T) :
    ReadKeeps T s (readOperand o s).state := by
  cases o with
  | imm b => exact .refl T s
  | mem m =>
    simp only [readOperand, locate_state] at h ⊢
    exact memRead_keeps (by omega) _ _

theorem readCost_pos (m : MemMode) : 3 ≤ readCost m := by cases m <;> simp [readCost]

theorem writeCost_pos (m : MemMode) : 3 ≤ writeCost m := by cases m <;> simp [writeCost]

theorem rmwCost_pos (m : RmwMode) : 5 ≤ rmwCost m := by cases m <;> simp [rmwCost]

theorem readOperand_cost (o : ReadOperand) (s : State) : 2 ≤ (readOperand o s).cost ∧ (readOperand o s).cost ≤ 7 := by
  cases o with
  | imm b => simp [readOperand]
  | mem m =>
    have h : readCost m ≤ 6 := by cases m <;> simp [readCost]
    have h' := readCost_pos m
    simp only [readOperand]
    split <;> omega

/-! ## The end of a step -/

theorem stealDma_ge (base n c : Nat) : c ≤ stealDma base n c := by
  induction n generalizing c with
  | zero => exact Nat.le_refl c
  | succ n ih => exact Nat.le_trans (by omega) (ih _)

/-- A boundary restores the whole invariant, whatever DMA the step left pending. -/
theorem boundary_inv {s : State} (h : s.Ok s.cycles) : s.boundary.Inv := by
  have hc : s.cycles ≤ s.settleDma.cycles := stealDma_ge ..
  have hd : s.settleDma.dev.ppu.time.dotClock ≤ s.settleDma.ppuTime s.settleDma.cycles :=
    Nat.le_trans h.2.2.2 (ppuTime_mono s hc)
  refine ⟨syncTo_inv _ _ h.1, h.2.1, h.2.2.1, rfl, ?_⟩
  show (s.settleDma.devAt s.settleDma.cycles).ppu.time.dotClock = _
  rw [devAt_dotClock]
  exact Nat.max_eq_right hd

theorem boundary_cycles (s : State) : s.boundary.cycles = stealDma s.params.oamDmaBase s.pendingDma s.cycles := rfl

theorem boundary_keeps (s : State) :
    s.boundary.cpu = s.cpu ∧ s.boundary.ram = s.ram ∧ s.boundary.params = s.params ∧ s.boundary.host = s.host ∧
    s.boundary.unsupportedSeen = s.unsupportedSeen ∧ s.boundary.pendingDma = 0 ∧ DotKeeps s.dev s.boundary.dev :=
  ⟨rfl, rfl, rfl, rfl, rfl, rfl, syncTo_keeps ..⟩

/-- The invariant at a boundary is the one inside a step, with the PPU at the boundary's own cycle. -/
theorem State.Inv.ok {s : State} (h : s.Inv) {T : Nat} (hT : s.cycles ≤ T) : s.Ok T :=
  ⟨h.1, h.2.1, h.2.2.1, by rw [h.2.2.2.2]; exact ppuTime_mono s hT⟩

/-- What a fetch reads: the row of the opcode byte, and as many operand bytes as it takes (R402, R450); JSR's second one is
read later, by the instruction (R712). -/
theorem fetch_eq (s : State) :
    fetch s =
      (let r0 := memRead s.cpu.pc s.cycles s
       let r1 := memRead (s.cpu.pc + 1) (s.cycles + 1) r0.2
       let r2 := memRead (s.cpu.pc + 2) (s.cycles + 2) r1.2
       ((opRow r0.1).assemble r1.1 r2.1,
        if (opRow r0.1).operands = 0 then r0.2
        else if (opRow r0.1).operands = 1 ∨ r0.1 = 0x20 then r1.2
        else r2.2)) := by
  unfold fetch
  simp only []
  cases h : opRow (memRead s.cpu.pc s.cycles s).1 with
  | one i => simp [OpRow.operands, OpRow.assemble]
  | two f => simp [OpRow.operands, OpRow.assemble]
  | three f => simp [OpRow.operands, OpRow.assemble]

end Sys2Proof.Machine
end

