-- ==== Sys2Proof/Laws/Exec.lean ====
section
/-! SUPPORT. One law per shape of instruction (Machine/Operands.lean) and per flag computation (Machine/Flags.lean): the next
state in terms of the state before. -/

namespace Sys2Proof.Machine

/-! ## Flags as numbers -/

/-- `setNZ` as the rule words it (R15). -/
theorem Flags.setNZ_eq (f : Flags) (v : Byte) : f.setNZ v = nz v f := by
  have h : ∀ v : Byte, v.getLsbD 7 = decide (0x80 ≤ v.toNat) := by decide
  have h' : ∀ v : Byte, (v == 0) = decide (v = 0) := by decide
  simp only [Flags.setNZ, nz, h, h']

@[simp] theorem nz_c (v : Byte) (f : Flags) : (nz v f).c = f.c := rfl
@[simp] theorem nz_v (v : Byte) (f : Flags) : (nz v f).v = f.v := rfl
@[simp] theorem nz_i (v : Byte) (f : Flags) : (nz v f).i = f.i := rfl
@[simp] theorem nz_d (v : Byte) (f : Flags) : (nz v f).d = f.d := rfl
@[simp] theorem nz_b (v : Byte) (f : Flags) : (nz v f).b = f.b := rfl
@[simp] theorem nz_n (v : Byte) (f : Flags) : (nz v f).n = decide (0x80 ≤ v.toNat) := rfl
@[simp] theorem nz_z (v : Byte) (f : Flags) : (nz v f).z = decide (v = 0) := rfl

theorem flagBit_le (b : Bool) : flagBit b ≤ 1 := by cases b <;> simp [flagBit]

/-- Bit 7 of a byte, as a bound on its number. -/
theorem msb_eq (b : Byte) : b.getLsbD 7 = decide (0x80 ≤ b.toNat) := by revert b; decide

/-- The overflow expression of ADC in terms of the three sign bits (R610). -/
theorem addOverflow_eq (x y z : Byte) :
    ((~~~(x ^^^ y) &&& (x ^^^ z) &&& 0x80) != 0) =
      (decide (0x80 ≤ x.toNat) == decide (0x80 ≤ y.toNat) && decide (0x80 ≤ x.toNat) != decide (0x80 ≤ z.toNat)) := by
  have h : ∀ w : Byte, ((w &&& 0x80) != 0) = w.getLsbD 7 := by decide
  rw [h, ← msb_eq, ← msb_eq, ← msb_eq]
  simp
  cases x[7] <;> cases y[7] <;> cases z[7] <;> rfl

/-- The overflow expression of SBC in terms of the three sign bits (R611). -/
theorem subOverflow_eq (x y z : Byte) :
    (((x ^^^ y) &&& (x ^^^ z) &&& 0x80) != 0) =
      (decide (0x80 ≤ x.toNat) != decide (0x80 ≤ y.toNat) && decide (0x80 ≤ x.toNat) != decide (0x80 ≤ z.toNat)) := by
  have h : ∀ w : Byte, ((w &&& 0x80) != 0) = w.getLsbD 7 := by decide
  rw [h, ← msb_eq, ← msb_eq, ← msb_eq]
  simp

/-! ## Operands and accesses keep the registers -/

@[simp] theorem readOperand_cpu (o : ReadOperand) (s : State) : (readOperand o s).state.cpu = s.cpu :=
  (readOperand_keeps (T := s.cycles + (readOperand o s).cost) o s (Nat.le_refl _)).cpu

@[simp] theorem readOperand_cycles (o : ReadOperand) (s : State) : (readOperand o s).state.cycles = s.cycles :=
  (readOperand_keeps (T := s.cycles + (readOperand o s).cost) o s (Nat.le_refl _)).keeps.cycles

@[simp] theorem memRead_cpu (a : Word) (stamp : Nat) (s : State) : (memRead a stamp s).2.cpu = s.cpu :=
  (memRead_keeps (Nat.le_refl stamp) a s).cpu

@[simp] theorem memRead_cycles (a : Word) (stamp : Nat) (s : State) : (memRead a stamp s).2.cycles = s.cycles :=
  (memRead_keeps (Nat.le_refl stamp) a s).keeps.cycles

@[simp] theorem memWrite_cpu (a : Word) (v : Byte) (stamp : Nat) (s : State) : (memWrite a v stamp s).cpu = s.cpu :=
  (memWrite_keeps (Nat.le_refl stamp) a v s).2

@[simp] theorem memWrite_cycles (a : Word) (v : Byte) (stamp : Nat) (s : State) : (memWrite a v stamp s).cycles = s.cycles :=
  (memWrite_keeps (Nat.le_refl stamp) a v s).1.cycles

/-! ## Shapes of instructions -/

/-- A read-kind instruction: the operand's one access, the registers, PC and the clock. -/
theorem readInstr_eq (o : ReadOperand) (f : Byte → Cpu → Cpu) (s : State) :
    readInstr o f s =
      ((readOperand o s).state.withCpu (f (readOperand o s).value (s.advance (1 + o.size)).cpu)).charge
        (readOperand o s).cost := by
  obtain ⟨h1, h2, h3⟩ := readOperand_advance o (1 + o.size) s
  simp only [readInstr, h1, h2, h3]
  rfl

/-- A write-kind instruction: one write of the effective address, PC and the clock. -/
theorem writeInstr_eq (m : MemMode) (v : Cpu → Byte) (s : State) :
    writeInstr m v s =
      ((memWrite (locate m s).ea (v (s.advance (1 + m.size)).cpu) (s.cycles + writeCost m - 1) s).withCpu
        (s.advance (1 + m.size)).cpu).charge (writeCost m) := by
  have hw : s.advance (1 + m.size) = s.withCpu (s.advance (1 + m.size)).cpu := rfl
  simp only [writeInstr, (locate_advance m (1 + m.size) s).1, locate_state]
  rw [hw, memWrite_withCpu]
  rfl

/-- A read-modify-write instruction: a read and two writes of the effective address, the flags, PC and the clock. -/
theorem rmwInstr_eq (m : RmwMode) (f : Byte → Flags → Byte × Flags) (s : State) :
    rmwInstr m f s =
      (let n := rmwCost m
       let ea := (locate m.toMem s).ea
       let r := memRead ea (s.cycles + n - 3) s
       let new := f r.1 s.cpu.p
       ((memWrite ea new.1 (s.cycles + n - 1) (memWrite ea r.1 (s.cycles + n - 2) r.2)).withCpu
         ((s.advance (1 + m.toMem.size)).cpu.withP new.2)).charge n) := by
  have hw : s.advance (1 + m.toMem.size) = s.withCpu (s.advance (1 + m.toMem.size)).cpu := rfl
  simp only [rmwInstr, (locate_advance m.toMem (1 + m.toMem.size) s).1, locate_state]
  rw [hw]
  simp only [memRead_withCpu, memWrite_withCpu, State.withCpu_cpu]
  rfl

/-! ## What any instruction can do -/

theorem memWrite_pendingDma (a : Word) (v : Byte) (m : Nat) (s : State) :
    (memWrite a v m s).pendingDma ≤ s.pendingDma + 1 := by
  have hd : ∀ fuel s, (dmaCopy v m fuel s).pendingDma = s.pendingDma := by
    intro fuel
    induction fuel with
    | zero => intro s; rfl
    | succ n ih =>
      intro s
      simp only [dmaCopy, ih, State.withDev_pendingDma]
      exact (memRead_keeps (Nat.le_refl m) _ s).pendingDma
  unfold memWrite
  simp only []
  split
  · exact Nat.le_succ _
  · split
    · exact Nat.le_succ _
    · split
      · split
        · simp only [oamDma, State.withPendingDma_pendingDma, hd]; exact Nat.le_refl _
        · split
          · exact Nat.le_succ _
          · split <;> exact Nat.le_succ _
      · split <;> exact Nat.le_succ _

/-- What an instruction of `len` bytes can do to the clock, the latches and the fixed parts of the machine. -/
structure Ran (len : Nat) (s t : State) : Prop where
  later : s.cycles + len ≤ t.cycles
  bound : t.cycles ≤ s.cycles + 7
  dma : t.pendingDma ≤ s.pendingDma + 2
  params : t.params = s.params
  header : t.dev.cart.header = s.dev.cart.header
  prg : t.dev.cart.prg = s.dev.cart.prg
  nmi : s.dev.nmiPending = true → t.dev.nmiPending = true
  ok : s.Ok t.cycles → t.Ok t.cycles

theorem Ran.of_keeps {len n : Nat} {s t : State} (h : len ≤ n) (h7 : n ≤ 7) (k : Keeps (s.cycles + n) s t)
    (hd : t.pendingDma ≤ s.pendingDma + 2) : Ran len s (t.charge n) where
  later := by show _ ≤ t.cycles + n; rw [k.cycles]; omega
  bound := by show t.cycles + n ≤ _; rw [k.cycles]; omega
  dma := hd
  params := k.params
  header := k.header
  prg := k.prg
  nmi := k.nmi
  ok := by
    have hc : (t.charge n).cycles = s.cycles + n := by show t.cycles + n = _; rw [k.cycles]
    rw [hc]
    exact k.ok

theorem readInstr_ran (o : ReadOperand) (f : Byte → Cpu → Cpu) (s : State) : Ran (1 + o.size) s (readInstr o f s) := by
  rw [readInstr_eq]
  have c := readOperand_cost o s
  have h : 1 + o.size ≤ (readOperand o s).cost := by
    cases o with
    | imm b => exact Nat.le_refl 2
    | mem m =>
      have : 1 + m.size ≤ readCost m := by cases m <;> simp [readCost, MemMode.size]
      simp only [readOperand, ReadOperand.size]; omega
  have k := readOperand_keeps (T := s.cycles + (readOperand o s).cost) o s (Nat.le_refl _)
  refine .of_keeps h c.2 (k.keeps.trans (withCpu_keeps ..)) ?_
  show (readOperand o s).state.pendingDma ≤ _
  rw [k.pendingDma]; omega

theorem writeInstr_ran (m : MemMode) (v : Cpu → Byte) (s : State) : Ran (1 + m.size) s (writeInstr m v s) := by
  rw [writeInstr_eq]
  have h : 1 + m.size ≤ writeCost m ∧ writeCost m ≤ 6 := by cases m <;> simp [writeCost, MemMode.size]
  refine .of_keeps h.1 (by omega) ((memWrite_keeps (by omega) _ _ _).1.trans (withCpu_keeps ..)) ?_
  exact Nat.le_trans (memWrite_pendingDma ..) (by omega)

theorem rmwInstr_ran (m : RmwMode) (f : Byte → Flags → Byte × Flags) (s : State) :
    Ran (1 + m.toMem.size) s (rmwInstr m f s) := by
  rw [rmwInstr_eq]
  have h : 1 + m.toMem.size ≤ rmwCost m ∧ rmwCost m ≤ 7 := by cases m <;> simp [rmwCost, RmwMode.toMem, MemMode.size]
  have r := memRead_keeps (T := s.cycles + rmwCost m) (stamp := s.cycles + rmwCost m - 3) (by omega) (locate m.toMem s).ea s
  refine .of_keeps h.1 h.2 (((r.keeps.trans (memWrite_keeps (by omega) _ _ _).1).trans
    (memWrite_keeps (by omega) _ _ _).1).trans (withCpu_keeps ..)) ?_
  refine Nat.le_trans (memWrite_pendingDma ..) (Nat.le_trans (Nat.succ_le_succ (memWrite_pendingDma ..)) ?_)
  rw [r.pendingDma]

theorem implied_ran (f : Cpu → Cpu) (s : State) : Ran 1 s (implied f s) :=
  .of_keeps (by omega) (by omega) ((advance_keeps _ s 1).trans (withCpu_keeps ..)) (Nat.le_add_right _ _)

theorem branchInstr_ran (offset : Byte) (cond : Flags → Bool) (s : State) : Ran 2 s (branchInstr offset cond s) := by
  unfold branchInstr
  simp only []
  split
  · exact .of_keeps (by split <;> omega) (by split <;> omega) ((advance_keeps _ s 2).trans (withCpu_keeps ..))
      (Nat.le_add_right _ _)
  · exact .of_keeps (by omega) (by omega) (advance_keeps _ s 2) (Nat.le_add_right _ _)

theorem enterInterrupt_pendingDma {vector : Word} (h : 0x8000 ≤ vector.toNat) (h' : vector.toNat < 0xFFFF) (b : Bool)
    (ret : Word) (s : State) : (enterInterrupt vector b ret s).pendingDma = s.pendingDma := by
  rw [enterInterrupt_eq h h']; rfl

/-- Every instruction answers a next state, and this is all it can do to the clock and to what no instruction changes. -/
theorem exec_ran (i : Instr) (s : State) : ∃ t, exec i s = .next t ∧ Ran i.length s t := by
  cases i with
  | lda o | ldx o | ldy o | adc o | sbc o | and o | ora o | eor o | cmp o | cpx o | cpy o => exact ⟨_, rfl, readInstr_ran ..⟩
  | bit m => exact ⟨_, rfl, readInstr_ran (.mem m) ..⟩
  | sta m | stx m | sty m => exact ⟨_, rfl, writeInstr_ran ..⟩
  | inc m | dec m | asl m | lsr m | rol m | ror m => exact ⟨_, rfl, rmwInstr_ran ..⟩
  | tax | tay | txa | tya | tsx | txs | inx | iny | dex | dey | aslAcc | lsrAcc | rolAcc | rorAcc
  | clc | sec | cli | sei | cld | sed | clv | nop => exact ⟨_, rfl, implied_ran ..⟩
  | bpl o | bmi o | bvc o | bvs o | bcc o | bcs o | bne o | beq o => exact ⟨_, rfl, branchInstr_ran ..⟩
  | pha | php =>
    refine ⟨_, rfl, .of_keeps (by decide) (by omega) ((advance_keeps _ s 1).trans (push_keeps ..)) ?_⟩
    rw [push_eq]; exact Nat.le_add_right _ _
  | pla | plp =>
    refine ⟨_, rfl, .of_keeps (by decide) (by omega) (((advance_keeps _ s 1).trans (pull_keeps ..)).trans (withCpu_keeps ..)) ?_⟩
    show (pull (s.cycles + 3) (s.advance 1)).2.pendingDma ≤ _
    rw [pull_eq]; exact Nat.le_add_right _ _
  | jmp a =>
    exact ⟨_, rfl, .of_keeps (by simp [Instr.length]) (by omega) ((advance_keeps _ s 3).trans (withCpu_keeps ..)) (Nat.le_add_right _ _)⟩
  | jmpInd a =>
    have k := read16wrap_keeps (T := s.cycles + 5) (stamp := s.cycles + 3) (by omega) a (s.advance 3)
    refine ⟨_, rfl, .of_keeps (by simp [Instr.length]) (by omega) (((advance_keeps _ s 3).trans k.keeps).trans (withCpu_keeps ..)) ?_⟩
    show (read16wrap a (s.cycles + 3) (s.advance 3)).2.pendingDma ≤ _
    rw [k.pendingDma]; exact Nat.le_add_right _ _
  | jsr a =>
    have k := memRead_keeps (T := s.cycles + 6) (stamp := s.cycles + 5) (by omega) (s.cpu.pc + 2)
      (pushWord (s.cpu.pc + 2) (s.cycles + 3) (s.advance 3))
    refine ⟨_, rfl, .of_keeps (by simp [Instr.length]) (by omega)
      ((((advance_keeps _ s 3).trans (pushWord_keeps ..)).trans k.keeps).trans (withCpu_keeps ..)) ?_⟩
    show (memRead (s.cpu.pc + 2) (s.cycles + 5) (pushWord (s.cpu.pc + 2) (s.cycles + 3) (s.advance 3))).2.pendingDma ≤ _
    rw [k.pendingDma, pushWord_eq]; exact Nat.le_add_right _ _
  | rts =>
    refine ⟨_, rfl, .of_keeps (by decide) (by omega)
      (((advance_keeps _ s 1).trans (pullWord_keeps ..)).trans (withCpu_keeps ..)) ?_⟩
    show (pullWord (s.cycles + 3) (s.advance 1)).2.pendingDma ≤ _
    rw [pullWord_eq]; exact Nat.le_add_right _ _
  | rti =>
    refine ⟨_, rfl, .of_keeps (by decide) (by omega) ((advance_keeps _ s 1).trans (returnFromInterrupt_keeps ..)) ?_⟩
    show (returnFromInterrupt (s.advance 1)).pendingDma ≤ _
    rw [returnFromInterrupt_eq]; exact Nat.le_add_right _ _
  | brk =>
    refine ⟨_, rfl, .of_keeps (by decide) (by omega)
      ((advance_keeps _ s 1).trans (enterInterrupt_keeps _ (by decide) (by decide) ..)) ?_⟩
    rw [enterInterrupt_pendingDma (by decide) (by decide)]; exact Nat.le_add_right _ _
  | unsupported op =>
    exact ⟨_, rfl, ⟨Nat.le_refl _, Nat.add_le_add_left (by omega) _, Nat.le_add_right _ _, rfl, rfl, rfl, id, id⟩⟩

/-- A fetched instruction is as long as its row says. -/
theorem assemble_length (op b1 b2 : Byte) : ((opRow op).assemble b1 b2).length = 1 + (opRow op).operands := by
  have h : ∀ n : Nat, n < 256 → ((opRow (BitVec.ofNat 8 n)).assemble b1 b2).length = 1 + (opRow (BitVec.ofNat 8 n)).operands := by
    intro n hn
    interval_cases n <;> rfl
  have := h op.toNat op.isLt
  rwa [BitVec.ofNat_toNat, BitVec.setWidth_eq] at this

/-- The accesses of a fetch are stamped before the instruction's last cycle (R450). -/
theorem fetch_reads {T : Nat} (s : State) (h : s.cycles + (fetch s).1.length ≤ T) : ReadKeeps T s (fetch s).2 := by
  rw [fetch_eq] at h ⊢
  simp only [assemble_length] at h ⊢
  generalize (opRow (memRead s.cpu.pc s.cycles s).1).operands = n at h ⊢
  have h1 := memRead_keeps (T := T) (stamp := s.cycles) (by omega) s.cpu.pc s
  split
  · exact h1
  · have h2 := h1.trans (memRead_keeps (T := T) (stamp := s.cycles + 1) (by omega) (s.cpu.pc + 1) _)
    split
    · exact h2
    · exact h2.trans (memRead_keeps (by omega) _ _)

end Sys2Proof.Machine
end

