-- ==== Sys2Proof/Laws/HostOps.lean ====
section
/-! SUPPORT. The laws of the WRAM save and load (R1092, R1176) and of the end of a debug run (R441, R1130). -/

namespace Sys2Proof.Machine

@[simp] theorem saveWram_ok (s : State) : saveWram true s = .copy (wramCopy s) := rfl
@[simp] theorem saveWram_failed (s : State) : saveWram false s = .failed := rfl

@[simp] theorem length_wramCopy (s : State) : (wramCopy s).length = 8192 := by simp [wramCopy]

/-- WRAM that was saved and is loaded into a fresh cartridge with a battery is the same WRAM (R1092). -/
theorem initialWram_of_saved (s : State) (q : LoadRequest) (fill : PowerOnFill) (hw : s.dev.cart.wram.wf)
    (hn : Store.below 8192 s.dev.cart.wram) (hb : q.header.battery = true) (hq : q.wramRead = .blob (wramCopy s)) :
    q.initialWram fill = s.dev.cart.wram := by
  have hl := length_wramCopy s
  have hr : ∀ a, (wramCopy s).getD a 0 = s.dev.cart.wram.read a := fun a => by
    by_cases ha : a < 8192
    · simp [wramCopy, ha]
    · rw [List.getD_eq_default _ _ (by rw [hl]; omega)]
      exact (Store.read_of_not_mem 0 _ a fun e he h => ha (h ▸ hn e he)).symm
  generalize wramCopy s = bytes at hq hl hr
  have hi : q.initialWram fill = Memory.ofBytes (bytes.take 8192) := by simp [LoadRequest.initialWram, hq, hb, hl]
  rw [hi, List.take_of_length_le hl.le]
  exact Store.ext_of_wf (Memory.wf_ofBytes _) hw fun a => (Memory.read_ofBytes bytes a).trans (hr a)

/-- A failed read of the save leaves what `power_on_fill` gives, as a missing save does (R1176; log 25). -/
theorem initialWram_of_failure (q : LoadRequest) (fill : PowerOnFill) (hq : q.wramRead = .ioFailure) :
    q.initialWram fill = { q with wramRead := .absent }.initialWram fill := by
  simp only [LoadRequest.initialWram, hq]

/-- A step ends a debug run exactly when it reached the breakpoint or ran the fallback there. -/
theorem endsDebugRun_iff (s t : State) : endsDebugRun s t = true ↔
    ∃ b, t.params.breakpoint = some b ∧ (t.cpu.pc = b ∨ (s.cpu.pc = b ∧ s.runsFallback = true)) := by
  unfold endsDebugRun
  cases t.params.breakpoint <;> simp

end Sys2Proof.Machine
end

