-- ==== Sys2Proof/Laws/PerInstr.lean ====
section
/-! SUPPORT. The family EncodedLength: a well-formed instruction is encoded in as many bytes as its format has (R301, R308),
one lemma per constructor. -/

namespace Sys2Proof.Laws.EncodedLength

/-- A well-formed instruction's encoding has the instruction's length. -/
def Statement (i : Instr) : Prop := i.wellFormed = true → (encode i).length = i.length

theorem readOperand_length {i : Instr} {o : ReadOperand} {check : MemMode → Bool} {set : OpcodeSet}
    (hw : i.wellFormed = o.ok check) (ho : i.opcode = set.read o) (hb : i.operandBytes = o.bytes)
    (hl : i.length = 1 + o.size) (hi : set.imm ≠ none) (hm : ∀ m, check m = true → set.mem m ≠ none) : Statement i := by
  intro h
  rw [hw] at h
  unfold encode
  rw [ho, hb, hl]
  cases o with
  | imm b => cases he : set.imm with
    | none => exact absurd he hi
    | some op => simp [OpcodeSet.read, he, ReadOperand.bytes, ReadOperand.size]
  | mem m => cases he : set.mem m with
    | none => exact absurd he (hm m h)
    | some op => cases m <;> simp [OpcodeSet.read, he, ReadOperand.bytes, ReadOperand.size, MemMode.bytes, MemMode.size]

theorem memMode_length {i : Instr} {m : MemMode} {set : OpcodeSet} (ho : i.opcode = set.mem m)
    (hb : i.operandBytes = m.bytes) (hl : i.length = 1 + m.size) (hm : i.wellFormed = true → set.mem m ≠ none) :
    Statement i := by
  intro h
  unfold encode
  rw [ho, hb, hl]
  cases he : set.mem m with
  | none => exact absurd he (hm h)
  | some op => cases m <;> simp [MemMode.bytes, MemMode.size]

theorem lda (o : ReadOperand) : Statement (.lda o) :=
  readOperand_length (check := MemMode.okAcc) (set := ldaOpcodes) rfl rfl rfl rfl (by decide)
    (fun m => by cases m <;> simp [MemMode.okAcc, OpcodeSet.mem, ldaOpcodes])

theorem ldx (o : ReadOperand) : Statement (.ldx o) :=
  readOperand_length (check := MemMode.okLdx) (set := ldxOpcodes) rfl rfl rfl rfl (by decide)
    (fun m => by cases m <;> simp [MemMode.okLdx, OpcodeSet.mem, ldxOpcodes])

theorem ldy (o : ReadOperand) : Statement (.ldy o) :=
  readOperand_length (check := MemMode.okLdy) (set := ldyOpcodes) rfl rfl rfl rfl (by decide)
    (fun m => by cases m <;> simp [MemMode.okLdy, OpcodeSet.mem, ldyOpcodes])

theorem sta (m : MemMode) : Statement (.sta m) :=
  memMode_length (set := staOpcodes) rfl rfl rfl (by cases m <;> simp [Instr.wellFormed, MemMode.okAcc, OpcodeSet.mem, staOpcodes])

theorem stx (m : MemMode) : Statement (.stx m) :=
  memMode_length (set := stxOpcodes) rfl rfl rfl (by cases m <;> simp [Instr.wellFormed, MemMode.okStx, OpcodeSet.mem, stxOpcodes])

theorem sty (m : MemMode) : Statement (.sty m) :=
  memMode_length (set := styOpcodes) rfl rfl rfl (by cases m <;> simp [Instr.wellFormed, MemMode.okSty, OpcodeSet.mem, styOpcodes])

theorem tax : Statement .tax := fun _ => rfl

theorem tay : Statement .tay := fun _ => rfl

theorem txa : Statement .txa := fun _ => rfl

theorem tya : Statement .tya := fun _ => rfl

theorem tsx : Statement .tsx := fun _ => rfl

theorem txs : Statement .txs := fun _ => rfl

theorem pha : Statement .pha := fun _ => rfl

theorem php : Statement .php := fun _ => rfl

theorem pla : Statement .pla := fun _ => rfl

theorem plp : Statement .plp := fun _ => rfl

theorem adc (o : ReadOperand) : Statement (.adc o) :=
  readOperand_length (check := MemMode.okAcc) (set := adcOpcodes) rfl rfl rfl rfl (by decide)
    (fun m => by cases m <;> simp [MemMode.okAcc, OpcodeSet.mem, adcOpcodes])

theorem sbc (o : ReadOperand) : Statement (.sbc o) :=
  readOperand_length (check := MemMode.okAcc) (set := sbcOpcodes) rfl rfl rfl rfl (by decide)
    (fun m => by cases m <;> simp [MemMode.okAcc, OpcodeSet.mem, sbcOpcodes])

theorem and (o : ReadOperand) : Statement (.and o) :=
  readOperand_length (check := MemMode.okAcc) (set := andOpcodes) rfl rfl rfl rfl (by decide)
    (fun m => by cases m <;> simp [MemMode.okAcc, OpcodeSet.mem, andOpcodes])

theorem ora (o : ReadOperand) : Statement (.ora o) :=
  readOperand_length (check := MemMode.okAcc) (set := oraOpcodes) rfl rfl rfl rfl (by decide)
    (fun m => by cases m <;> simp [MemMode.okAcc, OpcodeSet.mem, oraOpcodes])

theorem eor (o : ReadOperand) : Statement (.eor o) :=
  readOperand_length (check := MemMode.okAcc) (set := eorOpcodes) rfl rfl rfl rfl (by decide)
    (fun m => by cases m <;> simp [MemMode.okAcc, OpcodeSet.mem, eorOpcodes])

theorem bit (m : MemMode) : Statement (.bit m) :=
  memMode_length (set := bitOpcodes) rfl rfl rfl (by cases m <;> simp [Instr.wellFormed, MemMode.okDirect, OpcodeSet.mem, bitOpcodes])

theorem cmp (o : ReadOperand) : Statement (.cmp o) :=
  readOperand_length (check := MemMode.okAcc) (set := cmpOpcodes) rfl rfl rfl rfl (by decide)
    (fun m => by cases m <;> simp [MemMode.okAcc, OpcodeSet.mem, cmpOpcodes])

theorem cpx (o : ReadOperand) : Statement (.cpx o) :=
  readOperand_length (check := MemMode.okDirect) (set := cpxOpcodes) rfl rfl rfl rfl (by decide)
    (fun m => by cases m <;> simp [MemMode.okDirect, OpcodeSet.mem, cpxOpcodes])

theorem cpy (o : ReadOperand) : Statement (.cpy o) :=
  readOperand_length (check := MemMode.okDirect) (set := cpyOpcodes) rfl rfl rfl rfl (by decide)
    (fun m => by cases m <;> simp [MemMode.okDirect, OpcodeSet.mem, cpyOpcodes])

theorem inc (m : RmwMode) : Statement (.inc m) :=
  memMode_length (m := m.toMem) (set := incOpcodes) rfl rfl rfl
    (by cases m <;> simp [RmwMode.toMem, OpcodeSet.mem, incOpcodes])

theorem dec (m : RmwMode) : Statement (.dec m) :=
  memMode_length (m := m.toMem) (set := decOpcodes) rfl rfl rfl
    (by cases m <;> simp [RmwMode.toMem, OpcodeSet.mem, decOpcodes])

theorem inx : Statement .inx := fun _ => rfl

theorem iny : Statement .iny := fun _ => rfl

theorem dex : Statement .dex := fun _ => rfl

theorem dey : Statement .dey := fun _ => rfl

theorem aslAcc : Statement .aslAcc := fun _ => rfl

theorem asl (m : RmwMode) : Statement (.asl m) :=
  memMode_length (m := m.toMem) (set := aslOpcodes) rfl rfl rfl
    (by cases m <;> simp [RmwMode.toMem, OpcodeSet.mem, aslOpcodes])

theorem lsrAcc : Statement .lsrAcc := fun _ => rfl

theorem lsr (m : RmwMode) : Statement (.lsr m) :=
  memMode_length (m := m.toMem) (set := lsrOpcodes) rfl rfl rfl
    (by cases m <;> simp [RmwMode.toMem, OpcodeSet.mem, lsrOpcodes])

theorem rolAcc : Statement .rolAcc := fun _ => rfl

theorem rol (m : RmwMode) : Statement (.rol m) :=
  memMode_length (m := m.toMem) (set := rolOpcodes) rfl rfl rfl
    (by cases m <;> simp [RmwMode.toMem, OpcodeSet.mem, rolOpcodes])

theorem rorAcc : Statement .rorAcc := fun _ => rfl

theorem ror (m : RmwMode) : Statement (.ror m) :=
  memMode_length (m := m.toMem) (set := rorOpcodes) rfl rfl rfl
    (by cases m <;> simp [RmwMode.toMem, OpcodeSet.mem, rorOpcodes])

theorem jmp (target : Word) : Statement (.jmp target) := fun _ => rfl

theorem jmpInd (pointer : Word) : Statement (.jmpInd pointer) := fun _ => rfl

theorem jsr (target : Word) : Statement (.jsr target) := fun _ => rfl

theorem rts : Statement .rts := fun _ => rfl

theorem rti : Statement .rti := fun _ => rfl

theorem brk : Statement .brk := fun _ => rfl

theorem bpl (offset : Byte) : Statement (.bpl offset) := fun _ => rfl

theorem bmi (offset : Byte) : Statement (.bmi offset) := fun _ => rfl

theorem bvc (offset : Byte) : Statement (.bvc offset) := fun _ => rfl

theorem bvs (offset : Byte) : Statement (.bvs offset) := fun _ => rfl

theorem bcc (offset : Byte) : Statement (.bcc offset) := fun _ => rfl

theorem bcs (offset : Byte) : Statement (.bcs offset) := fun _ => rfl

theorem bne (offset : Byte) : Statement (.bne offset) := fun _ => rfl

theorem beq (offset : Byte) : Statement (.beq offset) := fun _ => rfl

theorem clc : Statement .clc := fun _ => rfl

theorem sec : Statement .sec := fun _ => rfl

theorem cli : Statement .cli := fun _ => rfl

theorem sei : Statement .sei := fun _ => rfl

theorem cld : Statement .cld := fun _ => rfl

theorem sed : Statement .sed := fun _ => rfl

theorem clv : Statement .clv := fun _ => rfl

theorem nop : Statement .nop := fun _ => rfl

theorem unsupported (op : Byte) : Statement (.unsupported op) := by
  intro h
  have h' : unsupportedBytes.contains op = true := h
  simp only [encode, Instr.opcode, h', if_true, Instr.operandBytes, List.length_singleton, Instr.length]

end Sys2Proof.Laws.EncodedLength
end

