-- ==== Sys2Proof/Tests/Slice0.lean ====
section
/-! SUPPORT. Tests: the checks of WellFormed, the opcode map row by row, one-step examples, and a witness for the hypotheses of
every statement that has some. The expected values of the opcode map are those of the table of spec/30_encoding.md section 3;
those of the one-step examples are the worked examples of spec/41 to spec/46, hand calculation where a comment says so. -/

namespace Sys2Proof.Tests

open Sys2Proof Sys2Proof.Machine

/-! ## WellFormed refuses the forms that have no row -/

theorem test_wellFormed_refuses : ([
    .lda (.mem (.zpy 0x10)), .adc (.mem (.zpy 0x10)), .ldx (.mem (.zpx 0x10)), .ldx (.mem (.abx 0x0200)),
    .ldx (.mem (.izx 0x10)), .ldy (.mem (.aby 0x0200)), .ldy (.mem (.zpy 0x10)), .sta (.zpy 0x10), .stx (.zpx 0x10),
    .stx (.aby 0x0200), .sty (.zpy 0x10), .sty (.abx 0x0200), .bit (.izx 0x10), .bit (.zpx 0x10), .cpx (.mem (.abx 0x0200)),
    .cpy (.mem (.izy 0x10)), .unsupported 0xA9, .unsupported 0x00] : List Instr).all (fun i => !i.wellFormed) = true := by
  decide

theorem test_wellFormed_accepts : ([
    .lda (.imm 0x10), .ldx (.mem (.zpy 0xFF)), .ldy (.mem (.abx 0xFFFF)), .sta (.izy 0xFF), .stx (.zpy 0xFF), .sty (.zpx 0xFF),
    .bit (.abs 0xFFFF), .cpx (.imm 0xFF), .inc (.abx 0xFFFF), .jmpInd 0xFFFF, .brk, .unsupported 0xFF] : List Instr).all
    Instr.wellFormed = true := by decide

/-! ## The opcode map: every official row, by mnemonic and mode -/

/-- The bytes decode to the instruction and nothing is left. -/
def reads (bytes : List Byte) (i : Instr) : Bool :=
  match decode bytes with
  | .ok (j, rest) => j == i && rest == []
  | .error _ => false

/-- The bytes are refused. -/
def refuses (bytes : List Byte) : Bool :=
  match decode bytes with
  | .ok _ => false
  | .error _ => true

theorem test_decode_control : (
  reads [0x00] (.brk) && reads [0x10, 0x81] (.bpl 0x81) && reads [0x20, 0x7E, 0x93] (.jsr 0x937E) &&
  reads [0x30, 0x81] (.bmi 0x81) && reads [0x40] (.rti) && reads [0x4C, 0x7E, 0x93] (.jmp 0x937E) &&
  reads [0x50, 0x81] (.bvc 0x81) && reads [0x60] (.rts) && reads [0x6C, 0x7E, 0x93] (.jmpInd 0x937E) &&
  reads [0x70, 0x81] (.bvs 0x81) && reads [0x90, 0x81] (.bcc 0x81) && reads [0xB0, 0x81] (.bcs 0x81) &&
  reads [0xD0, 0x81] (.bne 0x81) && reads [0xF0, 0x81] (.beq 0x81)) = true := by decide

theorem test_decode_logic : (
  reads [0x01, 0x81] (.ora (.mem (.izx 0x81))) && reads [0x05, 0x81] (.ora (.mem (.zp 0x81))) &&
  reads [0x09, 0x81] (.ora (.imm 0x81)) && reads [0x0D, 0x7E, 0x93] (.ora (.mem (.abs 0x937E))) &&
  reads [0x11, 0x81] (.ora (.mem (.izy 0x81))) && reads [0x15, 0x81] (.ora (.mem (.zpx 0x81))) &&
  reads [0x19, 0x7E, 0x93] (.ora (.mem (.aby 0x937E))) && reads [0x1D, 0x7E, 0x93] (.ora (.mem (.abx 0x937E))) &&
  reads [0x21, 0x81] (.and (.mem (.izx 0x81))) && reads [0x24, 0x81] (.bit (.zp 0x81)) &&
  reads [0x25, 0x81] (.and (.mem (.zp 0x81))) && reads [0x29, 0x81] (.and (.imm 0x81)) &&
  reads [0x2C, 0x7E, 0x93] (.bit (.abs 0x937E)) && reads [0x2D, 0x7E, 0x93] (.and (.mem (.abs 0x937E))) &&
  reads [0x31, 0x81] (.and (.mem (.izy 0x81))) && reads [0x35, 0x81] (.and (.mem (.zpx 0x81))) &&
  reads [0x39, 0x7E, 0x93] (.and (.mem (.aby 0x937E))) && reads [0x3D, 0x7E, 0x93] (.and (.mem (.abx 0x937E))) &&
  reads [0x41, 0x81] (.eor (.mem (.izx 0x81))) && reads [0x45, 0x81] (.eor (.mem (.zp 0x81))) &&
  reads [0x49, 0x81] (.eor (.imm 0x81)) && reads [0x4D, 0x7E, 0x93] (.eor (.mem (.abs 0x937E))) &&
  reads [0x51, 0x81] (.eor (.mem (.izy 0x81))) && reads [0x55, 0x81] (.eor (.mem (.zpx 0x81))) &&
  reads [0x59, 0x7E, 0x93] (.eor (.mem (.aby 0x937E))) &&
  reads [0x5D, 0x7E, 0x93] (.eor (.mem (.abx 0x937E)))) = true := by decide

theorem test_decode_shifts : (
  reads [0x06, 0x81] (.asl (.zp 0x81)) && reads [0x0A] (.aslAcc) && reads [0x0E, 0x7E, 0x93] (.asl (.abs 0x937E)) &&
  reads [0x16, 0x81] (.asl (.zpx 0x81)) && reads [0x1E, 0x7E, 0x93] (.asl (.abx 0x937E)) &&
  reads [0x26, 0x81] (.rol (.zp 0x81)) && reads [0x2A] (.rolAcc) && reads [0x2E, 0x7E, 0x93] (.rol (.abs 0x937E)) &&
  reads [0x36, 0x81] (.rol (.zpx 0x81)) && reads [0x3E, 0x7E, 0x93] (.rol (.abx 0x937E)) &&
  reads [0x46, 0x81] (.lsr (.zp 0x81)) && reads [0x4A] (.lsrAcc) && reads [0x4E, 0x7E, 0x93] (.lsr (.abs 0x937E)) &&
  reads [0x56, 0x81] (.lsr (.zpx 0x81)) && reads [0x5E, 0x7E, 0x93] (.lsr (.abx 0x937E)) &&
  reads [0x66, 0x81] (.ror (.zp 0x81)) && reads [0x6A] (.rorAcc) && reads [0x6E, 0x7E, 0x93] (.ror (.abs 0x937E)) &&
  reads [0x76, 0x81] (.ror (.zpx 0x81)) && reads [0x7E, 0x7E, 0x93] (.ror (.abx 0x937E))) = true := by decide

theorem test_decode_one_byte : (
  reads [0x08] (.php) && reads [0x18] (.clc) && reads [0x28] (.plp) && reads [0x38] (.sec) && reads [0x48] (.pha) &&
  reads [0x58] (.cli) && reads [0x68] (.pla) && reads [0x78] (.sei) && reads [0x88] (.dey) && reads [0x8A] (.txa) &&
  reads [0x98] (.tya) && reads [0x9A] (.txs) && reads [0xA8] (.tay) && reads [0xAA] (.tax) && reads [0xB8] (.clv) &&
  reads [0xBA] (.tsx) && reads [0xC8] (.iny) && reads [0xCA] (.dex) && reads [0xD8] (.cld) && reads [0xE8] (.inx) &&
  reads [0xEA] (.nop) && reads [0xF8] (.sed)) = true := by decide

theorem test_decode_adc_sbc : (
  reads [0x61, 0x81] (.adc (.mem (.izx 0x81))) && reads [0x65, 0x81] (.adc (.mem (.zp 0x81))) &&
  reads [0x69, 0x81] (.adc (.imm 0x81)) && reads [0x6D, 0x7E, 0x93] (.adc (.mem (.abs 0x937E))) &&
  reads [0x71, 0x81] (.adc (.mem (.izy 0x81))) && reads [0x75, 0x81] (.adc (.mem (.zpx 0x81))) &&
  reads [0x79, 0x7E, 0x93] (.adc (.mem (.aby 0x937E))) && reads [0x7D, 0x7E, 0x93] (.adc (.mem (.abx 0x937E))) &&
  reads [0xE1, 0x81] (.sbc (.mem (.izx 0x81))) && reads [0xE5, 0x81] (.sbc (.mem (.zp 0x81))) &&
  reads [0xE9, 0x81] (.sbc (.imm 0x81)) && reads [0xED, 0x7E, 0x93] (.sbc (.mem (.abs 0x937E))) &&
  reads [0xF1, 0x81] (.sbc (.mem (.izy 0x81))) && reads [0xF5, 0x81] (.sbc (.mem (.zpx 0x81))) &&
  reads [0xF9, 0x7E, 0x93] (.sbc (.mem (.aby 0x937E))) &&
  reads [0xFD, 0x7E, 0x93] (.sbc (.mem (.abx 0x937E)))) = true := by decide

theorem test_decode_stores : (
  reads [0x81, 0x81] (.sta (.izx 0x81)) && reads [0x84, 0x81] (.sty (.zp 0x81)) && reads [0x85, 0x81] (.sta (.zp 0x81)) &&
  reads [0x86, 0x81] (.stx (.zp 0x81)) && reads [0x8C, 0x7E, 0x93] (.sty (.abs 0x937E)) &&
  reads [0x8D, 0x7E, 0x93] (.sta (.abs 0x937E)) && reads [0x8E, 0x7E, 0x93] (.stx (.abs 0x937E)) &&
  reads [0x91, 0x81] (.sta (.izy 0x81)) && reads [0x94, 0x81] (.sty (.zpx 0x81)) && reads [0x95, 0x81] (.sta (.zpx 0x81)) &&
  reads [0x96, 0x81] (.stx (.zpy 0x81)) && reads [0x99, 0x7E, 0x93] (.sta (.aby 0x937E)) &&
  reads [0x9D, 0x7E, 0x93] (.sta (.abx 0x937E))) = true := by decide

theorem test_decode_loads : (
  reads [0xA0, 0x81] (.ldy (.imm 0x81)) && reads [0xA1, 0x81] (.lda (.mem (.izx 0x81))) &&
  reads [0xA2, 0x81] (.ldx (.imm 0x81)) && reads [0xA4, 0x81] (.ldy (.mem (.zp 0x81))) &&
  reads [0xA5, 0x81] (.lda (.mem (.zp 0x81))) && reads [0xA6, 0x81] (.ldx (.mem (.zp 0x81))) &&
  reads [0xA9, 0x81] (.lda (.imm 0x81)) && reads [0xAC, 0x7E, 0x93] (.ldy (.mem (.abs 0x937E))) &&
  reads [0xAD, 0x7E, 0x93] (.lda (.mem (.abs 0x937E))) && reads [0xAE, 0x7E, 0x93] (.ldx (.mem (.abs 0x937E))) &&
  reads [0xB1, 0x81] (.lda (.mem (.izy 0x81))) && reads [0xB4, 0x81] (.ldy (.mem (.zpx 0x81))) &&
  reads [0xB5, 0x81] (.lda (.mem (.zpx 0x81))) && reads [0xB6, 0x81] (.ldx (.mem (.zpy 0x81))) &&
  reads [0xB9, 0x7E, 0x93] (.lda (.mem (.aby 0x937E))) && reads [0xBC, 0x7E, 0x93] (.ldy (.mem (.abx 0x937E))) &&
  reads [0xBD, 0x7E, 0x93] (.lda (.mem (.abx 0x937E))) &&
  reads [0xBE, 0x7E, 0x93] (.ldx (.mem (.aby 0x937E)))) = true := by decide

theorem test_decode_compare : (
  reads [0xC0, 0x81] (.cpy (.imm 0x81)) && reads [0xC1, 0x81] (.cmp (.mem (.izx 0x81))) &&
  reads [0xC4, 0x81] (.cpy (.mem (.zp 0x81))) && reads [0xC5, 0x81] (.cmp (.mem (.zp 0x81))) &&
  reads [0xC9, 0x81] (.cmp (.imm 0x81)) && reads [0xCC, 0x7E, 0x93] (.cpy (.mem (.abs 0x937E))) &&
  reads [0xCD, 0x7E, 0x93] (.cmp (.mem (.abs 0x937E))) && reads [0xD1, 0x81] (.cmp (.mem (.izy 0x81))) &&
  reads [0xD5, 0x81] (.cmp (.mem (.zpx 0x81))) && reads [0xD9, 0x7E, 0x93] (.cmp (.mem (.aby 0x937E))) &&
  reads [0xDD, 0x7E, 0x93] (.cmp (.mem (.abx 0x937E))) && reads [0xE0, 0x81] (.cpx (.imm 0x81)) &&
  reads [0xE4, 0x81] (.cpx (.mem (.zp 0x81))) && reads [0xEC, 0x7E, 0x93] (.cpx (.mem (.abs 0x937E)))) = true := by decide

theorem test_decode_incdec : (
  reads [0xC6, 0x81] (.dec (.zp 0x81)) && reads [0xCE, 0x7E, 0x93] (.dec (.abs 0x937E)) &&
  reads [0xD6, 0x81] (.dec (.zpx 0x81)) && reads [0xDE, 0x7E, 0x93] (.dec (.abx 0x937E)) &&
  reads [0xE6, 0x81] (.inc (.zp 0x81)) && reads [0xEE, 0x7E, 0x93] (.inc (.abs 0x937E)) &&
  reads [0xF6, 0x81] (.inc (.zpx 0x81)) && reads [0xFE, 0x7E, 0x93] (.inc (.abx 0x937E))) = true := by decide
/-- The 105 bytes decode to the fallback (R306). -/
theorem test_decode_unsupported : unsupportedBytes.all (fun op => reads [op] (.unsupported op)) = true := by decide

theorem test_decode_short : (refuses [] && refuses [0xA9] && refuses [0x4C] && refuses [0x4C, 0x34]) = true := by decide

/-- The table's numbering: the opcode in bits 7 to 0, the low operand byte above it. -/
theorem test_decodeTableWord : decodeTableWord 24 0x02009D = some (.sta (.abx 0x0200)) ∧
    decodeTableWord 8 0x60 = some .rts ∧ decodeTableWord 8 0x20 = some (.jsr 0) := by decide

/-! ## One step at a time -/

/-- CPU registers with every flag clear and S = $FD. -/
def cpu (pc : Word) (a : Byte := 0) (x : Byte := 0) (y : Byte := 0) : Cpu :=
  { a := a, x := x, y := y, s := 0xFD, pc := pc
    p := { n := false, v := false, b := false, d := false, i := false, z := false, c := false } }

/-- The state after reset with other CPU registers and RAM. -/
def start (c : Cpu) (ram : Memory := []) : State := { State.reset with cpu := c, ram := ram }

/-- The same with the carry set. -/
def Cpu.carry (c : Cpu) : Cpu := { c with p := { c.p with c := true } }

/-- The instruction gives a next state that passes the check, after so many cycles. -/
def gives (i : Instr) (s : State) (cost : Nat) (check : State → Bool) : Bool :=
  match exec i s with
  | .next t => t.cycles == s.cycles + cost && check t
  | .fault _ => false
  | .refused _ => false

/-- The flags of a state, in the order N V D I Z C. -/
def flags (s : State) : List Bool := [s.cpu.p.n, s.cpu.p.v, s.cpu.p.d, s.cpu.p.i, s.cpu.p.z, s.cpu.p.c]

/-- A byte of RAM. -/
def ramByte (s : State) (a : Nat) : Byte := s.ram.read a

theorem test_lda_immediate : gives (.lda (.imm 0x80)) (start (cpu 0xC000 0x12)) 2
    (fun t => t.cpu.a == 0x80 && t.cpu.pc == 0xC002 && flags t == [true, false, false, false, false, false]) = true := by decide

/-- Hand calculation from R420 and R432: base $02FF, Y = $01, so $0300, a page cross, 6 cycles. -/
theorem test_lda_izy_cross : gives (.lda (.mem (.izy 0xFF))) (start (cpu 0xC000 0 0 0x01)
    [(0x00, 0x02), (0xFF, 0xFF), (0x300, 0x77)]) 6 (fun t => t.cpu.a == 0x77 && t.cpu.pc == 0xC002) = true := by decide

theorem test_ldx_zpy : gives (.ldx (.mem (.zpy 0x0F))) (start (cpu 0xC000 0 0x55 0x01)) 4
    (fun t => t.cpu.x == 0 && t.cpu.p.z && !t.cpu.p.n) = true := by decide

theorem test_ldy_immediate : gives (.ldy (.imm 0xFF)) (start (cpu 0xC000)) 2
    (fun t => t.cpu.y == 0xFF && t.cpu.p.n && !t.cpu.p.z) = true := by decide

theorem test_sta_abx : gives (.sta (.abx 0x0200)) (start (cpu 0xC000 0x42 0x10)) 5
    (fun t => ramByte t 0x210 == 0x42 && t.cpu.pc == 0xC003 && t.cpu.p == (cpu 0).p) = true := by decide

set_option maxRecDepth 100000 in
/-- `STX $2006`: one write of $07 to PPU port 6 (the first of two: the high bits of t). -/
theorem test_stx_port : gives (.stx (.abs 0x2006)) (start (cpu 0xC000 0 0x07)) 4
    (fun t => t.dev.ppu.regs.t == 0x0700 && t.dev.ppu.regs.w && t.dev.ppu.regs.ioLatch == 0x07) = true := by decide

theorem test_sty_zpx_wraps : gives (.sty (.zpx 0x81)) (start (cpu 0xC000 0 0xFF 0x80)) 4
    (fun t => ramByte t 0x80 == 0x80 && t.cpu.pc == 0xC002) = true := by decide

theorem test_tax : gives .tax (start (cpu 0xC000 0x90)) 2 (fun t => t.cpu.x == 0x90 && t.cpu.p.n && !t.cpu.p.z) = true := by
  decide
theorem test_tay : gives .tay (start (cpu 0xC000 0 0 0x33)) 2 (fun t => t.cpu.y == 0 && t.cpu.p.z && !t.cpu.p.n) = true := by
  decide
theorem test_txa : gives .txa (start (cpu 0xC000 0 0x7F)) 2 (fun t => t.cpu.a == 0x7F && !t.cpu.p.n && !t.cpu.p.z) = true := by
  decide
theorem test_tya : gives .tya (start (cpu 0xC000 0 0 0xFF)) 2 (fun t => t.cpu.a == 0xFF && t.cpu.p.n) = true := by decide
theorem test_tsx : gives .tsx (start (cpu 0xC000)) 2 (fun t => t.cpu.x == 0xFD && t.cpu.p.n && !t.cpu.p.z) = true := by decide
theorem test_txs : gives .txs (start (cpu 0xC000 0 0xFF)) 2 (fun t => t.cpu.s == 0xFF && t.cpu.p == (cpu 0).p) = true := by
  decide

theorem test_pha : gives .pha (start (cpu 0xC000 0x5A)) 3 (fun t => ramByte t 0x1FD == 0x5A && t.cpu.s == 0xFC) = true := by
  decide

/-- C = 1, Z = 0, I = 1, D = 0, V = 0, N = 1: PHP pushes $B5. -/
theorem test_php : gives .php (start { cpu 0xC000 with p := { (cpu 0).p with n := true, i := true, c := true } }) 3
    (fun t => ramByte t 0x1FD == 0xB5 && t.cpu.s == 0xFC) = true := by decide

theorem test_pla : gives .pla (start { cpu 0xC000 0x12 with s := 0xFC }) 4
    (fun t => t.cpu.a == 0 && t.cpu.p.z && !t.cpu.p.n && t.cpu.s == 0xFD) = true := by decide

theorem test_plp : gives .plp (start { cpu 0xC000 with s := 0xFC } [(0x1FD, 0xFF)]) 4
    (fun t => flags t == [true, true, true, true, true, true] && t.cpu.s == 0xFD) = true := by decide

theorem test_adc_overflow : gives (.adc (.imm 0x50)) (start (cpu 0xC000 0x50)) 2
    (fun t => t.cpu.a == 0xA0 && flags t == [true, true, false, false, false, false]) = true := by decide
theorem test_sbc_borrow : gives (.sbc (.imm 0xF0)) (start (Cpu.carry (cpu 0xC000 0x50))) 2
    (fun t => t.cpu.a == 0x60 && flags t == [false, false, false, false, false, false]) = true := by decide
theorem test_and : gives (.and (.imm 0x3C)) (start (cpu 0xC000 0xF0)) 2
    (fun t => t.cpu.a == 0x30 && !t.cpu.p.n && !t.cpu.p.z) = true := by decide
theorem test_ora : gives (.ora (.imm 0x80)) (start (cpu 0xC000 0x0F)) 2 (fun t => t.cpu.a == 0x8F && t.cpu.p.n) = true := by
  decide
theorem test_eor : gives (.eor (.imm 0xFF)) (start (cpu 0xC000 0xAA)) 2
    (fun t => t.cpu.a == 0x55 && !t.cpu.p.n && !t.cpu.p.z) = true := by decide
theorem test_bit : gives (.bit (.zp 0x10)) (start (cpu 0xC000 0x01) [(0x10, 0xC0)]) 3
    (fun t => t.cpu.a == 0x01 && flags t == [true, true, false, false, true, false]) = true := by decide
theorem test_cmp : gives (.cmp (.imm 0x30)) (start (cpu 0xC000 0x40)) 2
    (fun t => flags t == [false, false, false, false, false, true]) = true := by decide
theorem test_cpx : gives (.cpx (.imm 0x06)) (start (cpu 0xC000 0 0x05)) 2
    (fun t => flags t == [true, false, false, false, false, false]) = true := by decide
theorem test_cpy : gives (.cpy (.imm 0x10)) (start (cpu 0xC000 0 0 0x10)) 2
    (fun t => flags t == [false, false, false, false, true, true]) = true := by decide

theorem test_inc : gives (.inc (.zp 0x10)) (start (cpu 0xC000) [(0x10, 0xFF)]) 5
    (fun t => ramByte t 0x10 == 0 && t.ram == [] && t.cpu.p.z) = true := by decide
theorem test_dec : gives (.dec (.abs 0x0300)) (start (cpu 0xC000) [(0x300, 0x01)]) 6
    (fun t => ramByte t 0x300 == 0 && t.cpu.p.z) = true := by decide
theorem test_inx : gives .inx (start (cpu 0xC000 0 0x7F)) 2 (fun t => t.cpu.x == 0x80 && t.cpu.p.n) = true := by decide
theorem test_iny : gives .iny (start (cpu 0xC000 0 0 0xFF)) 2 (fun t => t.cpu.y == 0 && t.cpu.p.z) = true := by decide
theorem test_dex : gives .dex (start (cpu 0xC000 0 0x01)) 2 (fun t => t.cpu.x == 0 && t.cpu.p.z) = true := by decide
theorem test_dey : gives .dey (start (cpu 0xC000)) 2 (fun t => t.cpu.y == 0xFF && t.cpu.p.n && !t.cpu.p.z) = true := by decide
theorem test_asl_accumulator : gives .aslAcc (start (cpu 0xC000 0xC1)) 2
    (fun t => t.cpu.a == 0x82 && flags t == [true, false, false, false, false, true]) = true := by decide
theorem test_lsr_accumulator : gives .lsrAcc (start (cpu 0xC000 0x03)) 2
    (fun t => t.cpu.a == 0x01 && flags t == [false, false, false, false, false, true]) = true := by decide
theorem test_rol_accumulator : gives .rolAcc (start (Cpu.carry (cpu 0xC000 0x40))) 2
    (fun t => t.cpu.a == 0x81 && !t.cpu.p.c && t.cpu.p.n) = true := by decide
/-- Hand calculation from R673: A = $01, C = 0 gives $00 with C = 1. -/
theorem test_ror_accumulator : gives .rorAcc (start (cpu 0xC000 0x01)) 2
    (fun t => t.cpu.a == 0 && t.cpu.p.c && t.cpu.p.z) = true := by decide
theorem test_ror_memory : gives (.ror (.zp 0x20)) (start (Cpu.carry (cpu 0xC000)) [(0x20, 0x02)]) 5
    (fun t => ramByte t 0x20 == 0x81 && !t.cpu.p.c && t.cpu.p.n) = true := by decide
/-- Hand calculation from R670, R671 and R672: $80 at $0011 shifts to $00 with C, to $40, and with C = 1 to $01 with C. -/
theorem test_shift_memory :
    gives (.asl (.zpx 0x10)) (start (cpu 0xC000 0 0x01) [(0x11, 0x80)]) 6
      (fun t => ramByte t 0x11 == 0 && t.cpu.p.c && t.cpu.p.z) = true ∧
    gives (.lsr (.abx 0x0010)) (start (cpu 0xC000 0 0x01) [(0x11, 0x80)]) 7
      (fun t => ramByte t 0x11 == 0x40 && !t.cpu.p.c && !t.cpu.p.n) = true ∧
    gives (.rol (.abs 0x0011)) (start (Cpu.carry (cpu 0xC000)) [(0x11, 0x80)]) 6
      (fun t => ramByte t 0x11 == 0x01 && t.cpu.p.c && !t.cpu.p.n) = true := by decide

theorem test_jmp : gives (.jmp 0xC000) (start (cpu 0x8000)) 3 (fun t => t.cpu.pc == 0xC000) = true := by decide
theorem test_jmp_indirect_wraps : gives (.jmpInd 0x02FF) (start (cpu 0x8000) [(0x200, 0x12), (0x2FF, 0x34), (0x300, 0x56)]) 5
    (fun t => t.cpu.pc == 0x1234) = true := by decide
/-- The high byte $D0 of the target stands at $C002, PRG offset 2 of a 16 KB cartridge. -/
theorem test_jsr : gives (.jsr 0xD000) (placeByte 0xC002 0xD0 (start (cpu 0xC000))) 6
    (fun t => ramByte t 0x1FD == 0xC0 && ramByte t 0x1FC == 0x02 && t.cpu.s == 0xFB && t.cpu.pc == 0xD000) = true := by decide
theorem test_rts : gives .rts (start { cpu 0x8000 with s := 0xFB } [(0x1FC, 0x02), (0x1FD, 0xC0)]) 6
    (fun t => t.cpu.pc == 0xC003 && t.cpu.s == 0xFD) = true := by decide
theorem test_rti : gives .rti (start { cpu 0x8000 with s := 0xFA } [(0x1FB, 0x20), (0x1FC, 0x34), (0x1FD, 0x12)]) 6
    (fun t => t.cpu.pc == 0x1234 && t.cpu.s == 0xFD && flags t == [false, false, false, false, false, false]) = true := by
  decide
/-- The vector $FFFE is PRG offsets $3FFE and $3FFF. -/
theorem test_brk : gives .brk (placeByte 0xFFFF 0x90 (placeByte 0xFFFE 0x34 (start (cpu 0x8000)))) 7
    (fun t => ramByte t 0x1FD == 0x80 && ramByte t 0x1FC == 0x02 && ramByte t 0x1FB == 0x30 && t.cpu.s == 0xFA &&
      t.cpu.p.i && t.cpu.pc == 0x9034) = true := by decide

theorem test_bpl : gives (.bpl 0x0E) (start (cpu 0xC010)) 3 (fun t => t.cpu.pc == 0xC020) = true := by decide
theorem test_bmi : gives (.bmi 0x0E) (start (cpu 0xC010)) 2 (fun t => t.cpu.pc == 0xC012) = true := by decide
theorem test_bvc : gives (.bvc 0x20) (start (cpu 0xC0F0)) 4 (fun t => t.cpu.pc == 0xC112) = true := by decide
theorem test_bvs : gives (.bvs 0x80) (start { cpu 0xC000 with p := { (cpu 0).p with v := true } }) 4
    (fun t => t.cpu.pc == 0xBF82) = true := by decide
theorem test_bcc : gives (.bcc 0xFE) (start (cpu 0xC000)) 3 (fun t => t.cpu.pc == 0xC000) = true := by decide
theorem test_bcs : gives (.bcs 0x00) (start (Cpu.carry (cpu 0xC000))) 3 (fun t => t.cpu.pc == 0xC002) = true := by decide
theorem test_bne : gives (.bne 0xFB) (start (cpu 0xC005)) 3 (fun t => t.cpu.pc == 0xC002) = true := by decide
theorem test_beq : gives (.beq 0x10) (start { cpu 0xFFF0 with p := { (cpu 0).p with z := true } }) 4
    (fun t => t.cpu.pc == 0x0002) = true := by decide

/-- From all flags set, each clearing instruction clears its own; from all clear, each setting one sets its own. -/
theorem test_flag_instructions :
    let set : Cpu := { cpu 0xC000 with p := { n := true, v := true, b := true, d := true, i := true, z := true, c := true } }
    gives .clc (start set) 2 (fun t => flags t == [true, true, true, true, true, false]) = true ∧
    gives .cli (start set) 2 (fun t => flags t == [true, true, true, false, true, true]) = true ∧
    gives .cld (start set) 2 (fun t => flags t == [true, true, false, true, true, true]) = true ∧
    gives .clv (start set) 2 (fun t => flags t == [true, false, true, true, true, true]) = true ∧
    gives .sec (start (cpu 0xC000)) 2 (fun t => flags t == [false, false, false, false, false, true]) = true ∧
    gives .sei (start (cpu 0xC000)) 2 (fun t => flags t == [false, false, false, true, false, false]) = true ∧
    gives .sed (start (cpu 0xC000)) 2 (fun t => flags t == [false, false, true, false, false, false]) = true := by decide

theorem test_nop : gives .nop (start (cpu 0xC000)) 2 (fun t => t.cpu == cpu 0xC001 && t.ram == []) = true := by decide
theorem test_unsupported : gives (.unsupported 0x02) (start (cpu 0xC000)) 1
    (fun t => t.unsupportedSeen && t.cpu == cpu 0xC001) = true := by decide

/-! ## Steps, reset and the PPU -/

/-- What a step's next state holds. -/
def stepGives (s : State) (check : State → Bool) : Bool :=
  match step s with
  | .next t => check t
  | .fault _ => false
  | .refused _ => false

set_option maxRecDepth 100000 in
/-- A step from reset runs the placed instruction, and the PPU stands at dot 3 * 9 (R452, R1201). -/
theorem test_step_lda : stepGives (State.reset.withFetchWord 16 0x80A9)
    (fun t => t.cpu.a == 0x80 && t.cpu.pc == 2 && t.cycles == 9 && t.dev.ppu.time.dotClock == 27) = true := by decide

set_option maxRecDepth 100000 in
/-- A pending NMI comes before the instruction (R1130). -/
theorem test_step_nmi : stepGives (let s := State.reset.withFetchWord 16 0x80A9; s.withDev { s.dev with nmiPending := true })
    (fun t => t.cpu.a == 0 && t.cpu.s == 0xFA && !t.dev.nmiPending && t.cycles == 14) = true := by decide

set_option maxRecDepth 100000 in
/-- `State.reset` is the state the power-on reset sequence leaves, from S = $00 and every flag clear (R150, R1201). -/
theorem test_reset_is_reset_sequence :
    resetSequence { State.reset with cpu := { cpu 0 with s := 0x00 }, cycles := 0 } = State.reset := by decide

set_option maxRecDepth 100000 in
/-- A reset call from the state after reset: S is three lower again, A and RAM are kept (R1201). -/
theorem test_reset_again :
    let t := hostReset (start (cpu 0x1234 0x42) [(0x10, 0x99)])
    (t.cpu.s == 0xFA && t.cpu.p.i && t.cpu.a == 0x42 && t.cpu.pc == 0 && t.ram == [(0x10, 0x99)] && t.cycles == 7) = true := by
  decide

/-- Vblank entry with ctrl[7] = 1 latches the NMI (R910). -/
theorem test_vblank_entry :
    let u := State.reset.dev.ppu
    let d : Devices := { State.reset.dev with ppu := { u with
      regs := { u.regs with ctrl := 0x80 }, time := { u.time with scanline := 241, dot := 1 } } }
    ((ppuDot {} d).nmiPending && (ppuDot {} d).ppu.regs.vblank) = true := by decide

/-- The order of R815 and R816 by hand: $2005 <- $7D, $5E gives coarse X 15, fine X 5, coarse Y 11, fine Y 6. -/
theorem test_scroll_writes :
    let d := portWrite {} 0 5 0x5E (portWrite {} 0 5 0x7D State.reset.dev)
    (d.ppu.regs.t == 0x616F && d.ppu.regs.x == 5 && !d.ppu.regs.w) = true := by decide

/-- MMC1, five writes of 1, 0, 1, 1, 0 at $E000: the PRG register takes $0D (R1021). -/
theorem test_mmc1_serial :
    let w := fun (m : Mmc1) (v : Byte) (t : Nat) => m.write {} 0xE000 v t
    (w (w (w (w (w Mmc1.atReset 1 10) 0 20) 1 30) 1 40) 0 50).prg = 0x0D := by decide

/-- Of a debug run: how it ends, and what the state it ends in holds. -/
def debugGives (target : Nat) (s : State) (how : RunResult) (check : State → Bool) : Bool :=
  match executeUntilCycleDebug target s with
  | (r, .next t) => r == how && check t
  | (_, .fault _) => false
  | (_, .refused _) => false

set_option maxRecDepth 100000 in
/-- An unsupported byte at the breakpoint runs the fallback and then ends the run (R1130); a NOP there is run and does not, and
PC at the breakpoint after a step ends it (R441). -/
theorem test_breakpoint :
    debugGives 9 (setBreakpoint (some 0) (start (cpu 0) [(0, 0x02)])) .breakpointHit
      (fun t => t.cpu.pc == 1 && t.cycles == 8 && t.unsupportedSeen) = true ∧
    debugGives 9 (setBreakpoint (some 0) (start (cpu 0) [(0, 0xEA)])) .reachedTarget
      (fun t => t.cpu.pc == 1 && t.cycles == 9) = true ∧
    debugGives 99 (setBreakpoint (some 1) (start (cpu 0) [(0, 0xEA)])) .breakpointHit
      (fun t => t.cpu.pc == 1 && t.cycles == 9) = true := by decide

/-- The WRAM save call gives `false` on an I/O failure; the load call reports one only for a cartridge with a battery (R1176). -/
theorem test_wram_io :
    let q : LoadRequest := { header := State.reset.dev.cart.header, mapper := 0, prg := [], chr := [], wramRead := .ioFailure }
    saveWram false State.reset = .failed ∧ q.wramReadOk = true ∧
    { q with header := { q.header with battery := true } }.wramReadOk = false := by decide

/-- MMC3, a byte of $1000 after A12 was low for 9 dots counts, after 8 it does not (R1046). -/
theorem test_a12_filter :
    let m : Mmc3 := { Mmc3.atReset State.reset.dev.cart.header with irqLatch := 5, a12LowSince := 100 }
    (m.observe {} 0x1000 109).irqCounter = 5 ∧ (m.observe {} 0x1000 108).irqCounter = 0 := by decide

/-- R953's pseudocode tests `spr_zero_line` and slot 0 whatever `spr_line_count` is, and not at x = 255 (log 28). -/
theorem test_sprite0_stale_flag :
    let u := State.reset.dev.ppu
    let r := { u.regs with mask := 0x1E }
    let spr := { u.spr with zeroLine := true, units := Vector.replicate 8 { lo := 0xFF, hi := 0, attr := 0, x := 248 } }
    spr.lineCount = 0 ∧ sprite0HitsAt r spr 1 248 = true ∧ sprite0HitsAt r spr 1 255 = false ∧
    sprite0HitsAt r { spr with zeroLine := false } 1 248 = false := by decide

/-! ## Witnesses: the hypotheses of each statement can be met, clause by clause, at the ends of its ranges -/

theorem witness_EncodeDecodeRoundTrip : (Instr.lda (.mem (.izy 0xFF))).wellFormed = true ∧
    (Instr.jmp 0xFFFF).wellFormed = true ∧ (Instr.unsupported 0xFF).wellFormed = true := by decide

theorem witness_DecodedBytesReencode : decode [0x9D, 0x00, 0x03, 0xEA] = .ok (.sta (.abx 0x0300), [0xEA]) := rfl

theorem witness_StepRunsDecodedInstruction :
    let s := State.reset.withFetchWord 24 0xD00020
    let s0 := s.sampleExtIrq
    let r0 := memRead s0.cpu.pc s0.cycles s0
    let r1 := memRead (s0.cpu.pc + 1) (s0.cycles + 1) r0.2
    let r2 := memRead (s0.cpu.pc + 2) (s0.cycles + 2) r1.2
    s0.dev.nmiPending = false ∧ (s0.irqLine && !s0.cpu.p.i) = false ∧
    decode [r0.1, r1.1, r2.1] = .ok (.jsr 0xD000, []) := ⟨rfl, rfl, rfl⟩

/-- None, one and two pending writes; from cycle 7, by R850: 7, then 7 + 514, then 521 + 514. -/
theorem witness_BoundaryStealsDmaAndRunsDots :
    State.reset.pendingDma = 0 ∧ State.reset.settleDma.cycles = 7 ∧
    (State.reset.withPendingDma 1).pendingDma = 1 ∧ (State.reset.withPendingDma 1).settleDma.cycles = 521 ∧
    (State.reset.withPendingDma 2).pendingDma = 2 ∧ (State.reset.withPendingDma 2).settleDma.cycles = 1035 := by decide

theorem witness_UnsupportedByteFallsBack : (0x02 : Byte) ∈ unsupportedBytes ∧ (0xFF : Byte) ∈ unsupportedBytes := by decide

theorem witness_ReturnsUndoTheirEntries :
    (∃ t u, exec (.jsr 0xD000) State.reset = .next t ∧ exec .rts t = .next u) ∧
    (∃ u, exec .rti (enterInterrupt 0xFFFA false 0x1234 State.reset) = .next u) ∧
    (∃ u, exec .rti (enterInterrupt 0xFFFC false 0x1234 State.reset) = .next u) ∧
    ∃ u, exec .rti (enterInterrupt 0xFFFE true 0x1234 State.reset) = .next u :=
  ⟨⟨_, _, rfl, rfl⟩, ⟨_, rfl⟩, ⟨_, rfl⟩, ⟨_, rfl⟩⟩

/-- A state with an NMI pending. -/
def nmiState : State := State.reset.withDev { State.reset.dev with nmiPending := true }

theorem witness_PendingNmiIsTaken : nmiState.dev.nmiPending = true := rfl

theorem witness_UnmaskedIrqIsTaken :
    (let s0 := (setExtIrq true (start (cpu 0xC000))).sampleExtIrq
     s0.dev.nmiPending = false ∧ (s0.dev.cart.mapper.irq || s0.host.extIrq) = true ∧ s0.cpu.p.i = false) ∧
    let s0 := (setExtIrq true State.reset).sampleExtIrq
    s0.dev.nmiPending = false ∧ (s0.dev.cart.mapper.irq || s0.host.extIrq) = true ∧ s0.cpu.p.i = true := by decide

theorem witness_NmiLatchHeldUntilEntry : nmiState.dev.nmiPending = true ∧ ∃ t, exec (.sta (.abs 0x2000)) nmiState = .next t :=
  ⟨rfl, _, rfl⟩

/-- NOP is on none of the lists, so it meets the premise of every clause. -/
theorem witness_RegisterAndFlagWriters : (∃ t, exec .nop State.reset = .next t) ∧ writes .nop = {} := ⟨⟨_, rfl⟩, rfl⟩

theorem witness_NonStoringInstructionsFrame : (writes (.lda (.mem (.abs 0x2007)))).store = none ∧
    (writes (.lda (.mem (.abs 0x2007)))).pushed = 0 ∧ ∃ t, exec (.lda (.mem (.abs 0x2007))) State.reset = .next t :=
  ⟨rfl, rfl, _, rfl⟩

/-- Stores at the ends of RAM and WRAM, at a port, and at the PRG window. -/
theorem witness_StoringInstructionsFrame :
    (∀ a : Word, (writes (.sta (.abs a))).store = some (.abs a) ∧ ∃ t, exec (.sta (.abs a)) State.reset = .next t) ∧
    storeAddr (0x1FFF : Word) ∧ storeAddr (0x7FFF : Word) ∧ ¬storeAddr (0x2000 : Word) ∧ ¬storeAddr (0x8000 : Word) ∧
    plainAddr (0x0000 : Word) ∧ ¬sameByte (0x1FFF : Word) (0x0000 : Word) :=
  ⟨fun _ => ⟨rfl, _, rfl⟩, by decide⟩

theorem witness_PushingInstructionsFrame : 0 < (writes .brk).pushed ∧ (∃ t, exec .brk State.reset = .next t) ∧
    plainAddr (0x01FA : Word) ∧ ∀ k, k < 3 → ¬sameByte (stackAddr (0xFD - BitVec.ofNat 8 k)) (0x01FA : Word) :=
  ⟨by decide, ⟨_, rfl⟩, by decide, by decide⟩

/-- A cartridge with CHR-ROM. -/
def chrRomState : State :=
  State.reset.withDev { State.reset.dev with cart := { State.reset.dev.cart with
    header := { State.reset.dev.cart.header with chr8Count := 1 } } }

theorem step_next (s : State) (h : s.dev.nmiPending = true) (he : s.host.extIrqNext = []) : ∃ t, step s = .next t := by
  refine ⟨(enterNmi s).boundary, ?_⟩
  simp [step, State.sampleExtIrq, he, h, finishStep]

theorem witness_StepNeverChangesRom : (∃ t, step nmiState = .next t) ∧ chrRomState.dev.cart.header.chr8Count ≠ 0 ∧
    ∃ t, step (chrRomState.withDev { chrRomState.dev with nmiPending := true }) = .next t :=
  ⟨step_next _ rfl rfl, by decide, step_next _ rfl rfl⟩

theorem witness_UnsupportedFlagIsSticky : (∃ t, exec (.unsupported 0x02) State.reset = .next t) ∧
    ∃ t, exec .nop State.reset = .next t := ⟨⟨_, rfl⟩, ⟨_, rfl⟩⟩

theorem witness_BreakFlagIsNeverRead : ∃ t, exec .php State.reset = .next t := ⟨_, rfl⟩

theorem witness_StepKeepsInvariant : nmiState.Inv ∧ ∃ t, step nmiState = .next t := ⟨by decide, step_next _ rfl rfl⟩

theorem witness_RunReachesTarget : State.reset.pendingDma = 0 ∧ 7 ≤ State.reset.cycles ∧ State.reset.cycles < 8 := by decide

/-- The ends of each range, the invariant for the last clause of the PRG window, and a host that answers each port. -/
theorem witness_ReadsAreRouted :
    (0x1FFF : Word).toNat < 0x2000 ∧
    (0x2000 ≤ (0x2000 : Word).toNat ∧ (0x3FFF : Word).toNat < 0x4000) ∧
    (0x6000 ≤ (0x6000 : Word).toNat ∧ (0x7FFF : Word).toNat < 0x8000) ∧
    (0x8000 ≤ (0x8000 : Word).toNat ∧ 0x8000 ≤ (0xFFFF : Word).toNat ∧ nmiState.dev.Inv) ∧
    ((0x4000 ≤ (0x4000 : Word).toNat ∧ (0x4014 : Word).toNat < 0x4015) ∧
      (0x4018 ≤ (0x4018 : Word).toNat ∧ (0x5FFF : Word).toNat < 0x6000) ∧ State.reset.params.openBusAt = []) ∧
    ((0x4015 : Word).toNat = 0x4015 ∧
      (State.reset.withHost { State.reset.host with apuNext := [0x42] }).host.apuNext = [0x42]) ∧
    ((0x4016 : Word).toNat = 0x4016 ∧ (setController 1 [true] State.reset).host.ctrl1Next = [true]) ∧
    ((0x4017 : Word).toNat = 0x4017 ∧ (setController 2 [false] State.reset).host.ctrl2Next = [false]) :=
  ⟨by decide, by decide, by decide, by decide, by decide, by decide, by decide, by decide⟩

theorem witness_WritesAreRouted :
    (storeAddr (0x0000 : Word) ∧ storeAddr (0x1FFF : Word) ∧ storeAddr (0x6000 : Word) ∧ storeAddr (0x7FFF : Word) ∧
      plainAddr (0xFFFF : Word)) ∧
    (0x2000 ≤ (0x2000 : Word).toNat ∧ (0x3FFF : Word).toNat < 0x4000) ∧
    (0x4018 ≤ (0x4018 : Word).toNat ∧ (0x5FFF : Word).toNat < 0x6000) ∧
    (0x4000 ≤ (0x4000 : Word).toNat ∧ (0x4017 : Word).toNat < 0x4018 ∧ (0x4016 : Word).toNat ≠ 0x4014) ∧
    0x8000 ≤ (0x8000 : Word).toNat ∧ 0x8000 ≤ (0xFFFF : Word).toNat := by decide

theorem witness_OamDmaCopiesPage : (0x1F : Byte).toNat < 0x20 ∧ 0x60 ≤ (0x60 : Byte).toNat ∧ 0x60 ≤ (0xFF : Byte).toNat := by
  decide

/-- The devices after reset with other PPU registers. -/
def devWith (f : PpuRegs → PpuRegs) : Devices := State.reset.dev.withRegs (f State.reset.dev.ppu.regs)

theorem witness_ScrollAndAddressWrites : State.reset.dev.ppu.regs.w = false ∧
    (devWith fun r => { r with w := true }).ppu.regs.w = true := by decide

theorem witness_DataPortIsBuffered :
    (BitVec.ofNat 14 ((devWith fun r => { r with v := 0x3EFF }).ppu.regs.v.toNat % 0x4000) : PpuAddr).toNat < 0x3F00 ∧
    0x3F00 ≤ (BitVec.ofNat 14 ((devWith fun r => { r with v := 0x3F00 }).ppu.regs.v.toNat % 0x4000) : PpuAddr).toNat := by
  decide

theorem witness_ControlAndOamPorts : ∀ port, port = 0 ∨ port = 1 ∨ port = 3 ∨ port = 5 ∨ port = 6 →
    (portRead {} 0 port State.reset.dev).1 = 0 := by
  rintro port (rfl | rfl | rfl | rfl | rfl) <;> rfl

/-- The devices at a position, in an even or odd frame, with a PPUMASK. -/
def devAtDot (line dot : Nat) (odd : Bool) (mask : Byte) : Devices :=
  { State.reset.dev with ppu := { State.reset.dev.ppu with
    regs := { State.reset.dev.ppu.regs with mask := mask }
    time := { scanline := line, dot := dot, oddFrame := odd, dotClock := 0, frameReady := false } } }

theorem witness_PositionWithRenderingOff : (devAtDot 0 0 false 0).ppu.regs.rendering = false ∧
    (devAtDot 0 0 false 0).ppu.time.scanline = 0 ∧ (devAtDot 0 0 false 0).ppu.time.dot = 0 ∧
    (devAtDot 0 0 false 0).ppu.time.dotClock = 0 := by decide

/-- Both lengths occur: an odd frame with rendering enabled, and an even one. -/
theorem witness_FrameLength :
    ((devAtDot 240 0 true 0x18).ppu.time.scanline = 240 ∧ (devAtDot 240 0 true 0x18).ppu.time.dot = 0 ∧
      ((devAtDot 240 0 true 0x18).ppu.regs.rendering && (devAtDot 240 0 true 0x18).ppu.time.oddFrame) = true) ∧
    ((devAtDot 240 0 false 0x18).ppu.regs.rendering && (devAtDot 240 0 false 0x18).ppu.time.oddFrame) = false := by decide

/-- The entry, the exit, and a dot that is neither, with every flag set. -/
theorem witness_VblankFlagsAndNmi :
    ((devAtDot 241 1 false 0).ppu.time.scanline = 241 ∧ (devAtDot 241 1 false 0).ppu.time.dot = 1) ∧
    ((devAtDot 261 1 false 0).ppu.time.scanline = 261 ∧ (devAtDot 261 1 false 0).ppu.time.dot = 1) ∧
    (¬((devAtDot 241 2 false 0).ppu.time.scanline = 241 ∧ (devAtDot 241 2 false 0).ppu.time.dot = 1) ∧
      ¬((devAtDot 241 2 false 0).ppu.time.scanline = 261 ∧ (devAtDot 241 2 false 0).ppu.time.dot = 1)) ∧
    (devWith fun r => { r with sprite0Hit := true, spriteOverflow := true }).ppu.regs.sprite0Hit = true ∧
    (devWith fun r => { r with sprite0Hit := true, spriteOverflow := true }).ppu.regs.spriteOverflow = true := by decide

theorem witness_DotsKeepMemoriesAndCpuRegisters : State.reset.dev.ppu.regs.rendering = false := by decide

/-- OAM of zeros: on line 7 all 64 sprites are in range, on line 8 none. -/
theorem witness_SpriteEvaluationFindsFirstEight :
    let oam := State.reset.dev.ppu.mem.oam
    let found := fun line => ((List.range 64).filter fun n => inRange line (oam.read (4 * n)) 8).take 8
    (found 7).length = 8 ∧ (found 7)[7]? = some 7 ∧ 7 < 63 ∧ inRange 7 (oam.read (4 * 8)) 8 = true ∧
    (found 8).length < 8 ∧ (found 7)[0]? = some 0 ∧ (found 8).length ≤ 0 ∧
    inRange 7 (oam.read (4 * (7 + 1 + 55) + 55 % 4)) 8 = true := by decide

theorem witness_PixelPriorityAndValue : (1 : BitVec 2) ≠ 0 ∧ (3 : BitVec 2) ≠ 0 := by decide

theorem witness_BankNumbersAndWindows : 1 ≤ State.reset.dev.cart.header.prg16Count := by decide

theorem witness_MapperRegisterWrites :
    (0x8000 ≤ (0x8000 : Word).toNat ∧ 0x8000 ≤ (0xFFFF : Word).toNat) ∧
    (Mmc1.atReset.shift = 0 ∧ Mmc1.atReset.count = 0 ∧ (∀ c, Mmc1.atReset.lastWriteCycle = some c → (10 : Nat) ≠ c + 1) ∧
      (20 : Nat) ≠ 10 + 1 ∧ (30 : Nat) ≠ 20 + 1 ∧ (40 : Nat) ≠ 30 + 1 ∧ (50 : Nat) ≠ 40 + 1 ∧
      (0x7F : Byte).toNat < 128 ∧ (0x00 : Byte).toNat < 128) ∧
    (128 ≤ (0x80 : Byte).toNat ∧ (({} : Params).mmc1ResetForcesPrgMode3 = false)) ∧
    (({} : Params).mmc1IgnoreConsecutive = true ∧ { Mmc1.atReset with lastWriteCycle := some 9 }.lastWriteCycle = some 9) := by
  refine ⟨by decide, ⟨rfl, rfl, ?_, by decide⟩, by decide, by decide⟩
  intro c hc
  simp [Mmc1.atReset] at hc

/-- The counter with no IRQ pending and with one; an address with A12 and one without; each level before; the filter met and
missed by one dot; a variant that is not MMC3. -/
theorem witness_Mmc3CountsRPlusOneEdges :
    let m := Mmc3.atReset State.reset.dev.cart.header
    let high := { m with a12Prev := true }
    (m.irqPending = false ∧ { m with irqPending := true }.irqPending = true) ∧
    ((0x1000 : PpuAddr).toNat / 0x1000 % 2 = 1 ∧ (0x0FFF : PpuAddr).toNat / 0x1000 % 2 = 0) ∧
    (m.a12Prev = false ∧ high.a12Prev = true) ∧
    (m.a12LowSince + ({} : Params).a12FilterDots ≤ 9 ∧ ¬m.a12LowSince + ({} : Params).a12FilterDots ≤ 8) ∧
    Mapper.nrom ≠ .mmc3 m := by decide

theorem witness_PpuAddressSpace :
    (0x2000 ≤ (0x2000 : PpuAddr).toNat ∧ (0x3EFF : PpuAddr).toNat < 0x3F00) ∧
    ((0x1FFF : PpuAddr).toNat < 0x2000 ∧ State.reset.dev.cart.header.chr8Count = 0 ∧
      chrRomState.dev.cart.header.chr8Count ≠ 0 ∧ nmiState.dev.Inv) ∧
    0x3F00 ≤ (0x3F00 : PpuAddr).toNat := by decide

end Sys2Proof.Tests
end

section
/-! The PPU's address space (spec/20_memory.md section 3): which memory an address reads and writes, and at which index. -/

namespace Sys2Proof.Machine

/-! ## Nametable mirroring (R221) -/

/-- The physical nametable of each logical one, as a table. -/
def Mirroring.table : Mirroring → List Nat
  | .horizontal => [0, 0, 1, 1]
  | .vertical => [0, 1, 0, 1]
  | .singleLower => [0, 0, 0, 0]
  | .singleUpper => [1, 1, 1, 1]
  | .fourScreen => [0, 1, 2, 3]

theorem Mirroring.table_getElem? (m : Mirroring) {q : Nat} (hq : q < 4) : m.table[q]? = some (m.physical q) := by
  have entries : ∀ i : Fin 4, m.table[i.val]? = some (m.physical i) := by cases m <;> decide
  exact entries ⟨q, hq⟩

/-! ## The palette index (R222) -/

theorem and_31_eq_ofNat_mod (a : PpuAddr) : a &&& 0x1F = BitVec.ofNat 14 (a.toNat % 32) := by
  have hmask : (a &&& 0x1F).toNat = a.toNat % 32 := Nat.and_two_pow_sub_one_eq_mod a.toNat 5
  apply BitVec.eq_of_toNat_eq
  rw [hmask, BitVec.toNat_ofNat]
  omega

theorem palIndex_eq (a : PpuAddr) :
    palIndex a =
      let i := a.toNat % 32
      if i = 16 ∨ i = 20 ∨ i = 24 ∨ i = 28 then i - 16 else i := by
  have entries : ∀ i : Fin 32,
      (if BitVec.ofNat 14 i &&& 0x13 = 0x10 then (BitVec.ofNat 14 i &&& 0x0F).toNat else (BitVec.ofNat 14 i).toNat) =
        if i.val = 16 ∨ i.val = 20 ∨ i.val = 24 ∨ i.val = 28 then i.val - 16 else i.val := by decide
  rw [palIndex, and_31_eq_ofNat_mod]
  exact entries ⟨a.toNat % 32, Nat.mod_lt _ (by decide)⟩

theorem setWidth_six_eq_low (v : Byte) : v.setWidth 6 = BitVec.ofNat 6 (v.toNat % 64) :=
  BitVec.eq_of_toNat_eq (by simp)

/-! ## Reads and writes by region (R220) -/

section
variable (d : Devices) {a : PpuAddr}

theorem ppuRead_patternTable (h : a.toNat < 0x2000) : d.ppuRead a = d.cart.readChr a := if_pos h

theorem ppuRead_nametable (h : 0x2000 ≤ a.toNat) (h' : a.toNat < 0x3F00) :
    d.ppuRead a = d.ppu.mem.ciram.read (d.cart.windows.mirroring.ntIndex a) := by
  rw [Devices.ppuRead, if_neg (Nat.not_lt.mpr h), if_pos h']

theorem ppuRead_palette (h : 0x3F00 ≤ a.toNat) :
    d.ppuRead a = (readPalette d.ppu.mem (palIndex a)).setWidth 8 := by
  rw [Devices.ppuRead, if_neg (by omega), if_neg (Nat.not_lt.mpr h)]

theorem ppuWrite_patternTable (h : a.toNat < 0x2000) (v : Byte) :
    d.ppuWrite a v = { d with cart := d.cart.writeChr a v } := if_pos h

theorem ppuWrite_nametable (h : 0x2000 ≤ a.toNat) (h' : a.toNat < 0x3F00) (v : Byte) :
    d.ppuWrite a v = { d with ppu := { d.ppu with mem := { d.ppu.mem with
      ciram := d.ppu.mem.ciram.write (d.cart.windows.mirroring.ntIndex a) v } } } := by
  rw [Devices.ppuWrite, if_neg (Nat.not_lt.mpr h), if_pos h']

theorem ppuWrite_palette (h : 0x3F00 ≤ a.toNat) (v : Byte) :
    d.ppuWrite a v = { d with ppu := { d.ppu with
      mem := writePalette d.ppu.mem (palIndex a) (v.setWidth 6) } } := by
  rw [Devices.ppuWrite, if_neg (by omega), if_neg (Nat.not_lt.mpr h)]

end

/-- A cartridge without CHR-ROM stores the byte (R113). -/
theorem writeChr_ram {c : Cartridge} (h : c.header.chr8Count = 0) (a : PpuAddr) (v : Byte) :
    c.writeChr a v = { c with chr := c.chr.write (c.chrOffset a) v } := if_pos h

/-- CHR-ROM ignores writes (R113). -/
theorem writeChr_rom {c : Cartridge} (h : c.header.chr8Count ≠ 0) (a : PpuAddr) (v : Byte) :
    c.writeChr a v = c := if_neg h

/-- Settles O59, by the equation of each region of the address space, the mirroring table and the palette index's low five
bits. -/
theorem ppuAddressSpace : Obligations.PpuAddressSpace := by
  unfold Obligations.PpuAddressSpace
  refine ⟨fun m a _ _ => ?mirroring, palIndex_eq, fun m i => (readPalette m i).isLt, fun d a v => ⟨?chr, ?ciram, ?palette⟩⟩
  case mirroring =>
    have hq : (a.toNat - 0x2000) % 0x1000 / 1024 < 4 := by omega
    exact ⟨_, m.table_getElem? hq, rfl⟩
  case chr =>
    intro h
    refine ⟨ppuRead_patternTable d h, fun hram => ?_, fun hrom => ?_, fun hinv => ?_⟩
    · rw [ppuWrite_patternTable d h, writeChr_ram hram, Cartridge.chrOffset]
    · rw [ppuWrite_patternTable d h, writeChr_rom hrom]
    · obtain ⟨-, hwindows, -⟩ := hinv
      have hpage := d.cart.mapper.chrPage_lt d.cart.header (a.toNat / 1024)
      rwa [← hwindows] at hpage
  case ciram => exact fun h h' => ⟨ppuRead_nametable d h h', ppuWrite_nametable d h h' v⟩
  case palette =>
    intro h
    refine ⟨?_, ?_⟩
    · rw [ppuRead_palette d h]
      exact BitVec.toNat_setWidth_of_le (by decide)
    · rw [ppuWrite_palette d h, setWidth_six_eq_low]

end Sys2Proof.Machine
end

section
/-! Effective addresses (spec/40_interpreter.md section 3): an indexed address, a zero-page sum and a page-0 pointer on
numbers, and the equation of each pointer mode. -/

namespace Sys2Proof.Machine

/-! ## An indexed address (R417, R418, R433) -/

section
variable (base : Word) (index : Byte) (s : State)

theorem indexed_ea_toNat : (indexed base index s).ea.toNat = (base.toNat + index.toNat) % 65536 := by
  rw [indexed, BitVec.toNat_add, zext16_toNat]

theorem indexed_cross_iff :
    (indexed base index s).cross = true ↔ (indexed base index s).ea.toNat / 256 ≠ base.toNat / 256 :=
  pageCross_iff base _

end

/-! ## Page 0 (R413, R414, R419, R420) -/

/-- The sum of a zero-page operand and an index never leaves page 0. -/
theorem zext16_add_toNat (z index : Byte) : (zext16 (z + index)).toNat = (z.toNat + index.toNat) % 256 := by
  rw [zext16_toNat, BitVec.toNat_add]

/-- The 16-bit pointer whose low byte lies at `p` in page 0; its high byte follows in the same page. -/
def zeroPagePointer (s : State) (p : Nat) : Nat := (s.ram.read p).toNat + 256 * (s.ram.read ((p + 1) % 256)).toNat

theorem read16wrap_zp_toNat (z : Byte) (stamp : Nat) (s : State) :
    (read16wrap (zext16 z) stamp s).1.toNat = zeroPagePointer s z.toNat := by
  have hnext : (z + 1).toNat = (z.toNat + 1) % 256 := BitVec.toNat_add z 1
  rw [read16wrap_zp, joinBytes_toNat, hnext, zeroPagePointer, Nat.add_comm]

/-- (zp),Y indexes the pointer by the Y of the state before the pointer reads, which change nothing. -/
theorem locate_izy (z : Byte) (s : State) :
    locate (.izy z) s = indexed (read16wrap (zext16 z) (s.cycles + 2) s).1 s.cpu.y s := by
  simp only [locate, read16wrap_zp]

theorem locate_izx_ea_toNat (z : Byte) (s : State) :
    (locate (.izx z) s).ea.toNat = zeroPagePointer s ((z.toNat + s.cpu.x.toNat) % 256) := by
  have hpointer := read16wrap_zp_toNat (z + s.cpu.x) (s.cycles + 3) s
  rwa [BitVec.toNat_add] at hpointer

theorem locate_izy_ea_toNat (z : Byte) (s : State) :
    (locate (.izy z) s).ea.toNat = (zeroPagePointer s z.toNat + s.cpu.y.toNat) % 65536 := by
  rw [locate_izy, indexed_ea_toNat, read16wrap_zp_toNat]

theorem locate_izy_cross_iff (z : Byte) (s : State) :
    (locate (.izy z) s).cross = true ↔ (locate (.izy z) s).ea.toNat / 256 ≠ zeroPagePointer s z.toNat / 256 := by
  rw [locate_izy, indexed_cross_iff, read16wrap_zp_toNat]

/-- Settles O7, mode by mode: a zero-page sum stays in page 0, an indexed address wraps at 16 bits and crosses exactly when
its page differs from the base's, and the pointer modes read both bytes from page 0. -/
theorem operandAddresses : Obligations.OperandAddresses := by
  unfold Obligations.OperandAddresses
  intro s
  refine ⟨?zp, ?zpx, ?zpy, ?abs, ?abx, ?aby, ?izx, ?izy, fun m => locate_state m s⟩
  case zp => exact fun z => ⟨zext16_toNat z, rfl⟩
  case zpx => exact fun z => ⟨zext16_add_toNat z s.cpu.x, rfl⟩
  case zpy => exact fun z => ⟨zext16_add_toNat z s.cpu.y, rfl⟩
  case abs => exact fun a => ⟨rfl, rfl⟩
  case abx => exact fun a => ⟨indexed_ea_toNat a s.cpu.x s, indexed_cross_iff a s.cpu.x s⟩
  case aby => exact fun a => ⟨indexed_ea_toNat a s.cpu.y s, indexed_cross_iff a s.cpu.y s⟩
  case izx => exact fun z => ⟨locate_izx_ea_toNat z s, rfl⟩
  case izy => exact fun z => ⟨locate_izy_ea_toNat z s, locate_izy_cross_iff z s⟩

end Sys2Proof.Machine
end

section
/-! Register transfers (spec/41_load_store_transfer.md section 3): a two-cycle instruction on registers and flags alone, for
a register computation that does not depend on PC. -/

namespace Sys2Proof.Machine

/-! ## A register loaded with N and Z (R15) -/

section
variable (c : Cpu) (v : Byte)

theorem Cpu.loadA_eq : c.loadA v = { c with a := v, p := nz v c.p } := by
  rw [← Flags.setNZ_eq]
  rfl

theorem Cpu.loadX_eq : c.loadX v = { c with x := v, p := nz v c.p } := by
  rw [← Flags.setNZ_eq]
  rfl

theorem Cpu.loadY_eq : c.loadY v = { c with y := v, p := nz v c.p } := by
  rw [← Flags.setNZ_eq]
  rfl

end

/-! ## The implied shape (R410, R507) -/

/-- The model moves PC before it computes the registers; for a computation that leaves PC alone the order plays no part. -/
theorem implied_eq_ran {f : Cpu → Cpu} (hf : ∀ c pc, f (c.withPc pc) = (f c).withPc pc) (s : State) :
    implied f s = s.ran 1 2 (f s.cpu) := by
  simp only [implied, State.advance_cpu, hf]
  rfl

section
variable {reg : Cpu → Byte} (hreg : ∀ c pc, reg (c.withPc pc) = reg c) (s : State)
include hreg

theorem implied_loadA :
    implied (fun c => c.loadA (reg c)) s =
      s.ran 1 2 { s.cpu with a := reg s.cpu, p := nz (reg s.cpu) s.cpu.p } := by
  rw [implied_eq_ran (fun c pc => by rw [hreg]; rfl), Cpu.loadA_eq]

theorem implied_loadX :
    implied (fun c => c.loadX (reg c)) s =
      s.ran 1 2 { s.cpu with x := reg s.cpu, p := nz (reg s.cpu) s.cpu.p } := by
  rw [implied_eq_ran (fun c pc => by rw [hreg]; rfl), Cpu.loadX_eq]

theorem implied_loadY :
    implied (fun c => c.loadY (reg c)) s =
      s.ran 1 2 { s.cpu with y := reg s.cpu, p := nz (reg s.cpu) s.cpu.p } := by
  rw [implied_eq_ran (fun c pc => by rw [hreg]; rfl), Cpu.loadY_eq]

end

/-- Settles O16: no source register depends on PC, so each transfer is the load of its destination with the source; TXS
alone writes its destination without N and Z. -/
theorem transfersCopyRegister : Obligations.TransfersCopyRegister := by
  unfold Obligations.TransfersCopyRegister
  intro s
  refine ⟨?tax, rfl, ?tay, rfl, ?txa, rfl, ?tya, rfl, ?tsx, rfl, ?txs, rfl⟩
  case tax => exact congrArg Host.Outcome.next (implied_loadX (reg := Cpu.a) (fun _ _ => rfl) s)
  case tay => exact congrArg Host.Outcome.next (implied_loadY (reg := Cpu.a) (fun _ _ => rfl) s)
  case txa => exact congrArg Host.Outcome.next (implied_loadA (reg := Cpu.x) (fun _ _ => rfl) s)
  case tya => exact congrArg Host.Outcome.next (implied_loadA (reg := Cpu.y) (fun _ _ => rfl) s)
  case tsx => exact congrArg Host.Outcome.next (implied_loadX (reg := Cpu.s) (fun _ _ => rfl) s)
  case txs =>
    exact congrArg Host.Outcome.next (implied_eq_ran (f := fun c => c.withS c.x) (fun _ _ => rfl) s)

end Sys2Proof.Machine
end

section
/-! ADC and SBC whatever D holds (spec/43_arith_logic_compare.md R601): a read operand looks at no register but X and Y, and
the two flag computations carry D through. -/

namespace Sys2Proof.Machine

/-! ## An operand depends on X and Y alone (R413 to R420) -/

section
variable {s : State} {c : Cpu} (hx : c.x = s.cpu.x) (hy : c.y = s.cpu.y)
include hx hy

theorem locate_withCpu (m : MemMode) : locate m (s.withCpu c) = { locate m s with state := s.withCpu c } := by
  cases m with
  | zp z => rfl
  | zpx z => simp only [locate, State.withCpu_cpu, hx]
  | zpy z => simp only [locate, State.withCpu_cpu, hy]
  | abs a => rfl
  | abx a => simp only [locate, indexed, State.withCpu_cpu, hx]
  | aby a => simp only [locate, indexed, State.withCpu_cpu, hy]
  | izx z => simp only [locate, read16wrap_zp, State.withCpu_cpu, State.withCpu_ram, hx]
  | izy z => simp only [locate, indexed, read16wrap_zp, State.withCpu_cpu, State.withCpu_ram, hy]

theorem readOperand_withCpu (o : ReadOperand) :
    readOperand o (s.withCpu c) = { readOperand o s with state := (readOperand o s).state.withCpu c } := by
  cases o with
  | imm b => rfl
  | mem m => simp only [readOperand, locate_withCpu hx hy, locate_state, memRead_withCpu, State.withCpu_cycles]

end

/-! ## D set to a value -/

def Flags.withD (f : Flags) (d : Bool) : Flags := { f with d := d }

def Cpu.withD (c : Cpu) (d : Bool) : Cpu := c.withP (c.p.withD d)

def State.withD (s : State) (d : Bool) : State := s.withCpu (s.cpu.withD d)

/-- A computation on the operand byte and the registers that neither reads D nor sets it. -/
def KeepsD (f : Byte → Cpu → Cpu) : Prop := ∀ m c d, f m (c.withD d) = (f m c).withD d

theorem readInstr_withD {f : Byte → Cpu → Cpu} (hf : KeepsD f) (o : ReadOperand) (s : State) (d : Bool) :
    readInstr o f (s.withD d) = (readInstr o f s).withD d := by
  have hadvance : ((s.withD d).advance (1 + o.size)).cpu = (s.advance (1 + o.size)).cpu.withD d := rfl
  have hoperand := readOperand_withCpu (s := s) (c := s.cpu.withD d) rfl rfl o
  rw [readInstr_eq, readInstr_eq, hadvance, hf, State.withD, hoperand]
  rfl

/-! ## The results as numbers (R610, R611) -/

theorem adc_keepsD : KeepsD (fun m c => c.combineA (addWithCarry c.a m c.p)) := fun _ _ _ => rfl

theorem sbc_keepsD : KeepsD (fun m c => c.combineA (subWithBorrow c.a m c.p)) := fun _ _ _ => rfl

theorem readInstr_a (o : ReadOperand) (f : Byte → Cpu → Cpu) (s : State) :
    (readInstr o f s).cpu.a = (f (readOperand o s).value (s.advance (1 + o.size)).cpu).a := by
  rw [readInstr_eq]
  rfl

theorem xor_ff_toNat (m : Byte) : (m ^^^ 0xFF).toNat = 255 - m.toNat := by
  have hnot : m ^^^ 0xFF = ~~~m := BitVec.xor_allOnes
  rw [hnot, BitVec.toNat_not]

/-- The sum with the complemented operand is the difference less the borrow. -/
theorem subWithBorrow_fst (a m : Byte) (f : Flags) :
    (subWithBorrow a m f).1 = BitVec.ofInt 8 ((a.toNat : Int) - m.toNat - (1 - flagBit f.c)) := by
  have hm := m.isLt
  apply BitVec.eq_of_toNat_eq
  simp only [subWithBorrow, xor_ff_toNat, BitVec.toNat_ofNat, BitVec.toNat_ofInt]
  omega

/-- Settles O38: each instruction is a read-kind one, its computation gives the binary result, and it keeps D. -/
theorem decimalFlagHasNoEffect : Obligations.DecimalFlagHasNoEffect := by
  unfold Obligations.DecimalFlagHasNoEffect
  intro o s d
  refine ⟨⟨_, rfl, ?adc_result, ?adc_d⟩, ⟨_, rfl, ?sbc_result, ?sbc_d⟩⟩
  case adc_result => exact readInstr_a o _ s
  case adc_d => exact congrArg Host.Outcome.next (readInstr_withD adc_keepsD o s d)
  case sbc_result => exact (readInstr_a o _ s).trans (subWithBorrow_fst _ _ _)
  case sbc_d => exact congrArg Host.Outcome.next (readInstr_withD sbc_keepsD o s d)

end Sys2Proof.Machine
end

section
/-! Increment and decrement of the index registers (spec/44_incdec_shift.md R662 to R665): the load of X or Y with its own
value plus or minus 1. -/

namespace Sys2Proof.Machine

/-! ## Plus and minus 1 modulo 256 -/

theorem add_one_eq_ofNat_mod (v : Byte) : v + 1 = BitVec.ofNat 8 ((v.toNat + 1) % 256) :=
  BitVec.eq_of_toNat_eq (by simp)

theorem sub_one_eq_ofNat_mod (v : Byte) : v - 1 = BitVec.ofNat 8 ((v.toNat + 255) % 256) :=
  BitVec.eq_of_toNat_eq (by simp [BitVec.toNat_sub, Nat.add_comm])

/-- Settles O17: each instruction loads its register with a value that does not depend on PC, and the byte sum or difference
is the one modulo 256. -/
theorem indexRegistersStep : Obligations.IndexRegistersStep := by
  unfold Obligations.IndexRegistersStep
  intro s
  simp only [← add_one_eq_ofNat_mod, ← sub_one_eq_ofNat_mod]
  refine ⟨?inx, rfl, ?iny, rfl, ?dex, rfl, ?dey, rfl⟩
  case inx => exact congrArg Host.Outcome.next (implied_loadX (reg := fun c => c.x + 1) (fun _ _ => rfl) s)
  case iny => exact congrArg Host.Outcome.next (implied_loadY (reg := fun c => c.y + 1) (fun _ _ => rfl) s)
  case dex => exact congrArg Host.Outcome.next (implied_loadX (reg := fun c => c.x - 1) (fun _ _ => rfl) s)
  case dey => exact congrArg Host.Outcome.next (implied_loadY (reg := fun c => c.y - 1) (fun _ _ => rfl) s)

end Sys2Proof.Machine
end

section
/-! The returns (spec/45_control_transfer.md section 3): the bytes that RTS and RTI pull, at addresses of page 1 counted in
numbers from S, and the instruction each makes of them. -/

namespace Sys2Proof.Machine

/-! ## The bytes of page 1 above S (R102, R550) -/

/-- The byte that the `k`-th pull from here gives: S wraps inside page 1. -/
def stackByte (s : State) (k : Nat) : Byte := s.ram.read (0x100 + (s.cpu.s.toNat + k) % 256)

theorem read_stack_add (s : State) (k : Nat) :
    s.ram.read (0x100 + (s.cpu.s + BitVec.ofNat 8 k).toNat) = stackByte s k := by
  rw [BitVec.toNat_add, BitVec.toNat_ofNat, Nat.add_mod_mod, stackByte]

theorem add_one_one (b : Byte) : b + 1 + 1 = b + 2 := BitVec.add_assoc b 1 1

theorem add_one_one_one (b : Byte) : b + 1 + 1 + 1 = b + 3 := by
  rw [BitVec.add_assoc (b + 1)]
  exact BitVec.add_assoc b 1 2

theorem read_first_pull (s : State) : s.ram.read (0x100 + (s.cpu.s + 1).toNat) = stackByte s 1 := read_stack_add s 1

theorem read_second_pull (s : State) : s.ram.read (0x100 + (s.cpu.s + 2).toNat) = stackByte s 2 := read_stack_add s 2

theorem read_third_pull (s : State) : s.ram.read (0x100 + (s.cpu.s + 3).toNat) = stackByte s 3 := read_stack_add s 3

/-- A pulled word on numbers: the low byte lies below the high byte. -/
theorem pullWord_stackByte (stamp : Nat) (s : State) :
    pullWord stamp s =
      (BitVec.ofNat 16 (256 * (stackByte s 2).toNat + (stackByte s 1).toNat), s.withCpu (s.cpu.withS (s.cpu.s + 2))) := by
  rw [pullWord_eq, add_one_one, joinBytes_eq, read_first_pull, read_second_pull]

theorem returnFromInterrupt_stackByte (s : State) :
    returnFromInterrupt s = s.withCpu
      { s.cpu with
        s := s.cpu.s + 3
        p := Flags.unpack (stackByte s 1)
        pc := BitVec.ofNat 16 (256 * (stackByte s 3).toNat + (stackByte s 2).toNat) } := by
  rw [returnFromInterrupt_eq, add_one_one_one, add_one_one, joinBytes_eq, read_first_pull, read_second_pull, read_third_pull]

/-! ## RTS and RTI (R713, R714) -/

/-- RTS adds 1 to the pulled word; the addition of words is the one modulo 65536. -/
theorem execRts_eq (s : State) :
    execRts s = .next { s with
      cpu := { s.cpu with
        s := s.cpu.s + 2
        pc := BitVec.ofNat 16 (256 * (stackByte s 2).toNat + (stackByte s 1).toNat + 1) }
      cycles := s.cycles + 6 } := by
  rw [execRts, pullWord_stackByte, BitVec.ofNat_add _ 1]
  rfl

/-- RTI returns from the pulled PC whatever PC it ran at. -/
theorem execRti_eq (s : State) :
    execRti s = .next { s with
      cpu := { s.cpu with
        s := s.cpu.s + 3
        p := Flags.unpack (stackByte s 1)
        pc := BitVec.ofNat 16 (256 * (stackByte s 3).toNat + (stackByte s 2).toNat) }
      cycles := s.cycles + 6 } := by
  rw [execRti, returnFromInterrupt_stackByte]
  rfl

/-- Settles O24, by the equation of each instruction on the bytes of page 1 above S. -/
theorem returnsPullPc : Obligations.ReturnsPullPc := by
  unfold Obligations.ReturnsPullPc
  exact fun s => ⟨rfl, rfl, execRts_eq s, execRti_eq s⟩

end Sys2Proof.Machine
end

section
/-! Flag instructions and NOP (spec/46_flags_misc.md R760 to R770): a two-cycle instruction on the flags alone, with one
equation for every computation of flags. -/

namespace Sys2Proof.Machine

/-- An implied instruction that only computes flags: PC and the clock move, and `g` gives the flags (R750). -/
theorem implied_withP (g : Flags → Flags) (s : State) :
    implied (fun c => c.withP (g c.p)) s = s.ran 1 2 { s.cpu with p := g s.cpu.p } :=
  implied_eq_ran (fun _ _ => rfl) s

/-- NOP is the flag computation that writes no flag (R770). -/
theorem implied_id (s : State) : implied (fun c => c) s = s.ran 1 2 { s.cpu with p := s.cpu.p } :=
  implied_withP (fun f => f) s

/-- Settles O20: each instruction is the flag computation that writes its one flag, and NOP the one that writes none. -/
theorem flagInstructionsWriteOneFlag : Obligations.FlagInstructionsWriteOneFlag := by
  unfold Obligations.FlagInstructionsWriteOneFlag
  intro s
  refine ⟨?clc, rfl, ?sec, rfl, ?cli, rfl, ?sei, rfl, ?cld, rfl, ?sed, rfl, ?clv, rfl, ?nop, rfl⟩
  case clc => exact congrArg Host.Outcome.next (implied_withP (fun f => { f with c := false }) s)
  case sec => exact congrArg Host.Outcome.next (implied_withP (fun f => { f with c := true }) s)
  case cli => exact congrArg Host.Outcome.next (implied_withP (fun f => { f with i := false }) s)
  case sei => exact congrArg Host.Outcome.next (implied_withP (fun f => { f with i := true }) s)
  case cld => exact congrArg Host.Outcome.next (implied_withP (fun f => { f with d := false }) s)
  case sed => exact congrArg Host.Outcome.next (implied_withP (fun f => { f with d := true }) s)
  case clv => exact congrArg Host.Outcome.next (implied_withP (fun f => { f with v := false }) s)
  case nop => exact congrArg Host.Outcome.next (implied_id s)

end Sys2Proof.Machine
end

section
/-! The flag events of a dot (spec/51_ppu_timing_rendering.md R910, R911). A dot's flags are those its event gives, raised by
a sprite-0 hit of its pixel (R953) and an overflow of its evaluation (R941); both parts work on the visible lines alone. -/

namespace Sys2Proof.Machine

/-- The three status flags of $2002 and the NMI latch. -/
structure StatusFlags where
  vblank : Bool
  sprite0Hit : Bool
  spriteOverflow : Bool
  nmiPending : Bool

def Devices.statusFlags (d : Devices) : StatusFlags :=
  { vblank := d.ppu.regs.vblank, sprite0Hit := d.ppu.regs.sprite0Hit, spriteOverflow := d.ppu.regs.spriteOverflow,
    nmiPending := d.nmiPending }

/-- The flags after a sprite-0 hit and a sprite overflow, where there was one: a flag that is set stays set. -/
def StatusFlags.raise (f : StatusFlags) (hit overflow : Bool) : StatusFlags :=
  { f with sprite0Hit := f.sprite0Hit || hit, spriteOverflow := f.spriteOverflow || overflow }

@[simp] theorem StatusFlags.raise_false (f : StatusFlags) : f.raise false false = f := by
  simp only [raise, Bool.or_false]

theorem StatusFlags.raise_raise (f : StatusFlags) (hit overflow : Bool) :
    (f.raise hit false).raise false overflow = f.raise hit overflow := by
  simp only [raise, Bool.or_false]

/-! ## The parts of a dot that leave the flags alone -/

@[simp] theorem withSpr_statusFlags (d : Devices) (s : SprPipe) : (d.withSpr s).statusFlags = d.statusFlags := rfl

@[simp] theorem withV_statusFlags (d : Devices) (v : VramAddr) : (d.withV v).statusFlags = d.statusFlags := rfl

@[simp] theorem bgShiftAndReload_statusFlags (dot : Nat) (d : Devices) :
    (bgShiftAndReload dot d).statusFlags = d.statusFlags := rfl

@[simp] theorem setUnit_statusFlags (d : Devices) (i : Nat) (f : SprUnit → SprUnit) :
    (d.setUnit i f).statusFlags = d.statusFlags := by
  unfold Devices.setUnit
  split
  · exact withSpr_statusFlags ..
  · rfl

@[simp] theorem bgFetchPhase_statusFlags (p : Params) (q : Nat) (d : Devices) :
    (bgFetchPhase p q d).statusFlags = d.statusFlags := by
  unfold bgFetchPhase
  split <;> rfl

@[simp] theorem bgFetch_statusFlags (p : Params) (dot : Nat) (d : Devices) :
    (bgFetch p dot d).statusFlags = d.statusFlags := by
  simp only [bgFetch, apply_ite Devices.statusFlags, bgFetchPhase_statusFlags, ite_self]

@[simp] theorem vUpdate_statusFlags (line dot : Nat) (d : Devices) : (vUpdate line dot d).statusFlags = d.statusFlags := by
  simp only [vUpdate, apply_ite Devices.statusFlags, withV_statusFlags, ite_self]

@[simp] theorem spriteFetchPhase_statusFlags (p : Params) (line i q : Nat) (d : Devices) :
    (spriteFetchPhase p line i q d).statusFlags = d.statusFlags := by
  unfold spriteFetchPhase
  split
  case h_4 => exact setUnit_statusFlags ..
  case h_6 => exact setUnit_statusFlags ..
  all_goals rfl

@[simp] theorem spriteFetch_statusFlags (p : Params) (line dot : Nat) (d : Devices) :
    (spriteFetch p line dot d).statusFlags = d.statusFlags := by
  rw [spriteFetch, spriteFetchPhase_statusFlags]
  split <;> rfl

/-! ## The two parts that raise a flag, on the visible lines alone (R920, R941, R953) -/

theorem outputPixel_statusFlags (line x : Nat) (d : Devices) :
    ∃ hit, (outputPixel line x d).statusFlags = d.statusFlags.raise hit false := by
  unfold outputPixel
  extract_lets r bgP idx c
  split
  · exact ⟨sprite0HitsAt r d.ppu.spr bgP x, by simp only [StatusFlags.raise, Bool.or_false]; rfl⟩
  · exact ⟨false, (StatusFlags.raise_false _).symm⟩

theorem spriteEvaluation_statusFlags (line : Nat) (d : Devices) :
    ∃ overflow, (spriteEvaluation line d).statusFlags = d.statusFlags.raise false overflow :=
  ⟨_, by simp only [StatusFlags.raise, Bool.or_false]; rfl⟩

theorem dotPixel_statusFlags (line dot : Nat) (d : Devices) :
    ∃ hit, (239 < line → hit = false) ∧ (dotPixel line dot d).statusFlags = d.statusFlags.raise hit false := by
  unfold dotPixel
  split
  case isTrue visible =>
    obtain ⟨hit, h⟩ := outputPixel_statusFlags line (dot - 1) d
    exact ⟨hit, fun hline => absurd visible.1 hline.not_ge, h⟩
  case isFalse => exact ⟨false, fun _ => rfl, (StatusFlags.raise_false _).symm⟩

theorem dotEvaluation_statusFlags (line dot : Nat) (d : Devices) :
    ∃ overflow, (239 < line → overflow = false) ∧
      (dotEvaluation line dot d).statusFlags = d.statusFlags.raise false overflow := by
  by_cases visible : dot = 256 ∧ line ≤ 239
  · obtain ⟨overflow, h⟩ := spriteEvaluation_statusFlags line d
    refine ⟨overflow, fun hline => absurd visible.2 hline.not_ge, ?_⟩
    rwa [dotEvaluation, if_pos visible.1, if_pos visible.2]
  · refine ⟨false, fun _ => rfl, ?_⟩
    rw [StatusFlags.raise_false, dotEvaluation]
    split
    case isTrue hdot =>
      rw [if_neg fun hline => visible ⟨hdot, hline⟩]
      split <;> rfl
    case isFalse => rfl

theorem dotFetches_statusFlags (p : Params) (line dot : Nat) (d : Devices) :
    ∃ overflow, (239 < line → overflow = false) ∧
      (dotFetches p line dot d).statusFlags = d.statusFlags.raise false overflow := by
  obtain ⟨overflow, hvisible, h⟩ := dotEvaluation_statusFlags line dot (vUpdate line dot (bgFetch p dot d))
  refine ⟨overflow, hvisible, ?_⟩
  rw [vUpdate_statusFlags, bgFetch_statusFlags] at h
  rw [← h]
  simp only [dotFetches, apply_ite Devices.statusFlags, spriteFetch_statusFlags, ite_self]

/-! ## A dot -/

/-- After its event a dot only raises the sprite flags, and off the visible lines not even those. -/
theorem dotWork_statusFlags (p : Params) (line dot : Nat) (d : Devices) :
    ∃ hit overflow, (239 < line → hit = false ∧ overflow = false) ∧
      (dotWork p line dot d).statusFlags = (dotEvents line dot d).statusFlags.raise hit overflow := by
  unfold dotWork
  extract_lets d1 active d2 d3
  have hshift : d2.statusFlags = d1.statusFlags := by
    simp only [d2, apply_ite Devices.statusFlags, bgShiftAndReload_statusFlags, ite_self]
  obtain ⟨hit, hhit, hpixel⟩ := dotPixel_statusFlags line dot d2
  obtain ⟨overflow, hoverflow, hfetches⟩ := dotFetches_statusFlags p line dot d3
  rw [hshift] at hpixel
  by_cases hactive : active = true
  · refine ⟨hit, overflow, fun hline => ⟨hhit hline, hoverflow hline⟩, ?_⟩
    rw [if_pos hactive, hfetches, hpixel, StatusFlags.raise_raise]
  · refine ⟨hit, false, fun hline => ⟨hhit hline, rfl⟩, ?_⟩
    rw [if_neg hactive, apply_ite Devices.statusFlags, withSpr_statusFlags, ite_self, hpixel]

theorem ppuDot_statusFlags (p : Params) (d : Devices) :
    ∃ hit overflow, (239 < d.ppu.time.scanline → hit = false ∧ overflow = false) ∧
      (ppuDot p d).statusFlags = (dotEvents d.ppu.time.scanline d.ppu.time.dot d).statusFlags.raise hit overflow :=
  dotWork_statusFlags p d.ppu.time.scanline d.ppu.time.dot d

/-! ## The events (R904, R910, R911) -/

theorem dotEvents_entry (d : Devices) : dotEvents 241 1 d = vblankEntry d := rfl

theorem dotEvents_leave (d : Devices) : dotEvents 261 1 d = vblankExit d := rfl

/-- The frame end sets no flag. -/
theorem dotEvents_statusFlags_other {line dot : Nat} (hentry : ¬(line = 241 ∧ dot = 1)) (hleave : ¬(line = 261 ∧ dot = 1))
    (d : Devices) : (dotEvents line dot d).statusFlags = d.statusFlags := by
  rw [dotEvents, if_neg hentry, if_neg hleave]
  split <;> rfl

/-- At vblank entry and exit no line is visible, so the flags are exactly the event's. -/
theorem ppuDot_statusFlags_entry (p : Params) {d : Devices} (hline : d.ppu.time.scanline = 241) (hdot : d.ppu.time.dot = 1) :
    (ppuDot p d).statusFlags = (vblankEntry d).statusFlags := by
  obtain ⟨hit, overflow, hvisible, h⟩ := ppuDot_statusFlags p d
  obtain ⟨rfl, rfl⟩ := hvisible (by omega)
  rw [h, StatusFlags.raise_false, hline, hdot, dotEvents_entry]

theorem ppuDot_statusFlags_leave (p : Params) {d : Devices} (hline : d.ppu.time.scanline = 261) (hdot : d.ppu.time.dot = 1) :
    (ppuDot p d).statusFlags = (vblankExit d).statusFlags := by
  obtain ⟨hit, overflow, hvisible, h⟩ := ppuDot_statusFlags p d
  obtain ⟨rfl, rfl⟩ := hvisible (by omega)
  rw [h, StatusFlags.raise_false, hline, hdot, dotEvents_leave]

theorem ppuDot_statusFlags_other (p : Params) {d : Devices}
    (hentry : ¬(d.ppu.time.scanline = 241 ∧ d.ppu.time.dot = 1))
    (hleave : ¬(d.ppu.time.scanline = 261 ∧ d.ppu.time.dot = 1)) :
    ∃ hit overflow, (ppuDot p d).statusFlags = d.statusFlags.raise hit overflow := by
  obtain ⟨hit, overflow, -, h⟩ := ppuDot_statusFlags p d
  exact ⟨hit, overflow, by rw [h, dotEvents_statusFlags_other hentry hleave]⟩

/-- Settles O51, by the three kinds of dot: entry, exit, and the others, which only raise the sprite flags. -/
theorem vblankFlagsAndNmi : Obligations.VblankFlagsAndNmi := by
  unfold Obligations.VblankFlagsAndNmi
  intro p d e entry leave
  by_cases hentry : entry
  · have flags : e.statusFlags = (vblankEntry d).statusFlags := ppuDot_statusFlags_entry p hentry.1 hentry.2
    injection flags with hvblank hhit hoverflow hnmi
    have hleave : ¬leave := fun h => by have := hentry.1.symm.trans h.1; omega
    exact ⟨fun _ => ⟨hvblank, hnmi⟩, fun h => absurd h hleave, fun h => absurd hentry h, fun h => absurd hentry h,
      fun _ => ⟨hhit.trans, hoverflow.trans⟩⟩
  by_cases hleave : leave
  · have flags : e.statusFlags = (vblankExit d).statusFlags := ppuDot_statusFlags_leave p hleave.1 hleave.2
    injection flags with hvblank hhit hoverflow hnmi
    exact ⟨fun h => absurd h hentry, fun _ => ⟨hvblank, hhit, hoverflow⟩, fun _ h => absurd hleave h, fun _ => hnmi,
      fun h => absurd hleave h⟩
  · obtain ⟨hit, overflow, flags⟩ := ppuDot_statusFlags_other p hentry hleave
    injection flags with hvblank hhit hoverflow hnmi
    refine ⟨fun h => absurd h hentry, fun h => absurd h hleave, fun _ _ => hvblank, fun _ => hnmi, fun _ => ⟨?_, ?_⟩⟩
    · exact fun hset => hhit.trans (Bool.or_eq_true_iff.mpr (.inl hset))
    · exact fun hset => hoverflow.trans (Bool.or_eq_true_iff.mpr (.inl hset))

end Sys2Proof.Machine
end

section
/-! Steps as sequences of accesses (spec/40_interpreter.md R401): a relation that every access of the CPU keeps is kept by
every instruction, and what a step can do to the clock, the pending DMA and the parts that the invariant speaks of. -/

namespace Sys2Proof.Machine

/-! ## Relations kept by every access -/

/-- The relation composes, and holds between the states before and after each move of an instruction that stores nothing. -/
structure KeptByReads (R : State → State → Prop) : Prop where
  trans : ∀ {s t u}, R s t → R t u → R s u
  cpu : ∀ s c, R s (s.withCpu c)
  charge : ∀ n s, R s (s.charge n)
  read : ∀ a stamp s, R s (memRead a stamp s).2

/-- The same for an instruction that may store. -/
structure KeptByAccesses (R : State → State → Prop) : Prop extends KeptByReads R where
  write : ∀ a v stamp s, R s (memWrite a v stamp s)

namespace KeptByReads

variable {R : State → State → Prop} (h : KeptByReads R)
include h

theorem refl (s : State) : R s s := h.cpu s s.cpu

theorem advance (n : Nat) (s : State) : R s (s.advance n) := h.cpu s _

theorem pull (stamp : Nat) (s : State) : R s (pull stamp s).2 := h.trans (h.cpu ..) (h.read ..)

theorem pullWord (stamp : Nat) (s : State) : R s (pullWord stamp s).2 := h.trans (h.pull ..) (h.pull ..)

theorem read16 (a : Word) (stamp : Nat) (s : State) : R s (read16 a stamp s).2 := h.trans (h.read ..) (h.read ..)

theorem read16wrap (a : Word) (stamp : Nat) (s : State) : R s (read16wrap a stamp s).2 := h.trans (h.read ..) (h.read ..)

theorem returnFromInterrupt (s : State) : R s (returnFromInterrupt s) :=
  h.trans (h.pull ..) (h.trans (h.cpu ..) (h.trans (h.pullWord ..) (h.cpu ..)))

theorem readOperand (o : ReadOperand) (s : State) : R s (readOperand o s).state := by
  cases o with
  | imm b => exact h.refl s
  | mem m =>
    simp only [Machine.readOperand, locate_state]
    exact h.read ..

theorem readInstr (o : ReadOperand) (f : Byte → Cpu → Cpu) (s : State) : R s (readInstr o f s) :=
  h.trans (h.advance ..) (h.trans (h.readOperand ..) (h.trans (h.cpu ..) (h.charge ..)))

theorem implied (f : Cpu → Cpu) (s : State) : R s (implied f s) :=
  h.trans (h.advance ..) (h.trans (h.cpu ..) (h.charge ..))

theorem branchInstr (offset : Byte) (cond : Flags → Bool) (s : State) : R s (branchInstr offset cond s) := by
  unfold Machine.branchInstr
  extract_lets t target
  have ht : R s t := h.advance 2 s
  split
  · exact h.trans ht (h.trans (h.cpu ..) (h.charge ..))
  · exact h.trans ht (h.charge ..)

theorem fetch (s : State) : R s (fetch s).2 := by
  rw [fetch_eq]
  extract_lets r0 r1 r2
  have h0 : R s r0.2 := h.read ..
  have h1 : R s r1.2 := h.trans h0 (h.read ..)
  have h2 : R s r2.2 := h.trans h1 (h.read ..)
  simp only []
  split
  · exact h0
  · split
    · exact h1
    · exact h2

/-- Every instruction that neither stores nor pushes, but the fallback, is made of reads. -/
theorem exec {i : Instr} (hstore : (writes i).store = none) (hpush : (writes i).pushed = 0)
    (hi : ∀ op, i ≠ .unsupported op) {s t : State} (ht : exec i s = .next t) : R s t := by
  cases i with
  | lda o | ldx o | ldy o | adc o | sbc o | and o | ora o | eor o | cmp o | cpx o | cpy o | bit m =>
    cases ht; exact h.readInstr ..
  | sta m | stx m | sty m => cases hstore
  | inc m | dec m | asl m | lsr m | rol m | ror m => cases hstore
  | tax | tay | txa | tya | tsx | txs | inx | iny | dex | dey | aslAcc | lsrAcc | rolAcc | rorAcc
  | clc | sec | cli | sei | cld | sed | clv | nop => cases ht; exact h.implied ..
  | bpl o | bmi o | bvc o | bvs o | bcc o | bcs o | bne o | beq o => cases ht; exact h.branchInstr ..
  | pha | php | jsr a | brk => cases hpush
  | pla | plp => cases ht; exact h.trans (h.advance ..) (h.trans (h.pull ..) (h.trans (h.cpu ..) (h.charge ..)))
  | jmp a => cases ht; exact h.trans (h.advance ..) (h.trans (h.cpu ..) (h.charge ..))
  | jmpInd a => cases ht; exact h.trans (h.advance ..) (h.trans (h.read16wrap ..) (h.trans (h.cpu ..) (h.charge ..)))
  | rts => cases ht; exact h.trans (h.advance ..) (h.trans (h.pullWord ..) (h.trans (h.cpu ..) (h.charge ..)))
  | rti => cases ht; exact h.trans (h.advance ..) (h.trans (h.returnFromInterrupt ..) (h.charge ..))
  | unsupported op => exact absurd rfl (hi op)

end KeptByReads

namespace KeptByAccesses

variable {R : State → State → Prop} (h : KeptByAccesses R)
include h

theorem push (v : Byte) (stamp : Nat) (s : State) : R s (push v stamp s) := h.trans (h.write ..) (h.cpu ..)

theorem pushWord (w : Word) (stamp : Nat) (s : State) : R s (pushWord w stamp s) := h.trans (h.push ..) (h.push ..)

theorem enterInterrupt (vector : Word) (b : Bool) (ret : Word) (s : State) : R s (enterInterrupt vector b ret s) :=
  h.trans (h.trans (h.pushWord ..) (h.push ..)) (h.trans (h.cpu ..) (h.trans (h.read16 ..) (h.cpu ..)))

theorem writeInstr (m : MemMode) (v : Cpu → Byte) (s : State) : R s (writeInstr m v s) := by
  rw [writeInstr_eq]
  exact h.trans (h.write ..) (h.trans (h.cpu ..) (h.charge ..))

theorem rmwInstr (m : RmwMode) (f : Byte → Flags → Byte × Flags) (s : State) : R s (rmwInstr m f s) := by
  rw [rmwInstr_eq]
  exact h.trans (h.read ..) (h.trans (h.write ..) (h.trans (h.write ..) (h.trans (h.cpu ..) (h.charge ..))))

/-- Every instruction but the fallback is made of accesses. -/
theorem exec {i : Instr} (hi : ∀ op, i ≠ .unsupported op) {s t : State} (ht : exec i s = .next t) : R s t := by
  by_cases hreads : (writes i).store = none ∧ (writes i).pushed = 0
  · exact h.toKeptByReads.exec hreads.1 hreads.2 hi ht
  cases i with
  | sta m | stx m | sty m => cases ht; exact h.writeInstr ..
  | inc m | dec m | asl m | lsr m | rol m | ror m => cases ht; exact h.rmwInstr ..
  | pha | php => cases ht; exact h.trans (h.advance ..) (h.trans (h.push ..) (h.charge ..))
  | jsr a =>
    cases ht
    exact h.trans (h.advance ..) (h.trans (h.pushWord ..) (h.trans (h.read ..) (h.trans (h.cpu ..) (h.charge ..))))
  | brk => cases ht; exact h.trans (h.advance ..) (h.trans (h.enterInterrupt ..) (h.charge ..))
  | _ => exact absurd ⟨rfl, rfl⟩ hreads

end KeptByAccesses

/-! ## A step -/

/-- The three things a step can be (R401), each ended by the boundary. -/
theorem step_cases (s : State) : ∃ u, step s = .next u.boundary ∧
    (s.sampleExtIrq.dev.nmiPending = true ∧ u = enterNmi s.sampleExtIrq ∨
      u = enterIrq s.sampleExtIrq ∨
      exec (fetch s.sampleExtIrq).1 (fetch s.sampleExtIrq).2 = .next u) := by
  obtain ⟨u, hexec, -⟩ := exec_ran (fetch s.sampleExtIrq).1 (fetch s.sampleExtIrq).2
  unfold step
  extract_lets s0
  split
  · next hnmi => exact ⟨_, rfl, .inl ⟨hnmi, rfl⟩⟩
  · split
    · exact ⟨_, rfl, .inr (.inl rfl)⟩
    · exact ⟨u, by rw [hexec]; rfl, .inr (.inr hexec)⟩

/-- What the work of a step, before its boundary, can do: 1 to 7 cycles, at most two DMA writes, and the invariant's parts
hold at its end. -/
structure StepRan (s u : State) : Prop where
  later : s.cycles + 1 ≤ u.cycles
  bound : u.cycles ≤ s.cycles + 7
  dma : u.pendingDma ≤ s.pendingDma + 2
  params : u.params = s.params
  ok : s.Ok u.cycles → u.Ok u.cycles

theorem Ran.stepRan {s t : State} {len : Nat} (hlen : 1 ≤ len) (h : Ran len s t) : StepRan s t :=
  ⟨Nat.le_trans (Nat.add_le_add_left hlen _) h.later, h.bound, h.dma, h.params, h.ok⟩

theorem enterInterrupt_ran {vector : Word} (h : 0x8000 ≤ vector.toNat) (h' : vector.toNat < 0xFFFF) (b : Bool) (ret : Word)
    (s : State) : Ran 1 s ((enterInterrupt vector b ret s).charge 7) :=
  .of_keeps (by decide) (by decide) (enterInterrupt_keeps _ h h' b ret s)
    (by rw [enterInterrupt_pendingDma h h']; exact Nat.le_add_right _ _)

theorem enterIrq_ran (s : State) : Ran 1 s (enterIrq s) := enterInterrupt_ran (by decide) (by decide) ..

/-- NMI entry first clears its latch, of which the invariant does not speak. -/
theorem enterNmi_stepRan (s : State) : StepRan s (enterNmi s) := by
  have h : Ran 1 (s.withDev { s.dev with nmiPending := false }) (enterNmi s) :=
    enterInterrupt_ran (vector := 0xFFFA) (by decide) (by decide) ..
  exact ⟨h.later, h.bound, h.dma, h.params, h.ok⟩

theorem one_le_length (op b1 b2 : Byte) : 1 ≤ ((opRow op).assemble b1 b2).length := by
  rw [assemble_length]; omega

theorem fetch_length_pos (s : State) : 1 ≤ (fetch s).1.length := by
  rw [fetch_eq]; exact one_le_length ..

/-- The reads of a fetch come before the instruction's last cycle. -/
theorem fetch_exec_stepRan {s u : State} (hu : exec (fetch s).1 (fetch s).2 = .next u) : StepRan s u := by
  obtain ⟨t, ht, hran⟩ := exec_ran (fetch s).1 (fetch s).2
  obtain rfl : t = u := by rw [hu] at ht; injection ht with ht; exact ht.symm
  have hcycles : (fetch s).2.cycles = s.cycles := (fetch_reads s (Nat.le_refl _)).keeps.cycles
  have hstep := hran.stepRan (fetch_length_pos s)
  have hreads : ReadKeeps t.cycles s (fetch s).2 := fetch_reads s (by have := hran.later; omega)
  exact ⟨hcycles ▸ hstep.later, hcycles ▸ hstep.bound, hreads.pendingDma ▸ hstep.dma,
    hstep.params.trans hreads.keeps.params, fun hs => hstep.ok (hreads.keeps.ok hs)⟩

theorem sampleExtIrq_eq (s : State) : ∃ h, s.sampleExtIrq = s.withHost h := by
  unfold State.sampleExtIrq
  split
  · exact ⟨_, rfl⟩
  · exact ⟨s.host, rfl⟩

/-- Every step answers: its work, then the boundary. -/
theorem step_ran (s : State) : ∃ u, step s = .next u.boundary ∧ StepRan s u := by
  obtain ⟨u, hstep, hcases⟩ := step_cases s
  obtain ⟨h, hs⟩ := sampleExtIrq_eq s
  have hran : StepRan (s.withHost h) u := by
    rw [hs] at hcases
    rcases hcases with ⟨-, rfl⟩ | rfl | hexec
    · exact enterNmi_stepRan _
    · exact (enterIrq_ran _).stepRan (Nat.le_refl 1)
    · exact fetch_exec_stepRan hexec
  exact ⟨u, hstep, hran.later, hran.bound, hran.dma, hran.params, hran.ok⟩

/-- Settles O39: the part of the invariant that holds inside a step holds at the end of the step's work, and the boundary
restores the rest. -/
theorem stepKeepsInvariant : Obligations.StepKeepsInvariant := by
  unfold Obligations.StepKeepsInvariant
  intro s t hinv ht
  obtain ⟨u, hu, hran⟩ := step_ran s
  obtain rfl : u.boundary = t := by rw [hu] at ht; injection ht
  exact boundary_inv (hran.ok (hinv.ok (Nat.le_trans (Nat.le_add_right _ 1) hran.later)))

end Sys2Proof.Machine
end

section
/-! What steps and runs keep (spec/10_state.md sections 3 and 4, spec/40_interpreter.md section 5): ROM, the sticky flag, the
NMI latch, and how far a run goes past its target. -/

namespace Sys2Proof.Machine

/-- Settles O40, by evaluating the invariant at the state after reset. -/
theorem resetMeetsInvariant : Obligations.ResetMeetsInvariant := by
  unfold Obligations.ResetMeetsInvariant
  decide

/-! ## ROM (R112, R113, R209) -/

/-- PRG, the header and the parameters are the same, and CHR is too where it is ROM. -/
structure SameRom (s t : State) : Prop where
  prg : t.dev.cart.prg = s.dev.cart.prg
  header : t.dev.cart.header = s.dev.cart.header
  params : t.params = s.params
  chr : s.dev.cart.header.chr8Count ≠ 0 → t.dev.cart.chr = s.dev.cart.chr

theorem SameRom.refl (s : State) : SameRom s s := ⟨rfl, rfl, rfl, fun _ => rfl⟩

theorem SameRom.trans {s t u : State} (h : SameRom s t) (k : SameRom t u) : SameRom s u where
  prg := k.prg.trans h.prg
  header := k.header.trans h.header
  params := k.params.trans h.params
  chr := fun hrom => (k.chr (h.header ▸ hrom)).trans (h.chr hrom)

theorem SameRom.of_reads {T : Nat} {s t : State} (h : ReadKeeps T s t) : SameRom s t := by
  obtain ⟨-, -, -, hchr, -⟩ := h.stores
  exact ⟨h.keeps.prg, h.keeps.header, h.keeps.params, fun _ => hchr⟩

theorem SameRom.of_dots {s : State} {d : Devices} (h : DotKeeps s.dev d) : SameRom s (s.withDev d) :=
  ⟨h.prg, h.header, rfl, fun _ => h.chr⟩

/-- One turn of the DMA loop: a read of the page, and the byte written to OAM. -/
theorem dmaCopy_succ (page : Byte) (stamp fuel : Nat) (s : State) :
    dmaCopy page stamp (fuel + 1) s =
      (let i : Byte := BitVec.ofNat 8 (255 - fuel)
       let r := memRead (joinBytes page i) stamp s
       dmaCopy page stamp fuel (r.2.withDev (r.2.dev.writeOam (r.2.dev.ppu.regs.oamaddr + i) r.1))) := rfl

theorem dmaCopy_sameRom (page : Byte) (stamp fuel : Nat) (s : State) : SameRom s (dmaCopy page stamp fuel s) := by
  induction fuel generalizing s with
  | zero => exact .refl s
  | succ fuel ih =>
    rw [dmaCopy_succ]
    extract_lets i r
    have hread : SameRom s r.2 := .of_reads (memRead_keeps (Nat.le_refl stamp) _ s)
    refine hread.trans (SameRom.trans ?_ (ih _))
    exact ⟨rfl, rfl, rfl, fun _ => rfl⟩

theorem ppuWrite_chr_rom (d : Devices) (a : PpuAddr) (v : Byte) (h : d.cart.header.chr8Count ≠ 0) :
    (d.ppuWrite a v).cart.chr = d.cart.chr := by
  unfold Devices.ppuWrite
  split
  · rw [writeChr_rom h]
  · split <;> rfl

theorem portWrite_chr_rom (p : Params) (now port : Nat) (v : Byte) (d : Devices) (h : d.cart.header.chr8Count ≠ 0) :
    (portWrite p now port v d).cart.chr = d.cart.chr := by
  unfold portWrite
  extract_lets r e
  split
  case h_5 => unfold writeScroll; extract_lets; split <;> rfl
  case h_6 => unfold writeAddr; extract_lets; split <;> rfl
  case h_7 => exact ppuWrite_chr_rom (e.observe p e.ppu.regs.busAddr now) _ v h
  all_goals rfl

theorem memWrite_sameRom (a : Word) (v : Byte) (stamp : Nat) (s : State) : SameRom s (memWrite a v stamp s) := by
  have hdots : SameRom s (s.sync stamp) := .of_dots (devAt_keeps s stamp)
  have hkeeps := (memWrite_keeps (Nat.le_refl stamp) a v s).1
  refine ⟨hkeeps.prg, hkeeps.header, hkeeps.params, fun hrom => ?_⟩
  unfold memWrite
  extract_lets n
  split
  · rfl
  split
  · exact (portWrite_chr_rom _ _ _ v (s.devAt stamp) (hdots.header ▸ hrom)).trans (hdots.chr hrom)
  split
  · split
    · exact (hdots.trans (dmaCopy_sameRom v stamp 256 _)).chr hrom
    split
    · rfl
    split <;> rfl
  split
  · rfl
  · exact hdots.chr hrom

theorem sameRom_keptByAccesses : KeptByAccesses SameRom where
  trans := .trans
  cpu := fun _ _ => ⟨rfl, rfl, rfl, fun _ => rfl⟩
  charge := fun _ _ => ⟨rfl, rfl, rfl, fun _ => rfl⟩
  read := fun a stamp s => .of_reads (memRead_keeps (Nat.le_refl stamp) a s)
  write := memWrite_sameRom

theorem exec_sameRom {i : Instr} {s t : State} (h : exec i s = .next t) : SameRom s t := by
  by_cases hi : ∃ op, i = .unsupported op
  · obtain ⟨op, rfl⟩ := hi
    cases h
    exact ⟨rfl, rfl, rfl, fun _ => rfl⟩
  · exact sameRom_keptByAccesses.exec (fun op ho => hi ⟨op, ho⟩) h

theorem enterNmi_sameRom (s : State) : SameRom s (enterNmi s) :=
  have hlatch : SameRom s (s.withDev { s.dev with nmiPending := false }) := ⟨rfl, rfl, rfl, fun _ => rfl⟩
  hlatch.trans ((sameRom_keptByAccesses.enterInterrupt ..).trans (sameRom_keptByAccesses.charge ..))

theorem boundary_sameRom (s : State) : SameRom s s.boundary := by
  obtain ⟨-, -, hparams, -, -, -, hdots⟩ := boundary_keeps s
  exact ⟨hdots.prg, hdots.header, hparams, fun _ => hdots.chr⟩

/-- Settles O35: every access keeps ROM, so each of the three kinds of step does, and the dots of the boundary do too. -/
theorem stepNeverChangesRom : Obligations.StepNeverChangesRom := by
  unfold Obligations.StepNeverChangesRom
  intro s t ht
  obtain ⟨u, hu, hcases⟩ := step_cases s
  obtain rfl : u.boundary = t := by rw [hu] at ht; injection ht
  have hsample : SameRom s s.sampleExtIrq := by
    obtain ⟨h, hs⟩ := sampleExtIrq_eq s
    rw [hs]
    exact ⟨rfl, rfl, rfl, fun _ => rfl⟩
  have hwork : SameRom s.sampleExtIrq u := by
    rcases hcases with ⟨-, rfl⟩ | rfl | hexec
    · exact enterNmi_sameRom _
    · exact (sameRom_keptByAccesses.enterInterrupt ..).trans (sameRom_keptByAccesses.charge ..)
    · exact (sameRom_keptByAccesses.fetch _).trans (exec_sameRom hexec)
  have hall := (hsample.trans hwork).trans (boundary_sameRom u)
  exact ⟨hall.prg, hall.header, hall.params, hall.chr⟩

/-! ## The sticky flag (R107) -/

theorem sameUnsupported_keptByAccesses : KeptByAccesses fun s t => t.unsupportedSeen = s.unsupportedSeen where
  trans := fun h k => k.trans h
  cpu := fun _ _ => rfl
  charge := fun _ _ => rfl
  read := fun a stamp s => (memRead_keeps (Nat.le_refl stamp) a s).keeps.unsupported
  write := fun a v stamp s => (memWrite_keeps (Nat.le_refl stamp) a v s).1.unsupported

theorem exec_unsupportedSeen {i : Instr} {s t : State} (h : exec i s = .next t) :
    t.unsupportedSeen = true ↔ s.unsupportedSeen = true ∨ ∃ op, i = .unsupported op := by
  by_cases hi : ∃ op, i = .unsupported op
  · obtain ⟨op, rfl⟩ := hi
    cases h
    exact iff_of_true rfl (.inr ⟨op, rfl⟩)
  · rw [sameUnsupported_keptByAccesses.exec (fun op ho => hi ⟨op, ho⟩) h]
    exact ⟨.inl, fun h => h.resolve_right hi⟩

/-- Settles O36: no access touches the flag, so only the fallback, which sets it, can change it. -/
theorem unsupportedFlagIsSticky : Obligations.UnsupportedFlagIsSticky := by
  unfold Obligations.UnsupportedFlagIsSticky
  intro s
  refine ⟨fun i t => exec_unsupportedSeen, ?nmi, ?irq, ?reset⟩
  case nmi =>
    exact sameUnsupported_keptByAccesses.enterInterrupt 0xFFFA false s.cpu.pc (s.withDev { s.dev with nmiPending := false })
  case irq => exact sameUnsupported_keptByAccesses.enterInterrupt 0xFFFE false s.cpu.pc s
  case reset => exact sameUnsupported_keptByAccesses.read16 0xFFFC 5 _

/-! ## The NMI latch (R108) -/

theorem enterInterrupt_dev {vector : Word} (h : 0x8000 ≤ vector.toNat) (h' : vector.toNat < 0xFFFF) (b : Bool) (ret : Word)
    (s : State) : (enterInterrupt vector b ret s).dev = s.dev := by
  rw [enterInterrupt_eq h h']; rfl

/-- Settles O30: no instruction, entry, fetch or dot clears the latch, by what each can do; NMI entry and reset write it. -/
theorem nmiLatchHeldUntilEntry : Obligations.NmiLatchHeldUntilEntry := by
  unfold Obligations.NmiLatchHeldUntilEntry
  intro s hnmi
  refine ⟨?exec, ?irq, ?boundary, ?fetch, ?nmi, rfl⟩
  case exec =>
    intro i t ht
    obtain ⟨u, hu, hran⟩ := exec_ran i s
    obtain rfl : u = t := by rw [hu] at ht; injection ht
    exact hran.nmi hnmi
  case irq => exact (enterIrq_ran s).nmi hnmi
  case boundary =>
    obtain ⟨-, -, -, -, -, -, hdots⟩ := boundary_keeps s
    exact hdots.nmi hnmi
  case fetch => exact (fetch_reads s (Nat.le_refl _)).keeps.nmi hnmi
  case nmi =>
    exact congrArg Devices.nmiPending (enterInterrupt_dev (vector := 0xFFFA) (by decide) (by decide) false s.cpu.pc
      (s.withDev { s.dev with nmiPending := false }))

/-! ## Runs (R400, R442) -/

/-- Each steal costs the base and at most one cycle of alignment. -/
theorem stealDma_le (base n c : Nat) : stealDma base n c ≤ c + n * (base + 1) := by
  induction n generalizing c with
  | zero => rw [stealDma, Nat.zero_mul, Nat.add_zero]
  | succ n ih =>
    have hnext := ih (c + (base + c % 2))
    have halign : c % 2 ≤ 1 := by omega
    rw [stealDma, Nat.succ_mul]
    omega

/-- A step from a boundary: at least one cycle, and at most 7 and two steals. -/
theorem step_cycles {s : State} (hdma : s.pendingDma = 0) : ∃ t, step s = .next t ∧ t.pendingDma = 0 ∧ t.params = s.params ∧
    s.cycles + 1 ≤ t.cycles ∧ t.cycles ≤ s.cycles + 7 + 2 * (s.params.oamDmaBase + 1) := by
  obtain ⟨u, hu, hran⟩ := step_ran s
  have hle := stealDma_le u.params.oamDmaBase u.pendingDma u.cycles
  have hge := stealDma_ge u.params.oamDmaBase u.pendingDma u.cycles
  have hsteals : u.pendingDma * (u.params.oamDmaBase + 1) ≤ 2 * (u.params.oamDmaBase + 1) :=
    Nat.mul_le_mul_right _ (by have := hran.dma; omega)
  have hlater := hran.later
  have hbound := hran.bound
  refine ⟨_, hu, rfl, hran.params, ?_, ?_⟩
  · rw [boundary_cycles]; omega
  · rw [boundary_cycles, ← hran.params]; omega

theorem runUntil_reaches (target fuel : Nat) (s : State) (hdma : s.pendingDma = 0) (hfuel : target ≤ s.cycles + fuel) :
    ∃ t, runUntil target fuel s = .next t ∧ target ≤ t.cycles ∧ (target ≤ s.cycles → t = s) ∧
      (s.cycles < target → t.cycles < target + 7 + 2 * (s.params.oamDmaBase + 1)) := by
  induction fuel generalizing s with
  | zero => exact ⟨s, rfl, hfuel, fun _ => rfl, fun h => absurd hfuel (by omega)⟩
  | succ fuel ih =>
    unfold runUntil
    by_cases hdone : s.cycles < target
    · obtain ⟨u, hu, hdma', hparams, hlater, hbound⟩ := step_cycles hdma
      obtain ⟨t, ht, hreached, hstop, hpast⟩ := ih u hdma' (by omega)
      refine ⟨t, by rw [if_pos hdone, hu]; exact ht, hreached, fun h => absurd hdone (by omega), fun _ => ?_⟩
      by_cases hnext : u.cycles < target
      · exact hparams ▸ hpast hnext
      · rw [hstop (by omega)]; omega
    · exact ⟨s, if_neg hdone, by omega, fun _ => rfl, fun h => absurd h hdone⟩

/-- Settles O41, by induction on the steps: each takes at least a cycle, and the last begins before the target. -/
theorem runReachesTarget : Obligations.RunReachesTarget := by
  unfold Obligations.RunReachesTarget
  exact fun target s hdma => runUntil_reaches target _ s hdma (by omega)

end Sys2Proof.Machine
end

section
/-! What each kind of step does (spec/40_interpreter.md sections 1 and 2, spec/60_exceptions.md sections 2 and 3): the
interrupt entries, the fetched instruction, and the boundary. -/

namespace Sys2Proof.Machine

/-! ## The boundary (R401, R452, R850) -/

theorem stealDma_succ (base n c : Nat) : stealDma base (n + 1) c = stealDma base n (c + base + c % 2) := by
  rw [stealDma, Nat.add_assoc]

/-- Settles O6: the cycle after the steals is the one that the boundary's catch-up runs to. -/
theorem boundaryStealsDmaAndRunsDots : Obligations.BoundaryStealsDmaAndRunsDots := by
  unfold Obligations.BoundaryStealsDmaAndRunsDots
  intro s
  refine ⟨stealDma s.params.oamDmaBase s.pendingDma s.cycles, rfl, syncTo_dotClock .., ?none, ?one, ?two⟩
  case none => intro h; rw [h]; rfl
  case one => intro h; rw [h]; exact stealDma_succ ..
  case two =>
    intro h c1
    rw [h, stealDma_succ]
    exact stealDma_succ ..

/-! ## Interrupt entries (R1120 to R1123) -/

theorem sub_one_one (b : Byte) : b - 1 - 1 = b - 2 := BitVec.eq_of_toNat_eq (by bv_omega)

theorem sub_one_one_one (b : Byte) : b - 1 - 1 - 1 = b - 3 := BitVec.eq_of_toNat_eq (by bv_omega)

/-- RAM after an interrupt entry or BRK has pushed the return address and the status byte. -/
def interruptFrame (ram : Memory) (sp : Byte) (ret : Word) (status : Byte) : Memory :=
  ((ram.write (0x100 + sp.toNat) (BitVec.ofNat 8 (ret.toNat / 256))).write
    (0x100 + (sp - 1).toNat) (BitVec.ofNat 8 (ret.toNat % 256))).write (0x100 + (sp - 2).toNat) status

/-- An interrupt entry on numbers. -/
theorem enterInterrupt_eq_frame {vector : Word} (h : 0x8000 ≤ vector.toNat) (h' : vector.toNat < 0xFFFF) (b : Bool)
    (ret : Word) (s : State) :
    enterInterrupt vector b ret s =
      { s with
        ram := interruptFrame s.ram s.cpu.s ret (s.cpu.p.pack b)
        cpu := { s.cpu with
          s := s.cpu.s - 3
          p := { s.cpu.p with i := true }
          pc := BitVec.ofNat 16
            (256 * (s.dev.cart.readPrg (vector + 1)).toNat + (s.dev.cart.readPrg vector).toNat) } } := by
  rw [enterInterrupt_eq h h', sub_one_one_one, sub_one_one, joinBytes_eq, highByte_eq, lowByte_eq]
  rfl

theorem step_nmi {s : State} (h : s.sampleExtIrq.dev.nmiPending = true) :
    step s = .next (enterNmi s.sampleExtIrq).boundary := by
  rw [step, if_pos h]; rfl

theorem step_irq {s : State} (hnmi : s.sampleExtIrq.dev.nmiPending = false) (hline : s.sampleExtIrq.irqLine = true)
    (hi : s.sampleExtIrq.cpu.p.i = false) : step s = .next (enterIrq s.sampleExtIrq).boundary := by
  rw [step, if_neg (by simp [hnmi]), if_pos (by simp [hline, hi])]; rfl

theorem step_instruction {s : State} (hnmi : s.sampleExtIrq.dev.nmiPending = false)
    (hirq : (s.sampleExtIrq.irqLine && !s.sampleExtIrq.cpu.p.i) = false) :
    step s = finishStep (exec (fetch s.sampleExtIrq).1 (fetch s.sampleExtIrq).2) := by
  rw [step, if_neg (by simp [hnmi]), if_neg (by simp [hirq])]

/-- Settles O28: the sampled level plays no part, and the entry is the one from $FFFA with the latch cleared. -/
theorem pendingNmiIsTaken : Obligations.PendingNmiIsTaken := by
  unfold Obligations.PendingNmiIsTaken
  intro s hnmi s0 c ram
  have hlatch : s0.dev.nmiPending = true := by
    obtain ⟨h, hs⟩ := sampleExtIrq_eq s
    rw [show s0 = s.withHost h from hs]
    exact hnmi
  rw [step_nmi hlatch, enterNmi, enterInterrupt_eq_frame (by decide) (by decide)]
  rfl

/-- Settles O29: with the line at 1 the flag I alone decides between the entry from $FFFE and the instruction. -/
theorem unmaskedIrqIsTaken : Obligations.UnmaskedIrqIsTaken := by
  unfold Obligations.UnmaskedIrqIsTaken
  intro s s0 c ram hnmi hline
  refine ⟨fun hi => ?taken, fun hi => ?masked⟩
  case taken =>
    rw [step_irq hnmi hline hi, enterIrq, enterInterrupt_eq_frame (by decide) (by decide)]
    rfl
  case masked => exact step_instruction hnmi (by rw [show s.sampleExtIrq.cpu.p.i = true from hi]; simp)

/-! ## The fetched instruction (R402) -/

/-- Three bytes decode to the instruction that a fetch of them assembles, and its length is that of their row. -/
theorem decode_three_bytes {op b1 b2 : Byte} {i : Instr} {rest : List Byte} (h : decode [op, b1, b2] = .ok (i, rest)) :
    i = (opRow op).assemble b1 b2 ∧ i.length = 1 + (opRow op).operands := by
  rw [decode_assemble] at h
  injection h with h
  injection h with hi
  exact ⟨hi.symm, hi ▸ assemble_length op b1 b2⟩

/-- Settles O5: the bytes that the fetch reads assemble to the instruction they decode to, and it makes as many of the three
reads as that instruction's length takes. -/
theorem stepRunsDecodedInstruction : Obligations.StepRunsDecodedInstruction := by
  unfold Obligations.StepRunsDecodedInstruction
  intro s i rest s0 r0 r1 r2 hnmi hirq hdecode
  obtain ⟨hi, hlength⟩ := decode_three_bytes hdecode
  have hone : i.length = 1 ↔ (opRow r0.1).operands = 0 := by omega
  have htwo : i.length = 2 ↔ (opRow r0.1).operands = 1 := by omega
  have hfetch : fetch s0 = (i, if i.length = 1 then r0.2 else if i.length = 2 ∨ r0.1 = 0x20 then r1.2 else r2.2) := by
    simp only [hone, htwo]
    rw [hi]
    exact fetch_eq s0
  rw [step_instruction hnmi hirq, hfetch]
  rfl

end Sys2Proof.Machine
end

section
/-! Decoding and encoding (spec/30_encoding.md sections 1 to 4): decoding an encoding, by constructor and operand form; the
other direction, by what the opcode map's 256 rows assemble. -/

namespace Sys2Proof.Machine

/-! ## Decoding an encoding -/

section
variable {i : Instr} {op : Byte} (hop : i.opcode = some op) (rest : List Byte)
include hop

theorem decode_encode_one (hbytes : i.operandBytes = []) (hrow : opRow op = .one i) :
    decode (encode i ++ rest) = .ok (i, rest) := by
  rw [encode, hop, hbytes]
  exact decode_one hrow rest

theorem decode_encode_two {f : Byte → Instr} {b : Byte} (hbytes : i.operandBytes = [b]) (hrow : opRow op = .two f)
    (hi : f b = i) : decode (encode i ++ rest) = .ok (i, rest) := by
  rw [encode, hop, hbytes, ← hi]
  exact decode_two hrow b rest

/-- An operand word is encoded low byte first (R301). -/
theorem decode_encode_three {f : Word → Instr} {a : Word} (hbytes : i.operandBytes = [lowByte a, highByte a])
    (hrow : opRow op = .three f) (hi : f a = i) : decode (encode i ++ rest) = .ok (i, rest) := by
  rw [encode, hop, hbytes, ← hi]
  refine (decode_three hrow (lowByte a) (highByte a) rest).trans ?_
  rw [joinBytes_high_low]

end

/-- The row of each of the 105 bytes is the fallback (R306). -/
theorem opRow_unsupported {op : Byte} (h : op ∈ unsupportedBytes) : opRow op = .one (.unsupported op) := by
  fin_cases h <;> rfl

theorem encode_unsupported {op : Byte} (h : unsupportedBytes.contains op = true) : encode (.unsupported op) = [op] := by
  simp only [encode, Instr.opcode, h, if_true, Instr.operandBytes]

/-- Settles O2, by the row of each constructor and operand form; a form without a row is not well-formed. -/
theorem encodeDecodeRoundTrip : Obligations.EncodeDecodeRoundTrip := by
  unfold Obligations.EncodeDecodeRoundTrip
  intro i rest hwf
  cases i with
  | lda o | adc o | sbc o | and o | ora o | eor o | cmp o =>
    cases o with
    | imm b => exact decode_encode_two rfl rest rfl rfl rfl
    | mem m =>
      cases m with
      | zp z | zpx z | izx z | izy z => exact decode_encode_two rfl rest rfl rfl rfl
      | abs a | abx a | aby a => exact decode_encode_three rfl rest rfl rfl rfl
      | zpy z => cases hwf
  | ldx o =>
    cases o with
    | imm b => exact decode_encode_two rfl rest rfl rfl rfl
    | mem m =>
      cases m with
      | zp z | zpy z => exact decode_encode_two rfl rest rfl rfl rfl
      | abs a | aby a => exact decode_encode_three rfl rest rfl rfl rfl
      | zpx z | izx z | izy z => cases hwf
      | abx a => cases hwf
  | ldy o =>
    cases o with
    | imm b => exact decode_encode_two rfl rest rfl rfl rfl
    | mem m =>
      cases m with
      | zp z | zpx z => exact decode_encode_two rfl rest rfl rfl rfl
      | abs a | abx a => exact decode_encode_three rfl rest rfl rfl rfl
      | zpy z | izx z | izy z => cases hwf
      | aby a => cases hwf
  | cpx o | cpy o =>
    cases o with
    | imm b => exact decode_encode_two rfl rest rfl rfl rfl
    | mem m =>
      cases m with
      | zp z => exact decode_encode_two rfl rest rfl rfl rfl
      | abs a => exact decode_encode_three rfl rest rfl rfl rfl
      | zpx z | zpy z | izx z | izy z => cases hwf
      | abx a | aby a => cases hwf
  | sta m =>
    cases m with
    | zp z | zpx z | izx z | izy z => exact decode_encode_two rfl rest rfl rfl rfl
    | abs a | abx a | aby a => exact decode_encode_three rfl rest rfl rfl rfl
    | zpy z => cases hwf
  | stx m =>
    cases m with
    | zp z | zpy z => exact decode_encode_two rfl rest rfl rfl rfl
    | abs a => exact decode_encode_three rfl rest rfl rfl rfl
    | zpx z | izx z | izy z => cases hwf
    | abx a | aby a => cases hwf
  | sty m =>
    cases m with
    | zp z | zpx z => exact decode_encode_two rfl rest rfl rfl rfl
    | abs a => exact decode_encode_three rfl rest rfl rfl rfl
    | zpy z | izx z | izy z => cases hwf
    | abx a | aby a => cases hwf
  | bit m =>
    cases m with
    | zp z => exact decode_encode_two rfl rest rfl rfl rfl
    | abs a => exact decode_encode_three rfl rest rfl rfl rfl
    | zpx z | zpy z | izx z | izy z => cases hwf
    | abx a | aby a => cases hwf
  | inc m | dec m | asl m | lsr m | rol m | ror m =>
    cases m with
    | zp z | zpx z => exact decode_encode_two rfl rest rfl rfl rfl
    | abs a | abx a => exact decode_encode_three rfl rest rfl rfl rfl
  | jmp a | jmpInd a | jsr a => exact decode_encode_three rfl rest rfl rfl rfl
  | bpl b | bmi b | bvc b | bvs b | bcc b | bcs b | bne b | beq b => exact decode_encode_two rfl rest rfl rfl rfl
  | tax | tay | txa | tya | tsx | txs | pha | php | pla | plp | inx | iny | dex | dey
  | aslAcc | lsrAcc | rolAcc | rorAcc | rts | rti | brk
  | clc | sec | cli | sei | cld | sed | clv | nop => exact decode_encode_one rfl rest rfl rfl
  | unsupported op =>
    rw [encode_unsupported hwf]
    exact decode_one (opRow_unsupported (List.contains_iff_mem.mp hwf)) rest

/-! ## Encoding what was decoded -/

/-- The operand bytes that a row takes of the two after its opcode. -/
def OpRow.taken (r : OpRow) (b1 b2 : Byte) : List Byte :=
  match r with
  | .one _ => []
  | .two _ => [b1]
  | .three _ => [lowByte (joinBytes b2 b1), highByte (joinBytes b2 b1)]

/-- Every row of the opcode map assembles a well-formed instruction of its own opcode and operand bytes (R305, R306). -/
theorem opRow_assembles (op b1 b2 : Byte) :
    ((opRow op).assemble b1 b2).wellFormed = true ∧ ((opRow op).assemble b1 b2).opcode = some op ∧
      ((opRow op).assemble b1 b2).operandBytes = OpRow.taken (opRow op) b1 b2 := by
  have rows : ∀ n : Nat, n < 256 → ∀ r, r = opRow (BitVec.ofNat 8 n) →
      (r.assemble b1 b2).wellFormed = true ∧ (r.assemble b1 b2).opcode = some (BitVec.ofNat 8 n) ∧
        (r.assemble b1 b2).operandBytes = OpRow.taken r b1 b2 := by
    rintro n hn r rfl
    interval_cases n <;> exact ⟨rfl, rfl, rfl⟩
  have row := rows op.toNat op.isLt _ rfl
  rwa [BitVec.ofNat_toNat, BitVec.setWidth_eq] at row

theorem encode_assemble (op b1 b2 : Byte) :
    encode ((opRow op).assemble b1 b2) = op :: OpRow.taken (opRow op) b1 b2 := by
  obtain ⟨-, hopcode, hbytes⟩ := opRow_assembles op b1 b2
  rw [encode, hopcode, hbytes]

/-- What decodes was assembled by a row from the bytes it takes. -/
theorem decode_ok {bytes rest : List Byte} {i : Instr} (h : decode bytes = .ok (i, rest)) :
    ∃ op b1 b2, i = (opRow op).assemble b1 b2 ∧ bytes = op :: (OpRow.taken (opRow op) b1 b2 ++ rest) := by
  cases bytes with
  | nil => cases h
  | cons op bytes =>
    cases hrow : opRow op with
    | one j =>
      rw [decode_one hrow] at h
      cases h
      exact ⟨op, 0, 0, by rw [hrow]; rfl, by rw [hrow]; rfl⟩
    | two f =>
      cases bytes with
      | nil => rw [decode_two_short hrow] at h; cases h
      | cons b1 bytes =>
        rw [decode_two hrow] at h
        cases h
        exact ⟨op, b1, 0, by rw [hrow]; rfl, by rw [hrow]; rfl⟩
    | three f =>
      cases bytes with
      | nil => rw [(decode_three_short hrow).1] at h; cases h
      | cons b1 bytes =>
        cases bytes with
        | nil => rw [(decode_three_short hrow).2] at h; cases h
        | cons b2 bytes =>
          rw [decode_three hrow] at h
          cases h
          refine ⟨op, b1, b2, by rw [hrow]; rfl, ?_⟩
          rw [hrow, OpRow.taken, lowByte_joinBytes, highByte_joinBytes]
          rfl

/-- Settles O3: what decodes was assembled by the row of its first byte, and each row's instruction encodes as that byte and
the operand bytes. -/
theorem decodedBytesReencode : Obligations.DecodedBytesReencode := by
  unfold Obligations.DecodedBytesReencode
  intro bytes i rest h
  obtain ⟨op, b1, b2, rfl, rfl⟩ := decode_ok h
  obtain ⟨hwf, -, -⟩ := opRow_assembles op b1 b2
  exact ⟨hwf, by rw [encode_assemble]; rfl⟩

/-! ## The 256 rows -/

/-- A row assembles the fallback exactly for the listed bytes: no other byte's fallback is well-formed. -/
theorem assemble_eq_unsupported (op b1 b2 : Byte) :
    (opRow op).assemble b1 b2 = .unsupported op ↔ op ∈ unsupportedBytes := by
  constructor
  · intro h
    obtain ⟨hwf, -, -⟩ := opRow_assembles op b1 b2
    rw [h] at hwf
    exact List.contains_iff_mem.mp hwf
  · intro h
    rw [opRow_unsupported h]
    rfl

theorem OpRow.operands_le (r : OpRow) : r.operands ≤ 2 := by
  cases r <;> simp [OpRow.operands]

/-- Settles O4: three bytes decode to what the row of the first assembles, whose length the row gives. -/
theorem everyOpcodeByteHasARow : Obligations.EveryOpcodeByteHasARow := by
  unfold Obligations.EveryOpcodeByteHasARow
  refine ⟨rfl, fun op b1 b2 rest => ⟨(opRow op).assemble b1 b2, ?_⟩⟩
  obtain ⟨hwf, -, -⟩ := opRow_assembles op b1 b2
  have hlength := assemble_length op b1 b2
  have hoperands := OpRow.operands_le (opRow op)
  refine ⟨hwf, by omega, by omega, ?_, assemble_eq_unsupported op b1 b2⟩
  rw [hlength]
  exact decode_assemble op b1 b2 rest

/-- Settles O1, by evaluating the decoder on each word. -/
theorem opcodeWordsDecode : Obligations.OpcodeWordsDecode := by
  unfold Obligations.OpcodeWordsDecode
  exact ⟨rfl, rfl, rfl, rfl, rfl, rfl, rfl, rfl, rfl, rfl, rfl, rfl, rfl⟩

/-- Settles O21, by the row of the byte and the equation of the fallback. -/
theorem unsupportedByteFallsBack : Obligations.UnsupportedByteFallsBack := by
  unfold Obligations.UnsupportedByteFallsBack
  exact fun op s h => ⟨decode_one (opRow_unsupported h) [], rfl⟩

end Sys2Proof.Machine
end

section
/-! The results of the read, write, read-modify-write and accumulator instructions (spec/41 to spec/44): each shape as a run
of the instruction on its operand, and each flag computation on numbers. -/

namespace Sys2Proof.Machine

/-! ## Shapes as runs (R430, R431, R650) -/

/-- A state whose PC and clock are those of `s` runs as `s` does. -/
theorem withCpu_charge_eq_ran {s t : State} (hpc : t.cpu.pc = s.cpu.pc) (len n : Nat) (c : Cpu) :
    (t.withCpu (c.withPc (s.cpu.pc + BitVec.ofNat 16 len))).charge n = t.ran len n c := by
  rw [← hpc]; rfl

/-- A read-kind instruction whose computation leaves PC alone. -/
theorem readInstr_eq_ran {f : Byte → Cpu → Cpu} (hf : ∀ m c pc, f m (c.withPc pc) = (f m c).withPc pc) (o : ReadOperand)
    (s : State) :
    readInstr o f s =
      (readOperand o s).state.ran (1 + o.size) (readOperand o s).cost (f (readOperand o s).value s.cpu) := by
  rw [readInstr_eq, State.advance_cpu, hf]
  exact withCpu_charge_eq_ran (congrArg Cpu.pc (readOperand_cpu o s)) _ _ _

theorem writeInstr_eq_ran {v : Cpu → Byte} (hv : ∀ c pc, v (c.withPc pc) = v c) (m : MemMode) (s : State) :
    writeInstr m v s =
      (memWrite (locate m s).ea (v s.cpu) (s.cycles + writeCost m - 1) s).ran (1 + m.size) (writeCost m) s.cpu := by
  rw [writeInstr_eq, State.advance_cpu, hv]
  exact withCpu_charge_eq_ran (congrArg Cpu.pc (memWrite_cpu ..)) _ _ _

theorem rmwInstr_eq_ran (m : RmwMode) (f : Byte → Flags → Byte × Flags) (s : State) :
    rmwInstr m f s =
      (let n := rmwCost m
       let ea := (locate m.toMem s).ea
       let r := memRead ea (s.cycles + n - 3) s
       let written := memWrite ea r.1 (s.cycles + n - 2) r.2
       let new := f r.1 s.cpu.p
       (memWrite ea new.1 (s.cycles + n - 1) written).ran (1 + m.toMem.size) n { s.cpu with p := new.2 }) := by
  rw [rmwInstr_eq, State.advance_cpu]
  exact withCpu_charge_eq_ran (by simp only [memWrite_cpu, memRead_cpu]) _ _ { s.cpu with p := _ }

/-- An accumulator form, for a computation of the byte and the flags. -/
theorem accumulatorInstr_eq_ran (f : Byte → Flags → Byte × Flags) (s : State) :
    accumulatorInstr f s = s.ran 1 2 { s.cpu with a := (f s.cpu.a s.cpu.p).1, p := (f s.cpu.a s.cpu.p).2 } :=
  implied_eq_ran (f := fun c => (c.withA (f c.a c.p).1).withP (f c.a c.p).2) (fun _ _ => rfl) s

/-! ## Operands and their costs (R412, R432) -/

/-- The cost of a memory operand, with its page-cross cycle. -/
theorem readOperand_mem_cost (m : MemMode) (s : State) :
    (readOperand (.mem m) s).cost = readCost m + (if crossPenalty m && (locate m s).cross then 1 else 0) := rfl

/-- Settles O8: the operand's one access is stamped with the last cycle of its cost, mode by mode. -/
theorem readOperandMakesOneAccess : Obligations.ReadOperandMakesOneAccess := by
  unfold Obligations.ReadOperandMakesOneAccess
  refine fun s => ⟨fun b => rfl, fun m => ?_⟩
  extract_lets l n
  have hread : readOperand (.mem m) s =
      { value := (memRead l.ea (s.cycles + n - 1) s).1, cost := n, state := (memRead l.ea (s.cycles + n - 1) s).2 } := by
    simp only [readOperand, locate_state]; rfl
  refine ⟨congrArg ReadResult.value hread, congrArg ReadResult.state hread, (readOperand_mem_cost m s).trans ?_⟩
  cases m with
  | zp z | zpx z | zpy z | abs a | izx z => rfl
  | abx a | aby a | izy z => simp only [crossPenalty, readCost, Bool.true_and]; split <;> rfl

/-! ## Loads, stores and logic -/

/-- Settles O9: a load is a read-kind instruction that loads its register with the operand byte. -/
theorem loadsSetRegisterAndNZ : Obligations.LoadsSetRegisterAndNZ := by
  unfold Obligations.LoadsSetRegisterAndNZ
  intro o s r
  refine ⟨congrArg Host.Outcome.next ?a, congrArg Host.Outcome.next ?x, congrArg Host.Outcome.next ?y⟩
  case a => rw [readInstr_eq_ran fun _ _ _ => rfl, Cpu.loadA_eq]
  case x => rw [readInstr_eq_ran fun _ _ _ => rfl, Cpu.loadX_eq]
  case y => rw [readInstr_eq_ran fun _ _ _ => rfl, Cpu.loadY_eq]

/-- Settles O12: a logic instruction loads A with the combined byte. -/
theorem logicCombinesBits : Obligations.LogicCombinesBits := by
  unfold Obligations.LogicCombinesBits
  intro o s r done
  have load : ∀ op : Byte → Byte → Byte,
      readInstr o (fun m c => c.loadA (op c.a m)) s = done (op s.cpu.a r.value) := fun op => by
    rw [readInstr_eq_ran fun _ _ _ => rfl, Cpu.loadA_eq]
  exact ⟨congrArg Host.Outcome.next (load (· &&& ·)), congrArg Host.Outcome.next (load (· ||| ·)),
    congrArg Host.Outcome.next (load (· ^^^ ·))⟩

/-- Settles O14: a store is a write-kind instruction of a register other than PC. -/
theorem storesWriteOneByte : Obligations.StoresWriteOneByte := by
  unfold Obligations.StoresWriteOneByte
  intro m s n ea done
  have store : ∀ reg : Cpu → Byte, (∀ c pc, reg (c.withPc pc) = reg c) →
      Host.Outcome.next (writeInstr m reg s) = (.next (done (reg s.cpu)) : Result) :=
    fun reg hreg => congrArg Host.Outcome.next (writeInstr_eq_ran hreg m s)
  refine ⟨store Cpu.a fun _ _ => rfl, store Cpu.x fun _ _ => rfl, store Cpu.y fun _ _ => rfl, ?_⟩
  cases m <;> rfl

/-! ## Addition and subtraction on numbers (R610, R611) -/

theorem toInt_eq (b : Byte) : b.toInt = if b.toNat < 128 then (b.toNat : Int) else b.toNat - 256 := by
  rw [BitVec.toInt_eq_toNat_cond]
  split <;> split <;> omega

/-- V of ADC: equal signs in, another sign out, is a signed sum out of range. -/
theorem addOverflow_eq_range (a m : Byte) (carry : Bool) :
    ((~~~(a ^^^ m) &&& (a ^^^ BitVec.ofNat 8 (a.toNat + m.toNat + flagBit carry)) &&& 0x80) != 0) =
      decide (a.toInt + m.toInt + flagBit carry < -128 ∨ 127 < a.toInt + m.toInt + flagBit carry) := by
  have hcarry := flagBit_le carry
  have ha := a.isLt
  have hm := m.isLt
  rw [addOverflow_eq, Bool.eq_iff_iff, toInt_eq, toInt_eq]
  simp only [Bool.and_eq_true, beq_iff_eq, bne_iff_ne, ne_eq, decide_eq_decide, decide_eq_true_eq, BitVec.toNat_ofNat]
  split <;> split <;> omega

/-- ADC on numbers. -/
theorem addWithCarry_eq (a m : Byte) (f : Flags) :
    addWithCarry a m f =
      (let sum := a.toNat + m.toNat + flagBit f.c
       let signed := a.toInt + m.toInt + flagBit f.c
       let r : Byte := BitVec.ofNat 8 sum
       (r, nz r { f with c := decide (256 ≤ sum), v := decide (signed < -128 ∨ 127 < signed) })) := by
  rw [addWithCarry, addOverflow_eq_range]
  simp only [Flags.setNZ_eq]

/-- Settles O10: ADC is a read-kind instruction with the sum and its flags on numbers. -/
theorem adcAddsWithCarry : Obligations.AdcAddsWithCarry := by
  unfold Obligations.AdcAddsWithCarry
  intro o s r sum signed a'
  refine congrArg Host.Outcome.next ?_
  rw [readInstr_eq_ran fun _ _ _ => rfl, addWithCarry_eq]
  rfl

/-- V of SBC: different signs in, another sign than A's out, is a signed difference out of range. -/
theorem subOverflow_eq_range (a m : Byte) (carry : Bool) :
    (((a ^^^ m) &&& (a ^^^ BitVec.ofNat 8 (a.toNat + (m ^^^ 0xFF).toNat + flagBit carry)) &&& 0x80) != 0) =
      decide (a.toInt - m.toInt - (1 - flagBit carry : Nat) < -128 ∨
        127 < a.toInt - m.toInt - (1 - flagBit carry : Nat)) := by
  have hcarry := flagBit_le carry
  have ha := a.isLt
  have hm := m.isLt
  rw [subOverflow_eq, Bool.eq_iff_iff, toInt_eq, toInt_eq, xor_ff_toNat]
  simp only [Bool.and_eq_true, bne_iff_ne, ne_eq, decide_eq_decide, decide_eq_true_eq, BitVec.toNat_ofNat]
  split <;> split <;> omega

/-- SBC on numbers. -/
theorem subWithBorrow_eq (a m : Byte) (f : Flags) :
    subWithBorrow a m f =
      (let borrow := 1 - flagBit f.c
       let signed := a.toInt - m.toInt - borrow
       let r : Byte := BitVec.ofInt 8 ((a.toNat : Int) - m.toNat - borrow)
       (r, nz r { f with
         c := decide (m.toNat + borrow ≤ a.toNat), v := decide (signed < -128 ∨ 127 < signed) })) := by
  have hcarry := flagBit_le f.c
  have hm := m.isLt
  have hborrow : ((1 - flagBit f.c : Nat) : Int) = 1 - flagBit f.c := by omega
  have hresult := subWithBorrow_fst a m f
  rw [← hborrow] at hresult
  have hc : decide (0x100 ≤ a.toNat + (m ^^^ 0xFF).toNat + flagBit f.c) = decide (m.toNat + (1 - flagBit f.c) ≤ a.toNat) := by
    rw [xor_ff_toNat, decide_eq_decide]; omega
  refine Prod.ext hresult ?_
  dsimp only
  rw [← hresult]
  simp only [subWithBorrow, subOverflow_eq_range, hc, Flags.setNZ_eq]

/-- Settles O11: SBC is a read-kind instruction with the difference and its flags on numbers. -/
theorem sbcSubtractsWithBorrow : Obligations.SbcSubtractsWithBorrow := by
  unfold Obligations.SbcSubtractsWithBorrow
  intro o s r borrow signed a'
  refine congrArg Host.Outcome.next ?_
  rw [readInstr_eq_ran fun _ _ _ => rfl, subWithBorrow_eq]
  rfl

/-! ## Compares and BIT (R615 to R618) -/

theorem compareFlags_eq (reg m : Byte) (f : Flags) :
    compareFlags reg m f =
      { f with
        c := decide (m.toNat ≤ reg.toNat)
        z := decide (reg = m)
        n := decide (128 ≤ (256 + reg.toNat - m.toNat) % 256) } := by
  have hreg := reg.isLt
  have hm := m.isLt
  have hdiff : (reg - m).toNat = (256 + reg.toNat - m.toNat) % 256 := by rw [BitVec.toNat_sub]; omega
  have hzero : reg - m = 0 ↔ reg = m := sub_eq_zero
  rw [compareFlags, Flags.setNZ_eq, nz, hdiff]
  simp only [hzero]

/-- Bit 6 of a byte, as a bound on its number. -/
theorem bit6_eq (b : Byte) : b.getLsbD 6 = decide (64 ≤ b.toNat % 128) := by revert b; decide

theorem bitFlags_eq (a m : Byte) (f : Flags) :
    bitFlags a m f =
      { f with z := decide (a &&& m = 0), n := decide (128 ≤ m.toNat), v := decide (64 ≤ m.toNat % 128) } := by
  rw [bitFlags, msb_eq, bit6_eq]
  rfl

/-- Settles O13: each instruction is a read-kind one that writes the flags alone, with the comparison on numbers. -/
theorem compareAndBitSetFlags : Obligations.CompareAndBitSetFlags := by
  unfold Obligations.CompareAndBitSetFlags
  intro o m s r cmp done q
  have compare : ∀ reg : Cpu → Byte, (∀ c pc, reg (c.withPc pc) = reg c) →
      readInstr o (fun m c => c.withP (compareFlags (reg c) m c.p)) s = done (cmp (reg s.cpu)) := fun reg hreg => by
    rw [readInstr_eq_ran fun _ _ _ => by rw [hreg]; rfl, compareFlags_eq]
    rfl
  refine ⟨congrArg Host.Outcome.next (compare Cpu.a fun _ _ => rfl), congrArg Host.Outcome.next (compare Cpu.x fun _ _ => rfl),
    congrArg Host.Outcome.next (compare Cpu.y fun _ _ => rfl), congrArg Host.Outcome.next ?_⟩
  rw [readInstr_eq_ran fun _ _ _ => rfl, bitFlags_eq]
  rfl

/-! ## Shifts and rotates on numbers (R670 to R673) -/

theorem aslOp_eq (v : Byte) (f : Flags) : aslOp v f = ((shiftLeft v f.c).1, shiftFlags (shiftLeft v f.c) f) := by
  have result : ∀ v : Byte, v <<< 1 = BitVec.ofNat 8 (2 * v.toNat) := by decide
  rw [aslOp, result, Flags.setNZ_eq, msb_eq]
  rfl

/-- Bit 0 of a byte is its parity. -/
theorem bit0_eq (b : Byte) : b.getLsbD 0 = decide (b.toNat % 2 = 1) := by revert b; decide

theorem lsrOp_eq (v : Byte) (f : Flags) : lsrOp v f = ((shiftRight v f.c).1, shiftFlags (shiftRight v f.c) f) := by
  have result : ∀ v : Byte, v >>> 1 = BitVec.ofNat 8 (v.toNat / 2) := by decide
  rw [lsrOp, result, Flags.setNZ_eq, bit0_eq]
  rfl

theorem rolOp_eq (v : Byte) (f : Flags) : rolOp v f = ((rotateLeft v f.c).1, shiftFlags (rotateLeft v f.c) f) := by
  have result : ∀ (v : Byte) (carry : Bool),
      (v <<< 1) ||| (BitVec.ofBool carry).setWidth 8 = BitVec.ofNat 8 (2 * v.toNat + flagBit carry) := by decide
  rw [rolOp, result, Flags.setNZ_eq, msb_eq]
  rfl

theorem rorOp_eq (v : Byte) (f : Flags) : rorOp v f = ((rotateRight v f.c).1, shiftFlags (rotateRight v f.c) f) := by
  have result : ∀ (v : Byte) (carry : Bool),
      (v >>> 1) ||| ((BitVec.ofBool carry).setWidth 8 <<< 7) = BitVec.ofNat 8 (v.toNat / 2 + 128 * flagBit carry) := by
    decide
  rw [rorOp, result, Flags.setNZ_eq, bit0_eq]
  rfl

/-- Settles O18: each is the accumulator form of its shift on numbers. -/
theorem accumulatorShifts : Obligations.AccumulatorShifts := by
  unfold Obligations.AccumulatorShifts
  intro s done
  refine ⟨congrArg Host.Outcome.next ?asl, congrArg Host.Outcome.next ?lsr, congrArg Host.Outcome.next ?rol,
    congrArg Host.Outcome.next ?ror⟩
  case asl => rw [accumulatorInstr_eq_ran, aslOp_eq]
  case lsr => rw [accumulatorInstr_eq_ran, lsrOp_eq]
  case rol => rw [accumulatorInstr_eq_ran, rolOp_eq]
  case ror => rw [accumulatorInstr_eq_ran, rorOp_eq]

/-- Settles O15: each is the read-modify-write form of its operation on numbers. -/
theorem rmwReadsAndWritesTwice : Obligations.RmwReadsAndWritesTwice := by
  unfold Obligations.RmwReadsAndWritesTwice
  intro m s n ea r written done shift
  have run : ∀ f : Byte → Flags → Byte × Flags,
      Host.Outcome.next (rmwInstr m f s) = (.next (done (f r.1 s.cpu.p).1 (f r.1 s.cpu.p).2) : Result) :=
    fun f => congrArg Host.Outcome.next (rmwInstr_eq_ran m f s)
  refine ⟨(run incOp).trans ?inc, (run decOp).trans ?dec, (run aslOp).trans ?asl, (run lsrOp).trans ?lsr,
    (run rolOp).trans ?rol, (run rorOp).trans ?ror, ?cost⟩
  case inc => rw [incOp, Flags.setNZ_eq]
  case dec => rw [decOp, Flags.setNZ_eq]
  case asl => rw [aslOp_eq]
  case lsr => rw [lsrOp_eq]
  case rol => rw [rolOp_eq]
  case ror => rw [rorOp_eq]
  case cost => cases m <;> rfl

end Sys2Proof.Machine
end

section
/-! Stack instructions, jumps, calls, BRK and branches (spec/42_stack.md, spec/45_control_transfer.md): each result on
numbers, and the compositions of an entry with its return. -/

namespace Sys2Proof.Machine

/-- The last update of an instruction, for a state whose clock has not moved. -/
theorem withCpu_charge {t : State} {cycles : Nat} (h : t.cycles = cycles) (c : Cpu) (n : Nat) :
    (t.withCpu c).charge n = { t with cpu := c, cycles := cycles + n } := by
  rw [← h]; rfl

/-! ## The stack instructions (R560 to R563) -/

/-- The pushed status byte on numbers (R104). -/
theorem pack_true_eq (f : Flags) :
    f.pack true = BitVec.ofNat 8 (128 * flagBit f.n + 64 * flagBit f.v + 32 + 16 + 8 * flagBit f.d + 4 * flagBit f.i +
      2 * flagBit f.z + flagBit f.c) := by
  obtain ⟨n, v, b, d, i, z, c⟩ := f
  revert n v b d i z c
  decide

theorem execPush_eq (v : Byte) (s : State) :
    (push v (s.cycles + 2) (s.advance 1)).charge 3 =
      (s.withRam (s.ram.write (0x100 + s.cpu.s.toNat) v)).ran 1 3 { s.cpu with s := s.cpu.s - 1 } := by
  rw [push_eq]; rfl

/-- The byte a pull instruction takes, for a computation of the registers that leaves PC alone. -/
theorem execPull_eq {f : Byte → Cpu → Cpu} (hf : ∀ b c pc, f b (c.withPc pc) = (f b c).withPc pc) (s : State) :
    ((pull (s.cycles + 3) (s.advance 1)).2.withCpu
        (f (pull (s.cycles + 3) (s.advance 1)).1 (pull (s.cycles + 3) (s.advance 1)).2.cpu)).charge 4 =
      s.ran 1 4 (f (stackByte s 1) (s.cpu.withS (s.cpu.s + 1))) := by
  have hs : ∀ pc, (s.cpu.withPc pc).withS (s.cpu.s + 1) = (s.cpu.withS (s.cpu.s + 1)).withPc pc := fun _ => rfl
  rw [pull_eq, State.advance_cpu, State.advance_ram, Cpu.withPc_s, read_first_pull, hs, State.withCpu_cpu, hf]
  rfl

section
variable (s : State)

theorem execPha_eq : execPha s =
    .next ((s.withRam (s.ram.write (0x100 + s.cpu.s.toNat) s.cpu.a)).ran 1 3 { s.cpu with s := s.cpu.s - 1 }) :=
  congrArg Host.Outcome.next (execPush_eq s.cpu.a s)

theorem execPhp_eq : execPhp s =
    .next ((s.withRam (s.ram.write (0x100 + s.cpu.s.toNat) (s.cpu.p.pack true))).ran 1 3 { s.cpu with s := s.cpu.s - 1 }) :=
  congrArg Host.Outcome.next (execPush_eq (s.cpu.p.pack true) s)

theorem execPla_eq : execPla s =
    .next (s.ran 1 4 { s.cpu with s := s.cpu.s + 1, a := stackByte s 1, p := nz (stackByte s 1) s.cpu.p }) := by
  rw [execPla]
  refine congrArg Host.Outcome.next ((execPull_eq (f := fun b c => c.loadA b) (fun _ _ _ => rfl) s).trans ?_)
  rw [Cpu.loadA_eq]
  rfl

theorem execPlp_eq : execPlp s =
    .next (s.ran 1 4 { s.cpu with s := s.cpu.s + 1, p := Flags.unpack (stackByte s 1) }) := by
  rw [execPlp]
  exact congrArg Host.Outcome.next (execPull_eq (f := fun b c => c.withP (Flags.unpack b)) (fun _ _ _ => rfl) s)

end

/-- Settles O19: a push stores and lowers S, a pull raises S and gives the byte of page 1 to A or to the flags. -/
theorem stackInstructionsPushAndPull : Obligations.StackInstructionsPushAndPull := by
  unfold Obligations.StackInstructionsPushAndPull
  refine fun s => ⟨execPha_eq s, (execPhp_eq s).trans ?_, execPla_eq s, execPlp_eq s⟩
  rw [pack_true_eq]

/-! ## Jumps (R710, R711) -/

theorem wrapNext_eq (a : Word) : wrapNext a = BitVec.ofNat 16 (a.toNat / 256 * 256 + (a.toNat + 1) % 256) := by
  have h := (wrapNext a).isLt
  apply BitVec.eq_of_toNat_eq
  rw [BitVec.toNat_ofNat, ← wrapNext_toNat, Nat.mod_eq_of_lt h]

theorem read16wrap_eq (a : Word) (stamp : Nat) (s : State) :
    read16wrap a stamp s =
      (let lo := memRead a stamp s
       let hi := memRead (wrapNext a) (stamp + 1) lo.2
       (joinBytes hi.1 lo.1, hi.2)) := rfl

/-- JMP indirect: no read moves the registers or the clock. -/
theorem execJmpInd_eq (pointer : Word) (s : State) :
    execJmpInd pointer s =
      (let r := read16wrap pointer (s.cycles + 3) s
       .next { r.2 with cpu := { s.cpu with pc := r.1 }, cycles := s.cycles + 5 }) := by
  have hcycles := (read16wrap_keeps (Nat.le_refl (s.cycles + 3 + 1)) pointer s).keeps.cycles
  have hadvance : s.advance 3 = s.withCpu (s.advance 3).cpu := rfl
  rw [execJmpInd, hadvance, read16wrap_withCpu]
  exact congrArg Host.Outcome.next (withCpu_charge hcycles _ 5)

/-- Settles O22: the pointer's second byte is at the page-wrapped successor. -/
theorem jumpsSetPc : Obligations.JumpsSetPc := by
  unfold Obligations.JumpsSetPc
  intro a s second lo hi
  refine ⟨rfl, (execJmpInd_eq a s).trans ?_⟩
  simp only [read16wrap_eq, joinBytes_eq, wrapNext_eq]
  rfl

/-! ## Calls (R712, R715) -/

/-- RAM after JSR has pushed the address of its last byte. -/
def callFrame (s : State) : Memory :=
  (s.ram.write (0x100 + s.cpu.s.toNat) (BitVec.ofNat 8 ((s.cpu.pc + 2).toNat / 256))).write
    (0x100 + (s.cpu.s - 1).toNat) (BitVec.ofNat 8 ((s.cpu.pc + 2).toNat % 256))

/-- JSR with its late read of the target's high byte (R712; log 9). -/
theorem execJsr_eq (target : Word) (s : State) :
    execJsr target s =
      (let hi := memRead (s.cpu.pc + 2) (s.cycles + 5) (s.withRam (callFrame s))
       .next { hi.2 with
         cpu := { s.cpu with s := s.cpu.s - 2, pc := joinBytes hi.1 (lowByte target) }
         cycles := s.cycles + 6 }) := by
  have hpush : pushWord (s.cpu.pc + 2) (s.cycles + 3) (s.advance 3) =
      (s.withRam (callFrame s)).withCpu (((s.advance 3).cpu).withS (s.cpu.s - 2)) := by
    rw [pushWord_eq, highByte_eq, lowByte_eq, sub_one_one]; rfl
  rw [execJsr, hpush, memRead_withCpu]
  exact congrArg Host.Outcome.next (withCpu_charge (memRead_cycles ..) _ 6)

/-- Settles O23: the decoded word gives the low byte alone, the high byte is the one read after the pushes. -/
theorem jsrPushesThenReadsTarget : Obligations.JsrPushesThenReadsTarget := by
  unfold Obligations.JsrPushesThenReadsTarget
  intro target s ret ram hi
  refine (execJsr_eq target s).trans ?_
  simp only [joinBytes_eq, lowByte_toNat]
  rfl

/-- Settles O25: BRK is the interrupt entry from $FFFE with bit 4 set. -/
theorem brkEntersHandler : Obligations.BrkEntersHandler := by
  unfold Obligations.BrkEntersHandler
  intro s c ret status ram
  refine congrArg Host.Outcome.next ?_
  rw [enterInterrupt_eq_frame (by decide) (by decide), State.advance_cpu, Cpu.withPc_p, pack_true_eq]
  rfl

/-! ## Branches (R720 to R728) -/

/-- The sign-extended offset on numbers (R14). -/
theorem sext16_toNat (b : Byte) : (sext16 b).toNat = if b.toNat < 128 then b.toNat else b.toNat + 65280 := by
  revert b; unfold sext16; decide

/-- A branch target on numbers: the offset is a number from -128 to 127 (R422). -/
theorem branchTarget_toNat (next : Word) (offset : Byte) :
    (branchTarget next offset).toNat = (((next.toNat : Int) + offset.toInt) % 65536).toNat := by
  have hoffset := offset.isLt
  rw [branchTarget, BitVec.toNat_add, sext16_toNat, toInt_eq]
  split <;> omega

/-- A branch on numbers, taken or not. -/
theorem branchInstr_eq (offset : Byte) (cond : Flags → Bool) (s : State) :
    branchInstr offset cond s =
      (let next := (s.cpu.pc.toNat + 2) % 65536
       let target := (((next : Int) + offset.toInt) % 65536).toNat
       { s with
         cpu := { s.cpu with pc := BitVec.ofNat 16 (if cond s.cpu.p then target else next) }
         cycles := s.cycles + (if !cond s.cpu.p then 2 else if target / 256 = next / 256 then 3 else 4) }) := by
  have hnext : (s.cpu.pc.toNat + 2) % 65536 = (s.cpu.pc + 2).toNat := (BitVec.toNat_add s.cpu.pc 2).symm
  have hword : ∀ w : Word, BitVec.ofNat 16 w.toNat = w := fun w => by rw [BitVec.ofNat_toNat, BitVec.setWidth_eq]
  simp only [hnext, ← branchTarget_toNat]
  cases hcond : cond s.cpu.p with
  | true =>
    simp only [branchInstr, State.advance_cpu, Cpu.withPc_p, Cpu.withPc_pc, hcond, pageCross_iff, if_true, hword,
      ite_not, Bool.not_true, Bool.false_eq_true, if_false]
    rfl
  | false =>
    simp only [branchInstr, State.advance_cpu, Cpu.withPc_p, hcond, Bool.false_eq_true, if_false, hword, Bool.not_false,
      if_true]
    rfl

/-- Settles O26: each branch is the branch on its own flag. -/
theorem branchesFollowFlag : Obligations.BranchesFollowFlag := by
  unfold Obligations.BranchesFollowFlag
  intro offset s next target branch
  have run : ∀ cond : Flags → Bool,
      Host.Outcome.next (branchInstr offset cond s) = (.next (branch (cond s.cpu.p)) : Result) :=
    fun cond => congrArg Host.Outcome.next (branchInstr_eq offset cond s)
  exact ⟨run fun f => !f.n, run fun f => f.n, run fun f => !f.v, run fun f => f.v, run fun f => !f.c, run fun f => f.c,
    run fun f => !f.z, run fun f => f.z⟩

/-! ## Returns from their entries -/

theorem stack_ne {m n : Byte} (h : m ≠ n) : 0x100 + m.toNat ≠ 0x100 + n.toNat := fun heq =>
  h (BitVec.eq_of_toNat_eq (Nat.add_left_cancel heq))

theorem self_ne_sub_one (b : Byte) : b ≠ b - 1 := by bv_omega

theorem self_ne_sub_two (b : Byte) : b ≠ b - 2 := by bv_omega

theorem sub_one_ne_sub_two (b : Byte) : b - 1 ≠ b - 2 := by bv_omega

/-- After JSR the two bytes above S are those of the address of its last byte. -/
theorem pullWord_callFrame {s t : State} (hram : t.ram = callFrame s) (hs : t.cpu.s = s.cpu.s - 2) (stamp : Nat) :
    pullWord stamp t = (s.cpu.pc + 2, t.withCpu (t.cpu.withS s.cpu.s)) := by
  have hone : s.cpu.s - 2 + 1 = s.cpu.s - 1 := by bv_omega
  have htwo : s.cpu.s - 1 + 1 = s.cpu.s := by bv_omega
  rw [pullWord_eq, hs, hone, htwo, hram, callFrame, Memory.read_write_same,
    Memory.read_write_ne _ _ (stack_ne (self_ne_sub_one s.cpu.s).symm), Memory.read_write_same, ← highByte_eq, ← lowByte_eq,
    joinBytes_high_low]

theorem execJsr_frame {target : Word} {s t : State} (h : execJsr target s = .next t) :
    t.ram = callFrame s ∧ ∃ pc, t.cpu = { s.cpu with s := s.cpu.s - 2, pc := pc } := by
  rw [execJsr_eq] at h
  obtain rfl := Host.Outcome.next.inj h
  exact ⟨(memRead_keeps (Nat.le_refl (s.cycles + 5)) (s.cpu.pc + 2) (s.withRam (callFrame s))).ram, _, rfl⟩

theorem execRts_of_callFrame {s t : State} (hram : t.ram = callFrame s) (hs : t.cpu.s = s.cpu.s - 2) :
    execRts t = .next ((t.withCpu { t.cpu with s := s.cpu.s, pc := s.cpu.pc + 3 }).charge 6) := by
  have hpc : s.cpu.pc + 2 + 1 = s.cpu.pc + 3 := BitVec.add_assoc s.cpu.pc 2 1
  rw [execRts, pullWord_callFrame (t := t.advance 1) hram hs]
  simp only [hpc]
  rfl

/-- After an interrupt entry the three bytes above S are those of the status and of the return address. -/
theorem returnFromInterrupt_of_frame {s t : State} {ret : Word} {b : Bool}
    (hram : t.ram = interruptFrame s.ram s.cpu.s ret (s.cpu.p.pack b)) (hs : t.cpu.s = s.cpu.s - 3) :
    returnFromInterrupt t = t.withCpu { t.cpu with s := s.cpu.s, p := { s.cpu.p with b := b }, pc := ret } := by
  have hone : s.cpu.s - 3 + 1 = s.cpu.s - 2 := by bv_omega
  have htwo : s.cpu.s - 2 + 1 = s.cpu.s - 1 := by bv_omega
  have hthree : s.cpu.s - 1 + 1 = s.cpu.s := by bv_omega
  have hstatus : t.ram.read (0x100 + (s.cpu.s - 2).toNat) = s.cpu.p.pack b := by
    rw [hram, interruptFrame, Memory.read_write_same]
  have hlow : t.ram.read (0x100 + (s.cpu.s - 1).toNat) = lowByte ret := by
    rw [hram, interruptFrame, Memory.read_write_ne _ _ (stack_ne (sub_one_ne_sub_two s.cpu.s).symm),
      Memory.read_write_same, lowByte_eq]
  have hhigh : t.ram.read (0x100 + s.cpu.s.toNat) = highByte ret := by
    rw [hram, interruptFrame, Memory.read_write_ne _ _ (stack_ne (self_ne_sub_two s.cpu.s).symm),
      Memory.read_write_ne _ _ (stack_ne (self_ne_sub_one s.cpu.s).symm), Memory.read_write_same, highByte_eq]
  rw [returnFromInterrupt_eq, hs, hone, htwo, hthree, hstatus, hlow, hhigh, joinBytes_high_low, Flags.unpack_pack]

/-- Settles O27: the return pulls the bytes that the entry pushed, which no read in between changes. -/
theorem returnsUndoTheirEntries : Obligations.ReturnsUndoTheirEntries := by
  unfold Obligations.ReturnsUndoTheirEntries
  refine ⟨fun target s t u ht hu => ?rts, fun vector bflag ret s u hvector hu => ?rti⟩
  case rts =>
    obtain ⟨hram, pc, hcpu⟩ := execJsr_frame ht
    obtain rfl := Host.Outcome.next.inj ((execRts_of_callFrame hram (by rw [hcpu])).symm.trans hu)
    rw [hcpu]
    rfl
  case rti =>
    have hrom : 0x8000 ≤ vector.toNat ∧ vector.toNat < 0xFFFF := by rcases hvector with rfl | rfl | rfl <;> decide
    rw [enterInterrupt_eq_frame hrom.1 hrom.2] at hu
    have hreturn := returnFromInterrupt_of_frame (s := s) (ret := ret) (b := bflag)
      (t := State.advance 1 { s with
        ram := interruptFrame s.ram s.cpu.s ret (s.cpu.p.pack bflag)
        cpu := { s.cpu with
          s := s.cpu.s - 3
          p := { s.cpu.p with i := true }
          pc := BitVec.ofNat 16
            (256 * (s.dev.cart.readPrg (vector + 1)).toNat + (s.dev.cart.readPrg vector).toNat) } }) rfl rfl
    obtain rfl := Host.Outcome.next.inj hu
    rw [hreturn]
    rfl

end Sys2Proof.Machine
end

section
/-! Frames (spec/10_state.md sections 1 and 2, spec/20_memory.md section 1, spec/42_stack.md): which registers and which bytes
an instruction leaves as they were. -/

namespace Sys2Proof.Machine

/-! ## Registers and flags (R101, R105) -/

/-- Every register and flag that the table of writers does not list is the same. -/
def Obeys (w : Writes) (c c' : Cpu) : Prop :=
  (w.a = false → c'.a = c.a) ∧ (w.x = false → c'.x = c.x) ∧ (w.y = false → c'.y = c.y) ∧ (w.s = false → c'.s = c.s) ∧
  (w.c = false → c'.p.c = c.p.c) ∧ (w.nz = false → c'.p.z = c.p.z ∧ c'.p.n = c.p.n) ∧ (w.i = false → c'.p.i = c.p.i) ∧
  (w.d = false → c'.p.d = c.p.d) ∧ (w.v = false → c'.p.v = c.p.v) ∧ (w.b = false → c'.p.b = c.p.b)

section
variable {w : Writes}

theorem readInstr_obeys {f : Byte → Cpu → Cpu} (hf : ∀ m c, Obeys w c (f m c)) (o : ReadOperand) (s : State) :
    Obeys w s.cpu (readInstr o f s).cpu := by
  rw [readInstr_eq]
  exact hf _ (s.advance (1 + o.size)).cpu

theorem implied_obeys {f : Cpu → Cpu} (hf : ∀ c, Obeys w c (f c)) (s : State) : Obeys w s.cpu (implied f s).cpu :=
  hf (s.advance 1).cpu

theorem rmwInstr_obeys {f : Byte → Flags → Byte × Flags} (hf : ∀ (b : Byte) (c : Cpu), Obeys w c (c.withP (f b c.p).2))
    (m : RmwMode) (s : State) : Obeys w s.cpu (rmwInstr m f s).cpu := by
  rw [rmwInstr_eq]
  exact hf _ (s.advance (1 + m.toMem.size)).cpu

theorem branchInstr_cpu (offset : Byte) (cond : Flags → Bool) (s : State) :
    ∃ pc, (branchInstr offset cond s).cpu = s.cpu.withPc pc := by
  unfold branchInstr
  extract_lets t target
  split
  · exact ⟨target, rfl⟩
  · exact ⟨t.cpu.pc, rfl⟩

theorem obeys_withPc (c : Cpu) (pc : Word) : Obeys w c (c.withPc pc) := by simp [Obeys]

end

/-- Settles O31, by the registers and flags that each computation gives. -/
theorem registerAndFlagWriters : Obligations.RegisterAndFlagWriters := by
  unfold Obligations.RegisterAndFlagWriters
  intro i s t ht
  change Obeys (writes i) s.cpu t.cpu
  cases i with
  | lda o | ldx o | ldy o | and o | ora o | eor o =>
    cases ht; exact readInstr_obeys (fun m c => by simp [Obeys, writes]) o s
  | adc o => cases ht; exact readInstr_obeys (fun m c => by simp [Obeys, writes, addWithCarry]) o s
  | sbc o => cases ht; exact readInstr_obeys (fun m c => by simp [Obeys, writes, subWithBorrow]) o s
  | cmp o | cpx o | cpy o => cases ht; exact readInstr_obeys (fun m c => by simp [Obeys, writes, compareFlags]) o s
  | bit m => cases ht; exact readInstr_obeys (fun m c => by simp [Obeys, writes, bitFlags]) (.mem m) s
  | sta m | stx m | sty m =>
    cases ht
    show Obeys _ _ (writeInstr m _ s).cpu
    rw [writeInstr_eq]
    exact obeys_withPc ..
  | inc m => cases ht; exact rmwInstr_obeys (fun b c => by simp [Obeys, writes, incOp]) m s
  | dec m => cases ht; exact rmwInstr_obeys (fun b c => by simp [Obeys, writes, decOp]) m s
  | asl m => cases ht; exact rmwInstr_obeys (fun b c => by simp [Obeys, writes, aslOp]) m s
  | lsr m => cases ht; exact rmwInstr_obeys (fun b c => by simp [Obeys, writes, lsrOp]) m s
  | rol m => cases ht; exact rmwInstr_obeys (fun b c => by simp [Obeys, writes, rolOp]) m s
  | ror m => cases ht; exact rmwInstr_obeys (fun b c => by simp [Obeys, writes, rorOp]) m s
  | aslAcc => cases ht; exact implied_obeys (fun c => by simp [Obeys, writes, aslOp]) s
  | lsrAcc => cases ht; exact implied_obeys (fun c => by simp [Obeys, writes, lsrOp]) s
  | rolAcc => cases ht; exact implied_obeys (fun c => by simp [Obeys, writes, rolOp]) s
  | rorAcc => cases ht; exact implied_obeys (fun c => by simp [Obeys, writes, rorOp]) s
  | tax | tay | txa | tya | tsx | txs | inx | iny | dex | dey | clc | sec | cli | sei | cld | sed | clv | nop =>
    cases ht; exact implied_obeys (fun c => by simp [Obeys, writes]) s
  | bpl b | bmi b | bvc b | bvs b | bcc b | bcs b | bne b | beq b =>
    cases ht
    obtain ⟨pc, hcpu⟩ := branchInstr_cpu b _ s
    exact hcpu ▸ obeys_withPc ..
  | pha =>
    rw [show exec .pha s = execPha s from rfl, execPha_eq] at ht
    cases ht; simp [Obeys, writes, State.ran]
  | php =>
    rw [show exec .php s = execPhp s from rfl, execPhp_eq] at ht
    cases ht; simp [Obeys, writes, State.ran]
  | pla =>
    rw [show exec .pla s = execPla s from rfl, execPla_eq] at ht
    cases ht; simp [Obeys, writes, State.ran]
  | plp =>
    rw [show exec .plp s = execPlp s from rfl, execPlp_eq] at ht
    cases ht; simp [Obeys, writes, State.ran]
  | jmp a => cases ht; exact obeys_withPc ..
  | jmpInd a =>
    rw [show exec (.jmpInd a) s = execJmpInd a s from rfl, execJmpInd_eq] at ht
    cases ht; exact obeys_withPc s.cpu _
  | jsr a =>
    obtain ⟨-, pc, hcpu⟩ := execJsr_frame ht
    simp [Obeys, writes, hcpu]
  | rts =>
    rw [show exec .rts s = execRts s from rfl, execRts_eq] at ht
    cases ht; simp [Obeys, writes]
  | rti =>
    rw [show exec .rti s = execRti s from rfl, execRti_eq] at ht
    cases ht; simp [Obeys, writes]
  | brk =>
    rw [show exec .brk s = execBrk s from rfl, execBrk, enterInterrupt_eq_frame (by decide) (by decide)] at ht
    cases ht; simp [Obeys, writes]
  | unsupported op => cases ht; exact obeys_withPc ..

/-! ## The bytes behind plain addresses -/

/-- RAM, WRAM and what the PRG window shows are the same. -/
structure SamePlain (s t : State) : Prop where
  ram : t.ram = s.ram
  wram : t.dev.cart.wram = s.dev.cart.wram
  prg : t.dev.cart.prg = s.dev.cart.prg
  windows : t.dev.cart.windows = s.dev.cart.windows

theorem SamePlain.bytes {s t : State} (h : SamePlain s t) : samePlainBytes s t := by
  intro a stamp ha
  rcases ha with ha | ha
  · rw [memRead_ram ha, memRead_ram ha, h.ram]
  · by_cases hwram : a.toNat < 0x8000
    · rw [memRead_wram ha hwram, memRead_wram ha hwram, Cartridge.readWram, Cartridge.readWram, h.wram]
    · rw [memRead_prg (by omega), memRead_prg (by omega)]
      simp only [Cartridge.readPrg, Cartridge.prgOffset, h.prg, h.windows]

theorem SamePlain.of_reads {T : Nat} {s t : State} (h : ReadKeeps T s t) : SamePlain s t :=
  ⟨h.ram, h.wram, h.keeps.prg, h.windows⟩

theorem SamePlain.trans {s t u : State} (h : SamePlain s t) (k : SamePlain t u) : SamePlain s u :=
  ⟨k.ram.trans h.ram, k.wram.trans h.wram, k.prg.trans h.prg, k.windows.trans h.windows⟩

theorem SamePlain.ran (s : State) (len cost : Nat) (c : Cpu) : SamePlain s (s.ran len cost c) := ⟨rfl, rfl, rfl, rfl⟩

/-! ## Instructions that store nothing -/

/-- Every memory, the parameters and the pending DMA are the same. -/
structure SameMemories (s t : State) : Prop where
  ram : t.ram = s.ram
  stores : sameStores s t
  params : t.params = s.params
  pendingDma : t.pendingDma = s.pendingDma

theorem SameMemories.plain {s t : State} (h : SameMemories s t) : SamePlain s t := by
  obtain ⟨-, hprg, hwram, -, hwindows, -⟩ := h.stores
  exact ⟨h.ram, hwram, hprg, hwindows⟩

theorem SameMemories.of_reads {T : Nat} {s t : State} (h : ReadKeeps T s t) : SameMemories s t :=
  ⟨h.ram, h.stores, h.keeps.params, h.pendingDma⟩

theorem sameMemories_keptByReads : KeptByReads SameMemories where
  trans := fun h k =>
    ⟨k.ram.trans h.ram, h.stores.trans k.stores, k.params.trans h.params, k.pendingDma.trans h.pendingDma⟩
  cpu := fun s _ => ⟨rfl, .refl s, rfl, rfl⟩
  charge := fun _ s => ⟨rfl, .refl s, rfl, rfl⟩
  read := fun a stamp s => .of_reads (memRead_keeps (Nat.le_refl stamp) a s)

/-- Settles O32: an instruction that neither stores nor pushes is made of reads, and the fallback touches no memory. -/
theorem nonStoringInstructionsFrame : Obligations.NonStoringInstructionsFrame := by
  unfold Obligations.NonStoringInstructionsFrame
  intro i s t hstore hpush ht
  have h : SameMemories s t := by
    by_cases hi : ∃ op, i = .unsupported op
    · obtain ⟨op, rfl⟩ := hi
      cases ht
      exact ⟨rfl, .refl s, rfl, rfl⟩
    · exact sameMemories_keptByReads.exec hstore hpush (fun op ho => hi ⟨op, ho⟩) ht
  exact ⟨h.ram, h.stores, h.plain.bytes, h.params, h.pendingDma⟩

/-! ## Instructions that store at their operand's address -/

/-- The DMA loop writes OAM alone. -/
theorem dmaCopy_samePlain (page : Byte) (stamp fuel : Nat) (s : State) : SamePlain s (dmaCopy page stamp fuel s) := by
  induction fuel generalizing s with
  | zero => exact ⟨rfl, rfl, rfl, rfl⟩
  | succ fuel ih =>
    rw [dmaCopy_succ]
    extract_lets i r
    have hread : SamePlain s r.2 := .of_reads (memRead_keeps (Nat.le_refl stamp) _ s)
    refine hread.trans (SamePlain.trans ?_ (ih _))
    exact ⟨rfl, rfl, rfl, rfl⟩

theorem withPendingDma_samePlain (s : State) (n : Nat) : SamePlain s (s.withPendingDma n) := ⟨rfl, rfl, rfl, rfl⟩

/-- A write between RAM and WRAM changes no plain byte. -/
theorem memWrite_samePlain {a : Word} (h : 0x2000 ≤ a.toNat) (h' : a.toNat < 0x6000) (v : Byte) (stamp : Nat) (s : State) :
    SamePlain s (memWrite a v stamp s) := by
  have hdots := devAt_keeps s stamp
  have hsync : SamePlain s (s.sync stamp) := ⟨rfl, hdots.wram, hdots.prg, hdots.windows⟩
  unfold memWrite
  extract_lets n
  rw [if_neg (by omega)]
  split
  · have hport := portWrite_keeps s.params (s.ppuTime stamp) (n % 8) v (s.devAt stamp)
    exact hsync.trans ⟨rfl, hport.wram, hport.prg, hport.windows⟩
  split
  · exact (hsync.trans (dmaCopy_samePlain v stamp 256 _)).trans (withPendingDma_samePlain ..)
  split
  · exact ⟨rfl, rfl, rfl, rfl⟩
  split <;> exact ⟨rfl, rfl, rfl, rfl⟩

/-- What a store at `ea` can do. -/
structure StoresAt (ea : Word) (s t : State) : Prop where
  bytes : ea.toNat < 0x8000 → ∀ b n, plainAddr b → ¬(storeAddr ea ∧ sameByte ea b) → (memRead b n t).1 = (memRead b n s).1
  devices : storeAddr ea → t.dev.ppu = s.dev.ppu ∧ t.dev.cart.chr = s.dev.cart.chr ∧
    t.dev.cart.mapper = s.dev.cart.mapper ∧ t.host = s.host ∧ t.pendingDma = s.pendingDma
  stores : ¬storeAddr ea → t.ram = s.ram ∧ t.dev.cart.wram = s.dev.cart.wram
  prg : t.dev.cart.prg = s.dev.cart.prg
  header : t.dev.cart.header = s.dev.cart.header
  params : t.params = s.params

namespace StoresAt

variable {ea : Word}

theorem trans {s t u : State} (h : StoresAt ea s t) (k : StoresAt ea t u) : StoresAt ea s u where
  bytes := fun hea b n hb hne => (k.bytes hea b n hb hne).trans (h.bytes hea b n hb hne)
  devices := fun hea => by
    obtain ⟨hppu, hchr, hmapper, hhost, hdma⟩ := h.devices hea
    obtain ⟨kppu, kchr, kmapper, khost, kdma⟩ := k.devices hea
    exact ⟨kppu.trans hppu, kchr.trans hchr, kmapper.trans hmapper, khost.trans hhost, kdma.trans hdma⟩
  stores := fun hea => ⟨(k.stores hea).1.trans (h.stores hea).1, (k.stores hea).2.trans (h.stores hea).2⟩
  prg := k.prg.trans h.prg
  header := k.header.trans h.header
  params := k.params.trans h.params

/-- The registers and the clock are no part of a store. -/
theorem ran (s : State) (len cost : Nat) (c : Cpu) : StoresAt ea s (s.ran len cost c) where
  bytes := fun _ b n hb _ => (SamePlain.ran s len cost c).bytes b n hb
  devices := fun _ => ⟨rfl, rfl, rfl, rfl, rfl⟩
  stores := fun _ => ⟨rfl, rfl⟩
  prg := rfl
  header := rfl
  params := rfl

theorem read (stamp : Nat) (s : State) : StoresAt ea s (memRead ea stamp s).2 := by
  have hreads := memRead_keeps (Nat.le_refl stamp) ea s
  refine ⟨fun _ b n hb _ => memRead_byte_of_reads hreads b n hb, fun hea => ?_, fun _ => ⟨hreads.ram, hreads.wram⟩,
    hreads.keeps.prg, hreads.keeps.header, hreads.keeps.params⟩
  have hplain : plainAddr ea := hea.imp id And.left
  rw [memRead_plain_state hplain]
  exact ⟨rfl, rfl, rfl, rfl, rfl⟩

theorem write (v : Byte) (stamp : Nat) (s : State) : StoresAt ea s (memWrite ea v stamp s) := by
  have hkeeps := (memWrite_keeps (Nat.le_refl stamp) ea v s).1
  refine ⟨fun hea b n hb hne => ?bytes, fun hea => ?devices, fun hea => ?stores, hkeeps.prg, hkeeps.header, hkeeps.params⟩
  case bytes =>
    by_cases hstore : storeAddr ea
    · rw [memRead_memWrite hstore hb, if_neg fun hsame => hne ⟨hstore, hsame⟩]
    · exact (memWrite_samePlain (by omega) (by omega) v stamp s).bytes b n hb
  case devices =>
    rcases hea with hram | ⟨hwram, hwram'⟩
    · rw [memWrite_ram hram]; exact ⟨rfl, rfl, rfl, rfl, rfl⟩
    · rw [memWrite_wram hwram hwram']; exact ⟨rfl, rfl, rfl, rfl, rfl⟩
  case stores =>
    by_cases hdevice : ea.toNat < 0x6000
    · have h := memWrite_samePlain (a := ea) (by omega) hdevice v stamp s
      exact ⟨h.ram, h.wram⟩
    · rw [memWrite, if_neg (by omega), if_neg (by omega), if_neg (by omega), if_neg (by omega)]
      exact ⟨rfl, (devAt_keeps s stamp).wram⟩

theorem writeInstr (m : MemMode) {v : Cpu → Byte} (hv : ∀ c pc, v (c.withPc pc) = v c) (s : State) :
    StoresAt (locate m s).ea s (writeInstr m v s) := by
  rw [writeInstr_eq_ran hv]
  exact (write ..).trans (ran ..)

theorem rmwInstr (m : RmwMode) (f : Byte → Flags → Byte × Flags) (s : State) :
    StoresAt (locate m.toMem s).ea s (rmwInstr m f s) := by
  rw [rmwInstr_eq_ran]
  exact (read ..).trans ((write ..).trans ((write ..).trans (ran ..)))

end StoresAt

/-- Settles O33: a store is one write of its address, a read-modify-write form a read and two writes of it. -/
theorem storingInstructionsFrame : Obligations.StoringInstructionsFrame := by
  unfold Obligations.StoringInstructionsFrame
  intro i m s t hstore ht ea
  have h : StoresAt ea s t := by
    cases i with
    | sta m' | stx m' | sty m' => cases hstore; cases ht; exact .writeInstr m (fun _ _ => rfl) s
    | inc m' | dec m' | asl m' | lsr m' | rol m' | ror m' => cases hstore; cases ht; exact .rmwInstr m' _ s
    | _ => cases hstore
  exact ⟨h.bytes, h.devices, h.stores, h.prg, h.header, h.params⟩

/-! ## Instructions that push -/

/-- What a part of an instruction that pushes `k` bytes can do. -/
structure Pushes (k : Nat) (s t : State) : Prop where
  sp : t.cpu.s = s.cpu.s - BitVec.ofNat 8 k
  bytes : ∀ b n, plainAddr b → (∀ j, j < k → ¬sameByte (stackAddr (s.cpu.s - BitVec.ofNat 8 j)) b) →
    (memRead b n t).1 = (memRead b n s).1
  stores : sameStores s t
  params : t.params = s.params
  pendingDma : t.pendingDma = s.pendingDma

namespace Pushes

theorem trans {j k : Nat} {s t u : State} (h : Pushes j s t) (h' : Pushes k t u) : Pushes (j + k) s u where
  sp := by rw [h'.sp, h.sp, BitVec.ofNat_add, sub_sub]
  bytes := fun b n hb hne => by
    refine (h'.bytes b n hb fun l hl => ?_).trans (h.bytes b n hb fun l hl => hne l (by omega))
    rw [h.sp, sub_sub, ← BitVec.ofNat_add]
    exact hne (j + l) (by omega)
  stores := h.stores.trans h'.stores
  params := h'.params.trans h.params
  pendingDma := h'.pendingDma.trans h.pendingDma

/-- A part that changes no memory and leaves S alone pushes nothing. -/
theorem none {s t : State} (h : SameMemories s t) (hsp : t.cpu.s = s.cpu.s) : Pushes 0 s t :=
  ⟨hsp.trans (sub_zero _).symm, fun b n hb _ => h.plain.bytes b n hb, h.stores, h.params, h.pendingDma⟩

theorem push (v : Byte) (stamp : Nat) (s : State) : Pushes 1 s (push v stamp s) := by
  have hstore : storeAddr (stackAddr s.cpu.s) := .inl (stackAddr_lt _)
  have hwrite := memWrite_ram (stackAddr_lt s.cpu.s) v stamp s
  refine ⟨by rw [push_eq]; rfl, fun b n hb hne => ?_, ?_, ?_, ?_⟩
  · have hother : ¬sameByte (stackAddr s.cpu.s) b := by
      have hfirst := hne 0 (by decide)
      rwa [BitVec.sub_zero] at hfirst
    rw [Machine.push, memRead_withCpu, memRead_memWrite hstore hb, if_neg hother]
  · rw [push_eq]; exact .refl s
  · rw [push_eq]; rfl
  · rw [push_eq]; rfl

theorem pushWord (w : Word) (stamp : Nat) (s : State) : Pushes 2 s (pushWord w stamp s) := (push ..).trans (push ..)

theorem advance (n : Nat) (s : State) : Pushes 0 s (s.advance n) := .none (sameMemories_keptByReads.advance n s) rfl

theorem charge (n : Nat) (s : State) : Pushes 0 s (s.charge n) := .none (sameMemories_keptByReads.charge n s) rfl

theorem read (a : Word) (stamp : Nat) (s : State) : Pushes 0 s (memRead a stamp s).2 :=
  .none (sameMemories_keptByReads.read a stamp s) (congrArg Cpu.s (memRead_cpu ..))

theorem read16 (a : Word) (stamp : Nat) (s : State) : Pushes 0 s (read16 a stamp s).2 := (read ..).trans (read ..)

theorem withCpu {s : State} {c : Cpu} (h : c.s = s.cpu.s) : Pushes 0 s (s.withCpu c) :=
  .none (sameMemories_keptByReads.cpu s c) h

theorem enterInterrupt (vector : Word) (b : Bool) (ret : Word) (s : State) : Pushes 3 s (enterInterrupt vector b ret s) :=
  ((pushWord ..).trans (push ..)).trans ((withCpu (Cpu.withP_s ..)).trans ((read16 ..).trans (withCpu (Cpu.withPc_s ..))))

end Pushes

/-- Settles O34, by the pushes each of the four instructions is made of. -/
theorem pushingInstructionsFrame : Obligations.PushingInstructionsFrame := by
  unfold Obligations.PushingInstructionsFrame
  intro i s t hpushed ht
  have h : Pushes (writes i).pushed s t := by
    cases i with
    | pha | php => cases ht; exact (Pushes.advance 1 s).trans ((Pushes.push ..).trans (.charge ..))
    | jsr a =>
      cases ht
      exact (Pushes.advance 3 s).trans ((Pushes.pushWord ..).trans ((Pushes.read ..).trans
        ((Pushes.withCpu (Cpu.withPc_s ..)).trans (.charge ..))))
    | brk => cases ht; exact (Pushes.advance 1 s).trans ((Pushes.enterInterrupt ..).trans (.charge ..))
    | _ => exact absurd hpushed (Nat.lt_irrefl 0)
  exact ⟨h.bytes, h.stores, h.params, h.pendingDma⟩

end Sys2Proof.Machine
end

section
/-! The B field (spec/10_state.md section 2): each shape of instruction runs the same whatever B holds, and carries B through
or replaces it. -/

namespace Sys2Proof.Machine

/-! ## B set to a value -/

def Flags.withB (f : Flags) (b : Bool) : Flags := { f with b := b }

def Cpu.withB (c : Cpu) (b : Bool) : Cpu := c.withP (c.p.withB b)

def State.withB (s : State) (b : Bool) : State := s.withCpu (s.cpu.withB b)

/-! ## Shapes of instructions -/

section
variable (s : State) (b : Bool)

theorem readInstr_withB {f : Byte → Cpu → Cpu} (hf : ∀ m c, f m (c.withB b) = (f m c).withB b) (o : ReadOperand) :
    readInstr o f (s.withB b) = (readInstr o f s).withB b := by
  have hadvance : ((s.withB b).advance (1 + o.size)).cpu = (s.advance (1 + o.size)).cpu.withB b := rfl
  have hoperand := readOperand_withCpu (s := s) (c := s.cpu.withB b) rfl rfl o
  rw [readInstr_eq, readInstr_eq, hadvance, hf, State.withB, hoperand]
  rfl

theorem writeInstr_withB {v : Cpu → Byte} (hv : ∀ c, v (c.withB b) = v c) (m : MemMode) :
    writeInstr m v (s.withB b) = (writeInstr m v s).withB b := by
  have hadvance : ((s.withB b).advance (1 + m.size)).cpu = (s.advance (1 + m.size)).cpu.withB b := rfl
  rw [writeInstr_eq, writeInstr_eq, hadvance, hv, State.withB, locate_withCpu (s := s) (c := s.cpu.withB b) rfl rfl, memWrite_withCpu]
  rfl

theorem rmwInstr_withB {f : Byte → Flags → Byte × Flags} (hf : ∀ v p, f v (p.withB b) = ((f v p).1, (f v p).2.withB b))
    (m : RmwMode) : rmwInstr m f (s.withB b) = (rmwInstr m f s).withB b := by
  have hflags : (s.withB b).cpu.p = s.cpu.p.withB b := rfl
  rw [rmwInstr_eq, rmwInstr_eq, hflags, State.withB, locate_withCpu (s := s) (c := s.cpu.withB b) rfl rfl]
  simp only [memRead_withCpu, memWrite_withCpu, hf]
  rfl

theorem implied_withB {f : Cpu → Cpu} (hf : ∀ c, f (c.withB b) = (f c).withB b) :
    implied f (s.withB b) = (implied f s).withB b := by
  have hadvance : (s.withB b).advance 1 = (s.advance 1).withB b := rfl
  simp only [implied, hadvance]
  exact congrArg (fun c => ((s.advance 1).withCpu c).charge 2) (hf _)

theorem branchInstr_withB {cond : Flags → Bool} (hcond : ∀ f : Flags, cond (f.withB b) = cond f) (offset : Byte) :
    branchInstr offset cond (s.withB b) = (branchInstr offset cond s).withB b := by
  have hflags : (s.withB b).cpu.p = s.cpu.p.withB b := rfl
  rw [branchInstr_eq, branchInstr_eq, hflags, hcond]
  rfl

theorem enterInterrupt_withB {vector : Word} (h : 0x8000 ≤ vector.toNat) (h' : vector.toNat < 0xFFFF) (bflag : Bool)
    (ret : Word) : enterInterrupt vector bflag ret (s.withB b) = (enterInterrupt vector bflag ret s).withB b := by
  rw [enterInterrupt_eq_frame h h', enterInterrupt_eq_frame h h']
  rfl

theorem execJmpInd_withB (a : Word) : ∃ t, execJmpInd a s = .next t ∧ execJmpInd a (s.withB b) = .next (t.withB b) := by
  refine ⟨_, execJmpInd_eq a s, (execJmpInd_eq a (s.withB b)).trans ?_⟩
  rw [State.withB, read16wrap_withCpu]
  rfl

theorem execJsr_withB (a : Word) : ∃ t, execJsr a s = .next t ∧ execJsr a (s.withB b) = .next (t.withB b) := by
  have hframe : (s.withB b).withRam (callFrame (s.withB b)) = (s.withRam (callFrame s)).withCpu (s.cpu.withB b) := rfl
  refine ⟨_, execJsr_eq a s, (execJsr_eq a (s.withB b)).trans ?_⟩
  rw [hframe, memRead_withCpu]
  rfl

end

/-- Settles O37: every shape carries B through, and PLP and RTI replace it by the pulled bit. -/
theorem breakFlagIsNeverRead : Obligations.BreakFlagIsNeverRead := by
  unfold Obligations.BreakFlagIsNeverRead
  intro i s t b ht
  change ∃ b', exec i (s.withB b) = .next (t.withB b')
  have carried : ∀ {u : State} {r : Result}, exec i s = .next u → r = .next (u.withB b) → exec i (s.withB b) = r →
      ∃ b', exec i (s.withB b) = .next (t.withB b') := by
    rintro u r hu rfl hr
    obtain rfl := Host.Outcome.next.inj (hu.symm.trans ht)
    exact ⟨b, hr⟩
  have next : ∀ {u v : State}, u = v.withB b → (Host.Outcome.next u : Result) = .next (v.withB b) := congrArg _
  cases i with
  | lda o | ldx o | ldy o | and o | ora o | eor o | adc o | sbc o | cmp o | cpx o | cpy o =>
    exact carried rfl (next (readInstr_withB s b (fun _ _ => rfl) o)) rfl
  | bit m => exact carried rfl (next (readInstr_withB s b (fun _ _ => rfl) (.mem m))) rfl
  | sta m | stx m | sty m => exact carried rfl (next (writeInstr_withB s b (fun _ => rfl) m)) rfl
  | inc m | dec m | asl m | lsr m | rol m | ror m =>
    exact carried rfl (next (rmwInstr_withB s b (fun _ _ => rfl) m)) rfl
  | aslAcc | lsrAcc | rolAcc | rorAcc
  | tax | tay | txa | tya | tsx | txs | inx | iny | dex | dey | clc | sec | cli | sei | cld | sed | clv | nop =>
    exact carried rfl (next (implied_withB s b (fun _ => rfl))) rfl
  | bpl o | bmi o | bvc o | bvs o | bcc o | bcs o | bne o | beq o =>
    exact carried rfl (next (branchInstr_withB s b (fun _ => rfl) o)) rfl
  | pha => exact carried (execPha_eq s) rfl (execPha_eq (s.withB b))
  | php => exact carried (execPhp_eq s) rfl (execPhp_eq (s.withB b))
  | pla => exact carried (execPla_eq s) rfl (execPla_eq (s.withB b))
  | plp =>
    obtain rfl := Host.Outcome.next.inj ((execPlp_eq s).symm.trans ht)
    exact ⟨_, execPlp_eq (s.withB b)⟩
  | jmp a => exact carried rfl rfl rfl
  | jmpInd a =>
    obtain ⟨u, hu, hwith⟩ := execJmpInd_withB s b a
    exact carried hu rfl hwith
  | jsr a =>
    obtain ⟨u, hu, hwith⟩ := execJsr_withB s b a
    exact carried hu rfl hwith
  | rts => exact carried (execRts_eq s) rfl (execRts_eq (s.withB b))
  | rti =>
    obtain rfl := Host.Outcome.next.inj ((execRti_eq s).symm.trans ht)
    exact ⟨_, execRti_eq (s.withB b)⟩
  | brk =>
    have hadvance : (s.withB b).advance 1 = (s.advance 1).withB b := rfl
    have hentry := enterInterrupt_withB (s.advance 1) b (vector := 0xFFFE) (by decide) (by decide) true (s.cpu.pc + 2)
    exact carried rfl (next (congrArg (State.charge 7) hentry)) rfl
  | unsupported op => exact carried rfl rfl rfl

end Sys2Proof.Machine
end

section
/-! The CPU bus (spec/20_memory.md section 1, spec/50_ppu_registers.md section 9): one equation per range of addresses for reads
and writes, and the copy that a write of $4014 makes. -/

namespace Sys2Proof.Machine

/-! ## Reads (R201 to R208) -/

section
variable {a : Word} (stamp : Nat) (s : State)

theorem memRead_port (h : 0x2000 ≤ a.toNat) (h' : a.toNat < 0x4000) : memRead a stamp s = s.readPort a stamp := by
  rw [memRead, if_neg (by omega), if_pos h']

theorem memRead_apuStatus (h : a.toNat = 0x4015) : memRead a stamp s = s.apuStatus stamp := by
  rw [memRead, if_neg (by omega), if_neg (by omega), if_pos (by omega), if_pos h]

theorem memRead_ctrl1 (h : a.toNat = 0x4016) : memRead a stamp s = s.ctrlRead 1 stamp := by
  rw [memRead, if_neg (by omega), if_neg (by omega), if_pos (by omega), if_neg (by omega), if_pos h]

theorem memRead_ctrl2 (h : a.toNat = 0x4017) : memRead a stamp s = s.ctrlRead 2 stamp := by
  rw [memRead, if_neg (by omega), if_neg (by omega), if_pos (by omega), if_neg (by omega), if_neg (by omega), if_pos h]

theorem memRead_openBus (h : (0x4000 ≤ a.toNat ∧ a.toNat < 0x4015) ∨ (0x4018 ≤ a.toNat ∧ a.toNat < 0x6000)) :
    memRead a stamp s = (openBus s.params a, s) := by
  rw [memRead, if_neg (by omega), if_neg (by omega), if_pos (by omega), if_neg (by omega), if_neg (by omega),
    if_neg (by omega)]

/-- Where no address is listed, open bus is the address's high byte (R206). -/
theorem openBus_default {p : Params} (h : p.openBusAt = []) (a : Word) : openBus p a = BitVec.ofNat 8 (a.toNat / 256) := by
  rw [openBus, h, ← highByte_eq]
  rfl

/-- A read of $4015 takes the host's next byte, if it has one, and is recorded (R205; logs 2 and 17). -/
theorem apuStatus_state : (s.apuStatus stamp).2 = { s with host := { s.host with
    calls := .apuStatus stamp :: s.host.calls, apuNext := s.host.apuNext.tail } } := by
  unfold State.apuStatus
  split
  · next hnext => rw [hnext]; rfl
  · next hnext =>
    have hnone : s.host.apuNext.tail = s.host.apuNext := by rw [hnext]; rfl
    rw [hnone]
    rfl

theorem apuStatus_value {b : Byte} {rest : List Byte} (h : s.host.apuNext = b :: rest) : (s.apuStatus stamp).1 = b := by
  simp only [State.apuStatus, h]

/-- The serial bit stands below the constant $40 (R205). -/
theorem serialByte (b : Bool) :
    ((0x40 : Byte) ||| (BitVec.ofBool b).setWidth 8).toNat / 2 = 0x20 ∧
      ((0x40 : Byte) ||| (BitVec.ofBool b).setWidth 8).getLsbD 0 = b := by
  revert b; decide

theorem nextBit_given {b : Bool} {rest given : List Bool} (h : given = b :: rest) (n stamp index : Nat) :
    nextBit given n stamp index = b := by
  rw [h]; rfl

end

/-- Settles O42, by the equation of each range of addresses. -/
theorem readsAreRouted : Obligations.ReadsAreRouted := by
  unfold Obligations.ReadsAreRouted
  intro a stamp s
  refine ⟨fun h => memRead_ram h stamp s, fun h h' => memRead_port stamp s h h', fun h h' => memRead_wram h h' stamp s,
    fun h => ⟨memRead_prg h stamp s, fun hinv => ?page⟩, fun h hdefault => ?openBus, fun h => ?apu, fun h => ?ctrl1,
    fun h => ?ctrl2⟩
  case page =>
    obtain ⟨hloaded, hwindows, -⟩ := hinv
    have hpage := s.dev.cart.mapper.prgPage_lt hloaded ((a.toNat - 0x8000) / 0x2000)
    rwa [← hwindows] at hpage
  case openBus => rw [memRead_openBus stamp s h, openBus_default hdefault]
  case apu =>
    rw [memRead_apuStatus stamp s h]
    exact ⟨apuStatus_state stamp s, fun b rest hnext => apuStatus_value stamp s hnext⟩
  case ctrl1 =>
    rw [memRead_ctrl1 stamp s h]
    exact ⟨rfl, (serialByte _).1, fun b rest hnext => (serialByte _).2.trans (nextBit_given hnext ..)⟩
  case ctrl2 =>
    rw [memRead_ctrl2 stamp s h]
    exact ⟨rfl, (serialByte _).1, fun b rest hnext => (serialByte _).2.trans (nextBit_given hnext ..)⟩

/-! ## Writes (R201 to R209) -/

section
variable {a : Word} (v : Byte) (stamp : Nat) (s : State)

theorem memWrite_port (h : 0x2000 ≤ a.toNat) (h' : a.toNat < 0x4000) : memWrite a v stamp s = s.writePort a v stamp := by
  rw [memWrite, if_neg (by omega), if_pos h']

theorem memWrite_strobe (h : a.toNat = 0x4016) : memWrite a v stamp s = s.ctrlStrobe v stamp := by
  rw [memWrite, if_neg (by omega), if_neg (by omega), if_pos (by omega), if_neg (by omega), if_pos h]

theorem memWrite_audio (h : 0x4000 ≤ a.toNat) (h' : a.toNat < 0x4018) (hdma : a.toNat ≠ 0x4014) (hstrobe : a.toNat ≠ 0x4016) :
    memWrite a v stamp s = s.audioWrite a v stamp := by
  rw [memWrite, if_neg (by omega), if_neg (by omega), if_pos (by omega), if_neg hdma, if_neg hstrobe, if_pos h']

theorem memWrite_ignored (h : 0x4018 ≤ a.toNat) (h' : a.toNat < 0x6000) : memWrite a v stamp s = s := by
  rw [memWrite, if_neg (by omega), if_neg (by omega), if_pos h', if_neg (by omega), if_neg (by omega), if_neg (by omega)]

theorem memWrite_mapper (h : 0x8000 ≤ a.toNat) : memWrite a v stamp s = s.writeMapper a v stamp := by
  rw [memWrite, if_neg (by omega), if_neg (by omega), if_neg (by omega), if_neg (by omega)]

end

/-- Settles O43, by the equation of each range of addresses; a mapper write comes after the dots before it. -/
theorem writesAreRouted : Obligations.WritesAreRouted := by
  unfold Obligations.WritesAreRouted
  intro a v stamp s
  refine ⟨fun ha b n hb => memRead_memWrite ha hb v stamp n s, fun h h' => memWrite_port v stamp s h h',
    fun h h' => memWrite_ignored v stamp s h h', fun h h' hdma => ⟨_, ?call, rfl⟩, fun h => ?mapper⟩
  case call =>
    by_cases hstrobe : a.toNat = 0x4016
    · rw [memWrite_strobe v stamp s hstrobe, if_pos hstrobe]; rfl
    · rw [memWrite_audio v stamp s h h' hdma hstrobe, if_neg hstrobe]; rfl
  case mapper =>
    have hdots := devAt_keeps s stamp
    rw [memWrite_mapper v stamp s h]
    exact ⟨rfl, rfl, hdots.prg, hdots.chr, hdots.wram, hdots.ciram, hdots.palette, hdots.oam, rfl, rfl⟩

/-! ## OAM DMA (R850) -/

theorem plainAddr_page {page : Byte} (h : page.toNat < 0x20 ∨ 0x60 ≤ page.toNat) (i : Byte) : plainAddr (joinBytes page i) := by
  have hi := i.isLt
  have haddr := joinBytes_toNat page i
  rcases h with h | h
  · exact .inl (by omega)
  · exact .inr (by omega)

/-- A write of OAM changes one byte of it and no plain byte. -/
theorem writeOam_samePlain (s : State) (i v : Byte) : SamePlain s (s.withDev (s.dev.writeOam i v)) := ⟨rfl, rfl, rfl, rfl⟩

theorem read_writeOam (d : Devices) (i j v : Byte) :
    (d.writeOam i v).ppu.mem.oam.read j.toNat = if i = j then v else d.ppu.mem.oam.read j.toNat := by
  rw [Devices.writeOam, Memory.read_write]
  simp only [BitVec.toNat_inj]

/-- The last `fuel` turns of the loop copy the last `fuel` bytes of a plain page, and do nothing else. -/
theorem dmaCopy_plain {page : Byte} (hpage : page.toNat < 0x20 ∨ 0x60 ≤ page.toNat) (stamp fuel : Nat) (hfuel : fuel ≤ 256)
    (s : State) :
    ∃ d, dmaCopy page stamp fuel s = s.withDev d ∧ d.ppu.regs = s.dev.ppu.regs ∧
      ∀ i : Byte, d.ppu.mem.oam.read (s.dev.ppu.regs.oamaddr + i).toNat =
        if 256 - fuel ≤ i.toNat then (memRead (joinBytes page i) stamp s).1
        else s.dev.ppu.mem.oam.read (s.dev.ppu.regs.oamaddr + i).toNat := by
  induction fuel generalizing s with
  | zero => exact ⟨s.dev, rfl, rfl, fun i => (if_neg (by have := i.isLt; omega)).symm⟩
  | succ fuel ih =>
    rw [dmaCopy_succ]
    extract_lets first r
    have hstate : r.2 = s := memRead_plain_state (plainAddr_page hpage first) stamp s
    have hfirst : first.toNat = 255 - fuel := by rw [BitVec.toNat_ofNat]; omega
    rw [hstate]
    obtain ⟨d, hd, hregs, hoam⟩ := ih (by omega) (s.withDev (s.dev.writeOam (s.dev.ppu.regs.oamaddr + first) r.1))
    refine ⟨d, hd, hregs, fun i => (hoam i).trans ?_⟩
    rw [(writeOam_samePlain s _ r.1).bytes _ stamp (plainAddr_page hpage i)]
    by_cases hi : 256 - fuel ≤ i.toNat
    · rw [if_pos hi, if_pos (by omega)]
    · rw [if_neg hi]
      refine (read_writeOam s.dev (s.dev.ppu.regs.oamaddr + first) (s.dev.ppu.regs.oamaddr + i) r.1).trans ?_
      by_cases hcopied : first = i
      · rw [if_pos (congrArg _ hcopied), if_pos (by rw [← hcopied]; omega), ← hcopied]
      · have hne : first.toNat ≠ i.toNat := fun h => hcopied (BitVec.eq_of_toNat_eq h)
        rw [if_neg fun h => hcopied (add_left_cancel h), if_neg (by omega)]

/-- Settles O44: all 256 turns of the loop, after the dots before the write, which change no plain byte and not the state but
for the devices. -/
theorem oamDmaCopiesPage : Obligations.OamDmaCopiesPage := by
  unfold Obligations.OamDmaCopiesPage
  intro page stamp s hpage t start
  have hdots := devAt_keeps s stamp
  have hsync : SamePlain s (s.sync stamp) := ⟨rfl, hdots.wram, hdots.prg, hdots.windows⟩
  obtain ⟨d, hd, hregs, hoam⟩ := dmaCopy_plain hpage stamp 256 (Nat.le_refl 256) (s.sync stamp)
  have ht : t = ((s.sync stamp).withDev d).withPendingDma (s.pendingDma + 1) := by
    show oamDma page stamp s = _
    rw [oamDma, hd]
    rfl
  rw [ht]
  refine ⟨fun i => ?_, congrArg PpuRegs.oamaddr hregs, rfl, rfl, rfl, rfl⟩
  rw [← hsync.bytes _ stamp (plainAddr_page hpage i)]
  exact (hoam i).trans (if_pos (Nat.zero_le _))

end Sys2Proof.Machine
end

section
/-! The PPU's ports (spec/50_ppu_registers.md): the fields of t, x and v as arithmetic, bit by bit, and the equation of each
port. -/

namespace Sys2Proof.Machine

/-! ## Bits and numbers -/

/-- The number of a concatenation. -/
theorem toNat_append_eq {m n : Nat} (x : BitVec m) (y : BitVec n) : (x ++ y).toNat = x.toNat * 2 ^ n + y.toNat := by
  rw [BitVec.toNat_append, ← Nat.shiftLeft_add_eq_or_of_lt y.isLt, Nat.shiftLeft_eq]

/-- A word that is a concatenation of fields is the number of that concatenation. -/
theorem eq_ofNat_of_fields {w n m : Nat} {x : BitVec w} (y : BitVec m) (h : ∀ i, i < w → x.getLsbD i = y.getLsbD i)
    (hy : y.toNat = n) : x = BitVec.ofNat w n := by
  subst hy
  rw [BitVec.ofNat_toNat]
  exact BitVec.eq_of_getLsbD_eq fun i hi => by rw [h i hi, BitVec.getLsbD_setWidth, decide_eq_true hi, Bool.true_and]

theorem setWidth_eq_ofNat {w : Nat} (v : Nat) (x : BitVec w) : x.setWidth v = BitVec.ofNat v (x.toNat % 2 ^ v) :=
  BitVec.eq_of_toNat_eq (by simp)

/-! ## The status port (R813) -/

/-- The status byte on numbers. -/
theorem status_eq (r : PpuRegs) :
    r.status = BitVec.ofNat 8 (128 * flagBit r.vblank + 64 * flagBit r.sprite0Hit + 32 * flagBit r.spriteOverflow +
      r.ioLatch.toNat % 32) := by
  have low : r.ioLatch.extractLsb' 0 5 = BitVec.ofNat 5 (r.ioLatch.toNat % 32) := BitVec.eq_of_toNat_eq (by simp)
  have bytes : ∀ (a b c : Bool) (l : Fin 32), BitVec.ofBool a ++ BitVec.ofBool b ++ BitVec.ofBool c ++ BitVec.ofNat 5 l =
      BitVec.ofNat 8 (128 * flagBit a + 64 * flagBit b + 32 * flagBit c + l) := by decide
  rw [PpuRegs.status, low]
  exact bytes _ _ _ ⟨_, Nat.mod_lt _ (by decide)⟩

/-- With vblank clear, bit 7 of the status is 0. -/
theorem status_lt {r : PpuRegs} (h : r.vblank = false) : r.status.toNat / 128 = 0 := by
  have hhit := flagBit_le r.sprite0Hit
  have hoverflow := flagBit_le r.spriteOverflow
  rw [status_eq, h, BitVec.toNat_ofNat, flagBit]
  simp only [Bool.false_eq_true, if_false]
  omega

/-- Settles O45: the read gives the status and clears vblank, so a second one finds it clear. -/
theorem statusReadClearsVblankAndLatch : Obligations.StatusReadClearsVblankAndLatch := by
  unfold Obligations.StatusReadClearsVblankAndLatch
  intro p now d r value
  have hread : portRead p now 2 d = (value, d.withRegs { r with vblank := false, w := false, ioLatch := value }) := by
    rw [show value = d.ppu.regs.status from (status_eq _).symm]
    rfl
  refine ⟨hread, ?_⟩
  rw [hread]
  exact status_lt (r := { r with vblank := false, w := false, ioLatch := value }) rfl

/-! ## The fields of t -/

section
variable (t : VramAddr) (v : Byte)

/-- $2000: the low bits are t's nametable. -/
theorem nametable_write : (t &&& 0x73FF) ||| ((v.setWidth 15 &&& 3) <<< 10) =
    BitVec.ofNat 15 (t.toNat / 4096 * 4096 + v.toNat % 4 * 1024 + t.toNat % 1024) := by
  have ht := t.isLt
  refine eq_ofNat_of_fields (t.extractLsb' 12 3 ++ v.extractLsb' 0 2 ++ t.extractLsb' 0 10) (fun i hi => ?_) ?_
  · simp only [BitVec.getLsbD_append]
    interval_cases i <;> simp
  · simp only [toNat_append_eq, BitVec.extractLsb'_toNat, Nat.shiftRight_eq_div_pow]
    omega

/-- $2005, first write: the upper five bits are coarse X. -/
theorem coarseX_write : (t &&& 0x7FE0) ||| (v.setWidth 15 >>> 3) = BitVec.ofNat 15 (t.toNat / 32 * 32 + v.toNat / 8) := by
  have ht := t.isLt
  have hv := v.isLt
  refine eq_ofNat_of_fields (t.extractLsb' 5 10 ++ v.extractLsb' 3 5) (fun i hi => ?_) ?_
  · simp only [BitVec.getLsbD_append]
    interval_cases i <;> simp
  · simp only [toNat_append_eq, BitVec.extractLsb'_toNat, Nat.shiftRight_eq_div_pow]
    omega

/-- $2005, second write: fine Y and coarse Y. -/
theorem scrollY_write : (t &&& 0x0C1F) ||| ((v.setWidth 15 &&& 7) <<< 12) ||| ((v.setWidth 15 >>> 3) <<< 5) =
    BitVec.ofNat 15 (v.toNat % 8 * 4096 + t.toNat / 1024 % 4 * 1024 + v.toNat / 8 * 32 + t.toNat % 32) := by
  have hv := v.isLt
  refine eq_ofNat_of_fields (v.extractLsb' 0 3 ++ t.extractLsb' 10 2 ++ v.extractLsb' 3 5 ++ t.extractLsb' 0 5)
    (fun i hi => ?_) ?_
  · simp only [BitVec.getLsbD_append]
    interval_cases i <;> simp
  · simp only [toNat_append_eq, BitVec.extractLsb'_toNat, Nat.shiftRight_eq_div_pow]
    omega

/-- $2006, first write: the low six bits are the address's high byte, below a clear bit 14. -/
theorem addrHigh_write : (t &&& 0x00FF) ||| ((v.setWidth 15 &&& 0x3F) <<< 8) =
    BitVec.ofNat 15 (v.toNat % 64 * 256 + t.toNat % 256) := by
  refine eq_ofNat_of_fields (v.extractLsb' 0 6 ++ t.extractLsb' 0 8) (fun i hi => ?_) ?_
  · simp only [BitVec.getLsbD_append]
    interval_cases i <;> simp
  · simp only [toNat_append_eq, BitVec.extractLsb'_toNat, Nat.shiftRight_eq_div_pow]
    omega

/-- $2006, second write: the address's low byte. -/
theorem addrLow_write : (t &&& 0x7F00) ||| v.setWidth 15 = BitVec.ofNat 15 (t.toNat / 256 * 256 + v.toNat) := by
  have ht := t.isLt
  refine eq_ofNat_of_fields (t.extractLsb' 8 7 ++ v) (fun i hi => ?_) ?_
  · simp only [BitVec.getLsbD_append]
    interval_cases i <;> simp
  · simp only [toNat_append_eq, BitVec.extractLsb'_toNat, Nat.shiftRight_eq_div_pow]
    omega

end

/-! ## Scroll and address (R815, R816) -/

/-- The address on the bus, on numbers. -/
theorem busAddr_eq (r : PpuRegs) : r.busAddr = BitVec.ofNat 14 (r.v.toNat % 0x4000) := setWidth_eq_ofNat 14 r.v

/-- Settles O46: the two writes of each port, with t's fields as arithmetic. -/
theorem scrollAndAddressWrites : Obligations.ScrollAndAddressWrites := by
  unfold Obligations.ScrollAndAddressWrites
  intro p now v d r n t
  refine ⟨fun hw => ⟨?_, ?_⟩, fun hw => ⟨?_, ?_⟩⟩
  · rw [show portWrite p now 5 v d = writeScroll v (d.withRegs r) from rfl, writeScroll,
      if_neg (by rw [show (d.withRegs r).ppu.regs.w = false from hw]; decide)]
    rw [coarseX_write, setWidth_eq_ofNat 3 v]
    rfl
  · rw [show portWrite p now 6 v d = writeAddr p now v (d.withRegs r) from rfl, writeAddr,
      if_neg (by rw [show (d.withRegs r).ppu.regs.w = false from hw]; decide)]
    rw [addrHigh_write]
    rfl
  · rw [show portWrite p now 5 v d = writeScroll v (d.withRegs r) from rfl, writeScroll,
      if_pos (show (d.withRegs r).ppu.regs.w = true from hw)]
    rw [scrollY_write]
    rfl
  · rw [show portWrite p now 6 v d = writeAddr p now v (d.withRegs r) from rfl, writeAddr,
      if_pos (show (d.withRegs r).ppu.regs.w = true from hw)]
    intro full
    rw [addrLow_write]
    dsimp only
    rw [busAddr_eq]
    rfl

/-! ## The data port (R817) -/

/-- The step of v, on numbers. -/
theorem nextV_eq (r : PpuRegs) :
    r.nextV = BitVec.ofNat 15 ((r.v.toNat + if r.ctrl.getLsbD 2 then 32 else 1) % 0x8000) := by
  refine BitVec.eq_of_toNat_eq ?_
  rw [PpuRegs.nextV, BitVec.toNat_add, BitVec.toNat_ofNat, Nat.mod_mod]
  split <;> rfl

/-- A store through the data port changes no register. -/
theorem ppuWrite_regs (d : Devices) (a : PpuAddr) (v : Byte) : (d.ppuWrite a v).ppu.regs = d.ppu.regs := by
  rw [Devices.ppuWrite]
  split
  · rfl
  · split <;> rfl

/-- The top two bits of the latch above a palette entry. -/
theorem paletteByte_eq (l : Byte) (c : BitVec 6) :
    (l &&& 0xC0) ||| c.setWidth 8 = BitVec.ofNat 8 (l.toNat / 64 * 64 + c.toNat) := by
  have hl := l.isLt
  refine eq_ofNat_of_fields (l.extractLsb' 6 2 ++ c) (fun i hi => ?_) ?_
  · simp only [BitVec.getLsbD_append]
    interval_cases i <;> simp
  · simp only [toNat_append_eq, BitVec.extractLsb'_toNat, Nat.shiftRight_eq_div_pow]
    omega

/-- Settles O47: which bytes a read gives and keeps, and the step of v that ends every access. -/
theorem dataPortIsBuffered : Obligations.DataPortIsBuffered := by
  unfold Obligations.DataPortIsBuffered
  intro p now v d a inc v' a' seen moved latched filled
  have hstep : ∀ e : Devices, e.ppu.regs.v = d.ppu.regs.v → e.ppu.regs.ctrl = d.ppu.regs.ctrl → stepV p now e = moved e := by
    intro e hv hctrl
    have hnext : e.ppu.regs.nextV = v' := by rw [nextV_eq, hv, hctrl]
    rw [stepV]
    dsimp only
    rw [busAddr_eq, hnext]
  have hread : ∀ value buffer, dataPortBytes seen = (value, buffer) →
      portRead p now 7 d = (value, moved (latched (filled seen buffer) value)) := by
    intro value buffer hbytes
    have hport : portRead p now 7 d = ((dataPortBytes seen).1, stepV p now (seen.withRegs
        { seen.ppu.regs with readBuffer := (dataPortBytes seen).2, ioLatch := (dataPortBytes seen).1 })) := by
      rw [show seen = d.observe p d.ppu.regs.busAddr now from congrArg (d.observe p · now) (busAddr_eq _).symm]
      rfl
    rw [hport, hbytes]
    exact congrArg (Prod.mk value) (hstep _ rfl rfl)
  have hbus : seen.ppu.regs.busAddr = a := busAddr_eq _
  refine ⟨fun ha => hread _ _ ?_, fun ha => hread _ _ ?_, ?_⟩
  · rw [dataPortBytes, hbus, if_pos ha]
    rfl
  · rw [dataPortBytes, hbus, if_neg (by omega), paletteByte_eq]
    rfl
  · have hregs := ppuWrite_regs ((latched d v).observe p a now) a v
    rw [← hstep _ ((congrArg PpuRegs.v hregs).trans rfl) ((congrArg PpuRegs.ctrl hregs).trans rfl), show a = (latched d v).ppu.regs.busAddr from (busAddr_eq _).symm]
    rfl

/-! ## The other ports -/

/-- The third byte of each OAM entry. -/
theorem and_three_eq_two (a : Byte) : a &&& 3 = 2 ↔ a.toNat % 4 = 2 := by
  have hnum : (a &&& 3).toNat = a.toNat % 4 := Nat.and_two_pow_sub_one_eq_mod a.toNat 2
  rw [← BitVec.toNat_inj, hnum]
  rfl

/-- Settles O48: $2000 by the field of t, $2004's mask by the address modulo 4, the others as they stand. -/
theorem controlAndOamPorts : Obligations.ControlAndOamPorts := by
  unfold Obligations.ControlAndOamPorts
  intro p now v d r raw masked late
  refine ⟨?_, rfl, rfl, rfl, rfl, ?_, ?_⟩
  · intro t'
    rw [show t' = (r.t &&& 0x73FF) ||| ((v.setWidth 15 &&& 3) <<< 10) from (nametable_write r.t v).symm]
    rfl
  · have hmask : oamPortByte d = masked := if_congr (and_three_eq_two _) rfl rfl
    rw [← hmask]
    rfl
  · rintro port (rfl | rfl | rfl | rfl | rfl) <;> rfl

end Sys2Proof.Machine
end

section
/-! The PPU's time (spec/51_ppu_timing_rendering.md section 1): the position as an index into the frame, which every dot raises
by one; and what a dot leaves unchanged while rendering is disabled. -/

namespace Sys2Proof.Machine

/-! ## The position as an index into the frame -/

/-- The position is dot `i` of the frame's 341 * 262. -/
structure PpuTime.At (t : PpuTime) (i : Nat) (odd : Bool) : Prop where
  scanline : t.scanline = i / 341
  dot : t.dot = i % 341
  oddFrame : t.oddFrame = odd

/-- A dot keeps the bits that enable rendering. -/
theorem DotKeeps.rendering {d e : Devices} (h : DotKeeps d e) : e.ppu.regs.rendering = d.ppu.regs.rendering := by
  rw [PpuRegs.rendering, PpuRegs.rendering, h.mask]

theorem ppuDot_time (p : Params) (d : Devices) : (ppuDot p d).ppu.time =
    (dotWork p d.ppu.time.scanline d.ppu.time.dot d).ppu.time.advance d.ppu.regs.rendering := by
  rw [← (dotWork_keeps p d.ppu.time.scanline d.ppu.time.dot d).rendering]
  rfl

theorem PpuTime.At.dotWork {p : Params} {line dot i : Nat} {odd : Bool} {d : Devices} (h : d.ppu.time.At i odd) :
    (Machine.dotWork p line dot d).ppu.time.At i odd :=
  have same := dotWork_time p line dot d
  ⟨same.scanline.trans h.scanline, same.dot.trans h.dot, same.oddFrame.trans h.oddFrame⟩

section
variable {p : Params} {d : Devices} {i : Nat} {odd : Bool}

/-- Within the frame a dot moves on by one, but at dot 339 of an odd frame's pre-render line while rendering. -/
theorem PpuTime.At.advance {t : PpuTime} {r : Bool} (h : t.At i odd) (hi : i < 89341) (hskip : (r && odd) = true → i ≠ 89340) :
    (t.advance r).At (i + 1) odd := by
  obtain ⟨hline, hdot, hodd⟩ := h
  have noskip : (t.scanline == 261 && t.dot == 339 && t.oddFrame && r) = false := by
    refine Bool.eq_false_iff.mpr fun hs => ?_
    simp only [Bool.and_eq_true, beq_iff_eq] at hs
    obtain ⟨⟨⟨hs, hd⟩, ho⟩, hr⟩ := hs
    exact hskip (by rw [hr, ← hodd, ho]; rfl) (by omega)
  rw [PpuTime.advance]
  simp only [noskip, Bool.false_eq_true, or_false]
  split
  · rw [if_neg (by omega)]
    exact ⟨by simp only; omega, by simp only; omega, hodd⟩
  · exact ⟨by simp only; omega, by simp only; omega, hodd⟩

/-- The frame's last dot is followed by its first, in a frame of the other parity. -/
theorem PpuTime.At.wrap {t : PpuTime} {r : Bool} (h : t.At 89341 odd) : (t.advance r).At 0 (!odd) := by
  obtain ⟨hline, hdot, hodd⟩ := h
  rw [PpuTime.advance, if_pos (.inl (by omega)), if_pos (by omega)]
  exact ⟨rfl, rfl, congrArg (!·) hodd⟩

/-- An odd frame while rendering is one dot shorter. -/
theorem PpuTime.At.skip {t : PpuTime} (h : t.At 89340 true) : (t.advance true).At 0 false := by
  obtain ⟨hline, hdot, hodd⟩ := h
  rw [PpuTime.advance, hline, hdot, hodd]
  exact ⟨rfl, rfl, rfl⟩

theorem ppuDot_at (h : d.ppu.time.At i odd) (hi : i < 89341) (hskip : (d.ppu.regs.rendering && odd) = true → i ≠ 89340) :
    (ppuDot p d).ppu.time.At (i + 1) odd := by
  rw [ppuDot_time]
  exact h.dotWork.advance hi hskip

theorem ppuDot_wrap (h : d.ppu.time.At 89341 odd) : (ppuDot p d).ppu.time.At 0 (!odd) := by
  rw [ppuDot_time]
  exact h.dotWork.wrap

theorem ppuDot_skip (h : d.ppu.time.At 89340 true) (hr : d.ppu.regs.rendering = true) :
    (ppuDot p d).ppu.time.At 0 false := by
  rw [ppuDot_time, hr]
  exact h.dotWork.skip

/-- `n` dots within the frame. -/
theorem runDots_at (n : Nat) (h : d.ppu.time.At i odd) (hn : i + n ≤ 89341)
    (hskip : (d.ppu.regs.rendering && odd) = true → i + n ≤ 89340) : (runDots p n d).ppu.time.At (i + n) odd := by
  induction n generalizing d i with
  | zero => exact h
  | succ n ih =>
    have next := ppuDot_at (p := p) h (by omega) (fun hr => by have := hskip hr; omega)
    have rest := ih next (by omega) (fun hr => by rw [(ppuDot_keeps p d).rendering] at hr; have := hskip hr; omega)
    rwa [show i + 1 + n = i + (n + 1) by omega] at rest

/-- From dot `i` of a frame with rendering disabled, any number of dots. -/
theorem runDots_position (n : Nat) (hr : d.ppu.regs.rendering = false) (hi : i < 89342) (h : d.ppu.time.At i odd) :
    (runDots p n d).ppu.time.scanline = (i + n) / 341 % 262 ∧ (runDots p n d).ppu.time.dot = (i + n) % 341 := by
  induction n generalizing d i odd with
  | zero =>
    rw [runDots, h.scanline, h.dot]
    omega
  | succ n ih =>
    have hr' : (ppuDot p d).ppu.regs.rendering = false := (ppuDot_keeps p d).rendering.trans hr
    rw [runDots]
    by_cases hlast : i < 89341
    · have := ih hr' (by omega) (ppuDot_at h hlast (by rw [hr]; simp))
      rwa [show i + 1 + n = i + (n + 1) by omega] at this
    · obtain rfl : i = 89341 := by omega
      have := ih hr' (by omega) (ppuDot_wrap h)
      omega

end

/-- Settles O49: the position is the index, and every dot adds one to the dot clock. -/
theorem positionWithRenderingOff : Obligations.PositionWithRenderingOff := by
  unfold Obligations.PositionWithRenderingOff
  refine ⟨fun c axy fill p h => rfl, fun d => rfl, fun p d n hr hline hdot hclock => ?_⟩
  have start : d.ppu.time.At 0 d.ppu.time.oddFrame := ⟨hline, hdot, rfl⟩
  obtain ⟨line, dot⟩ := runDots_position (p := p) n hr (by decide) start
  rw [Nat.zero_add] at line dot
  exact ⟨line, dot, by rw [runDots_dotClock, hclock, Nat.zero_add]⟩

/-- Settles O50: up to the frame's last dot, over it, and on to dot (240, 0) of the next frame. -/
theorem frameLength : Obligations.FrameLength := by
  unfold Obligations.FrameLength
  intro p d hline hdot n
  have start : d.ppu.time.At 81840 d.ppu.time.oddFrame := ⟨hline, hdot, rfl⟩
  suffices hend : (runDots p n d).ppu.time.At 81840 (!d.ppu.time.oddFrame) from
    ⟨hend.scanline, hend.dot, hend.oddFrame⟩
  have fromFirst : ∀ (e : Devices) (odd : Bool), e.ppu.time.At 0 odd → (runDots p 81840 e).ppu.time.At 81840 odd :=
    fun e odd h => runDots_at 81840 h (by decide) (fun _ => by decide)
  cases hshort : d.ppu.regs.rendering && d.ppu.time.oddFrame with
  | true =>
    have ⟨hr, hodd⟩ := Bool.and_eq_true_iff.mp hshort
    rw [show n = 7500 + 1 + 81840 from if_pos hshort, runDots_add, runDots_add, hodd]
    rw [hodd] at start
    refine fromFirst _ false (ppuDot_skip (runDots_at 7500 start (by decide) fun _ => by decide) ?_)
    rw [(runDots_keeps p 7500 d).rendering, hr]
  | false =>
    rw [show n = 7501 + 1 + 81840 from if_neg (by rw [hshort]; decide), runDots_add, runDots_add]
    refine fromFirst _ _ (ppuDot_wrap (runDots_at 7501 start (by decide) fun h => ?_))
    rw [hshort] at h
    exact absurd h (by decide)

/-! ## Dots with rendering disabled -/

/-- What a dot with rendering disabled leaves to its event: the cartridge, the registers, the position and the NMI latch. -/
def Devices.control (d : Devices) : Cartridge × PpuRegs × PpuTime × Bool := (d.cart, d.ppu.regs, d.ppu.time, d.nmiPending)

theorem dotPixel_control (line dot : Nat) {d : Devices} (h : d.ppu.regs.rendering = false) :
    (dotPixel line dot d).control = d.control := by
  rw [dotPixel, outputPixel, h]
  split <;> rfl

/-- With rendering disabled a dot is its event, its pixel and an emptied sprite count. -/
theorem dotWork_control (p : Params) (line dot : Nat) {d : Devices} (h : d.ppu.regs.rendering = false) :
    (dotWork p line dot d).control = (dotEvents line dot d).control := by
  have hevents : (dotEvents line dot d).ppu.regs.rendering = false := (dotEvents_keeps line dot d).rendering.trans h
  rw [dotWork]
  simp only [hevents, Bool.false_and, Bool.false_eq_true, if_false, apply_ite Devices.control]
  rw [show ∀ e : Devices, (e.withSpr { e.ppu.spr with lineCount := 0 }).control = e.control from fun _ => rfl, ite_self,
    dotPixel_control line dot hevents]

/-- An event changes neither v nor the cartridge. -/
theorem dotEvents_v (line dot : Nat) (d : Devices) :
    (dotEvents line dot d).ppu.regs.v = d.ppu.regs.v ∧ (dotEvents line dot d).cart = d.cart := by
  rw [dotEvents]
  split
  · exact ⟨rfl, rfl⟩
  · split
    · exact ⟨rfl, rfl⟩
    · split <;> exact ⟨rfl, rfl⟩

theorem runDots_v_mapper (p : Params) (n : Nat) {d : Devices} (h : d.ppu.regs.rendering = false) :
    (runDots p n d).ppu.regs.v = d.ppu.regs.v ∧ (runDots p n d).cart.mapper = d.cart.mapper := by
  induction n generalizing d with
  | zero => exact ⟨rfl, rfl⟩
  | succ n ih =>
    obtain ⟨hv, hmapper⟩ := ih (d := ppuDot p d) ((ppuDot_keeps p d).rendering.trans h)
    have hcontrol := dotWork_control p d.ppu.time.scanline d.ppu.time.dot h
    obtain ⟨ev, ecart⟩ := dotEvents_v d.ppu.time.scanline d.ppu.time.dot d
    refine ⟨hv.trans ?_, hmapper.trans ?_⟩
    · exact (congrArg (fun c => c.2.1.v) hcontrol).trans ev
    · exact (congrArg (fun c => c.1.mapper) hcontrol).trans (congrArg Cartridge.mapper ecart)

/-- Settles O52, from what no dot changes and what an idle one does not. -/
theorem dotsKeepMemoriesAndCpuRegisters : Obligations.DotsKeepMemoriesAndCpuRegisters := by
  unfold Obligations.DotsKeepMemoriesAndCpuRegisters
  intro p n d e
  have k : DotKeeps d e := runDots_keeps p n d
  exact ⟨k.header, k.prg, k.chr, k.wram, k.windows, k.ciram, k.palette, k.oam, k.ctrl, k.mask, k.t, k.x, k.w, k.readBuffer,
    k.ioLatch, runDots_v_mapper p n⟩

end Sys2Proof.Machine
end

section
/-! The reset sequence (spec/70_reset_and_hazards.md section 1): it runs the dots of seven cycles, all on the first line and
with rendering disabled, so that the PPU's registers keep their reset values. -/

namespace Sys2Proof.Machine

/-- On the visible lines no event happens. -/
theorem dotEvents_visible {line : Nat} (dot : Nat) (h : line < 240) (d : Devices) : dotEvents line dot d = d := by
  rw [dotEvents, if_neg (by omega), if_neg (by omega), if_neg (by omega)]

/-- Dots of one visible line with rendering disabled only move the position. -/
theorem runDots_control_visible (p : Params) (n : Nat) {d : Devices} (hr : d.ppu.regs.rendering = false)
    (hline : d.ppu.time.scanline < 240) (hn : d.ppu.time.dot + n < 341) :
    (runDots p n d).control = (d.cart, d.ppu.regs,
      { d.ppu.time with dot := d.ppu.time.dot + n, dotClock := d.ppu.time.dotClock + n }, d.nmiPending) := by
  induction n generalizing d with
  | zero => rfl
  | succ n ih =>
    have hwork : (dotWork p d.ppu.time.scanline d.ppu.time.dot d).control = d.control := by
      rw [dotWork_control p _ _ hr, dotEvents_visible _ hline]
    have htime : (ppuDot p d).ppu.time =
        { d.ppu.time with dot := d.ppu.time.dot + 1, dotClock := d.ppu.time.dotClock + 1 } := by
      rw [ppuDot_time, show (dotWork p _ _ d).ppu.time = d.ppu.time from congrArg (·.2.2.1) hwork, PpuTime.advance, hr,
        Bool.and_false, if_neg (by simp; omega)]
    have hcart : (ppuDot p d).cart = d.cart := congrArg (·.1) hwork
    have hregs : (ppuDot p d).ppu.regs = d.ppu.regs := congrArg (·.2.1) hwork
    have hnmi : (ppuDot p d).nmiPending = d.nmiPending := congrArg (·.2.2.2) hwork
    rw [runDots, ih (by rw [hregs, hr]) (by rw [htime]; exact hline) (by rw [htime]; simp only; omega), hcart, hregs, hnmi,
      htime]
    simp only [Nat.add_assoc, Nat.add_comm 1 n]

/-- The reset sequence, with the boundary's dots written out. -/
theorem resetSequence_eq (s : State) :
    resetSequence s = { s with
      cpu := { s.cpu with
        s := s.cpu.s - 3
        p := { s.cpu.p with i := true }
        pc := joinBytes (s.dev.cart.reset.readPrg 0xFFFD) (s.dev.cart.reset.readPrg 0xFFFC) }
      cycles := 7
      pendingDma := 0
      dev := runDots s.params (21 + s.params.ppuPhase.val) s.dev.reset } := by
  rw [resetSequence]
  extract_lets s1 s2
  rw [read16_prg (by decide) (by decide)]
  rfl

/-- Settles O60: the sequence's own effects, and the dots of its seven cycles, which move the position only. -/
theorem resetSequenceEffects : Obligations.ResetSequenceEffects := by
  unfold Obligations.ResetSequenceEffects
  intro s t cart
  have hphase := s.params.ppuPhase.isLt
  rw [← joinBytes_eq, show t = _ from resetSequence_eq s]
  have kept := runDots_keeps s.params (21 + s.params.ppuPhase.val) s.dev.reset
  have control := runDots_control_visible s.params (21 + s.params.ppuPhase.val) (d := s.dev.reset)
    (show PpuRegs.atReset.rendering = false by decide) (show 0 < 240 by decide) (show 0 + _ < 341 by omega)
  have hcart : (runDots s.params (21 + s.params.ppuPhase.val) s.dev.reset).cart = s.dev.cart.reset := congrArg (·.1) control
  have hregs : (runDots s.params (21 + s.params.ppuPhase.val) s.dev.reset).ppu.regs = PpuRegs.atReset :=
    congrArg (·.2.1) control
  have htime := congrArg (·.2.2.1) control
  have hnmi : (runDots s.params (21 + s.params.ppuPhase.val) s.dev.reset).nmiPending = false := congrArg (·.2.2.2) control
  refine ⟨rfl, rfl, rfl, hnmi, rfl, rfl, kept.wram, kept.prg, kept.chr, kept.ciram, kept.palette, kept.oam, ?_, ?_, hregs, ?_⟩
  · exact congrArg Cartridge.mapper hcart
  · rw [hcart]
    rfl
  · refine htime.trans ?_
    simp only [show s.dev.reset.ppu.time = PpuTime.atReset from rfl, PpuTime.atReset, Nat.zero_add]

end Sys2Proof.Machine
end

section
/-! The increments of v on its fields (spec/51_ppu_timing_rendering.md section 4), and the picture's priority and colour
(section 6). -/

namespace Sys2Proof.Machine

/-- The number of a word that is a concatenation of fields. -/
theorem toNat_of_fields {w m n : Nat} {x : BitVec w} (y : BitVec m) (h : ∀ i, i < w → x.getLsbD i = y.getLsbD i)
    (hy : y.toNat = n) (hn : n < 2 ^ w) : x.toNat = n := by
  rw [eq_ofNat_of_fields y h hy, BitVec.toNat_ofNat, Nat.mod_eq_of_lt hn]

/-! ## Increments of v (R932) -/

section
variable (v : VramAddr)

/-- The fields of v: coarse X, coarse Y, the two nametable bits and fine Y. -/
theorem vramAddr_fields : v.toNat = v.toNat % 32 + 32 * (v.toNat / 32 % 32) + 1024 * (v.toNat / 1024 % 2) +
    2048 * (v.toNat / 2048 % 2) + 4096 * (v.toNat / 4096) := by
  omega

theorem coarseX_eq_31 : v &&& 0x001F = 31 ↔ v.toNat % 32 = 31 := by
  have hnum : (v &&& 0x001F).toNat = v.toNat % 32 := Nat.and_two_pow_sub_one_eq_mod v.toNat 5
  rw [← BitVec.toNat_inj, hnum]
  rfl

/-- Coarse X cleared and the horizontal nametable switched. -/
theorem coarseX_wrap : ((v &&& 0x7FE0) ^^^ 0x0400).toNat = 32 * (v.toNat / 32 % 32) +
    1024 * (1 - v.toNat / 1024 % 2) + 2048 * (v.toNat / 2048 % 2) + 4096 * (v.toNat / 4096) := by
  have hv := v.isLt
  refine toNat_of_fields (v.extractLsb' 11 4 ++ ~~~(v.extractLsb' 10 1) ++ v.extractLsb' 5 5 ++ 0#5) (fun i hi => ?_) ?_ ?_
  · simp only [BitVec.getLsbD_append]
    interval_cases i <;> simp
  · simp only [toNat_append_eq, BitVec.toNat_not, BitVec.extractLsb'_toNat, Nat.shiftRight_eq_div_pow, BitVec.toNat_ofNat]
    omega
  · omega

theorem fineY_ne_7 : v &&& 0x7000 ≠ 0x7000 ↔ v.toNat / 4096 < 7 := by
  have hv := v.isLt
  have hnum : (v &&& 0x7000).toNat = v.toNat / 4096 * 4096 := by
    refine toNat_of_fields (v.extractLsb' 12 3 ++ 0#12) (fun i hi => ?_) ?_ ?_
    · simp only [BitVec.getLsbD_append]
      interval_cases i <;> simp
    · simp only [toNat_append_eq, BitVec.extractLsb'_toNat, Nat.shiftRight_eq_div_pow, BitVec.toNat_ofNat]
      omega
    · omega
  rw [ne_eq, ← BitVec.toNat_inj, hnum, show (0x7000 : VramAddr).toNat = 28672 from rfl]
  omega

/-- Coarse Y. -/
theorem coarseY_toNat : (((v &&& 0x0FFF) >>> 5) &&& 31).toNat = v.toNat / 32 % 32 := by
  refine toNat_of_fields (v.extractLsb' 5 5) (fun i hi => ?_) ?_ ?_
  · interval_cases i <;> simp
  · simp only [BitVec.extractLsb'_toNat, Nat.shiftRight_eq_div_pow]
  · omega

/-- Fine Y and coarse Y cleared and the vertical nametable switched. -/
theorem coarseY_wrap : (((v &&& 0x0FFF) ^^^ 0x0800) &&& 0x7C1F).toNat =
    v.toNat % 32 + 1024 * (v.toNat / 1024 % 2) + 2048 * (1 - v.toNat / 2048 % 2) := by
  refine toNat_of_fields (~~~(v.extractLsb' 11 1) ++ v.extractLsb' 10 1 ++ 0#5 ++ v.extractLsb' 0 5) (fun i hi => ?_) ?_ ?_
  · simp only [BitVec.getLsbD_append]
    interval_cases i <;> simp
  · simp only [toNat_append_eq, BitVec.toNat_not, BitVec.extractLsb'_toNat, Nat.shiftRight_eq_div_pow, BitVec.toNat_ofNat]
    omega
  · omega

/-- Fine Y cleared and coarse Y set. -/
theorem coarseY_set (c : BitVec 5) : ((v &&& (0x0FFF : VramAddr) &&& 0x7C1F) ||| (c.setWidth 15 <<< 5)).toNat =
    v.toNat % 32 + 32 * c.toNat + 1024 * (v.toNat / 1024 % 2) + 2048 * (v.toNat / 2048 % 2) := by
  have hc := c.isLt
  refine toNat_of_fields (v.extractLsb' 10 2 ++ c ++ v.extractLsb' 0 5) (fun i hi => ?_) ?_ ?_
  · simp only [BitVec.getLsbD_append]
    interval_cases i <;> simp
  · simp only [toNat_append_eq, BitVec.extractLsb'_toNat, Nat.shiftRight_eq_div_pow]
    omega
  · omega

theorem coarseXInc_toNat : (coarseXInc v).toNat =
    (v.toNat % 32 + 1) % 32 + 32 * (v.toNat / 32 % 32) +
      1024 * (if v.toNat % 32 = 31 then 1 - v.toNat / 1024 % 2 else v.toNat / 1024 % 2) +
      2048 * (v.toNat / 2048 % 2) + 4096 * (v.toNat / 4096) := by
  have hv := v.isLt
  have fields := vramAddr_fields v
  rw [coarseXInc]
  by_cases hx : v.toNat % 32 = 31
  · rw [if_pos ((coarseX_eq_31 v).mpr hx), if_pos hx, coarseX_wrap, hx]
    omega
  · rw [if_neg (mt (coarseX_eq_31 v).mp hx), if_neg hx, BitVec.toNat_add, show (1 : VramAddr).toNat = 1 from rfl]
    omega

theorem fineYInc_toNat : (fineYInc v).toNat =
    if v.toNat / 4096 < 7 then v.toNat + 4096
    else v.toNat % 32 + 32 * (if v.toNat / 32 % 32 = 29 ∨ v.toNat / 32 % 32 = 31 then 0 else v.toNat / 32 % 32 + 1) +
      1024 * (v.toNat / 1024 % 2) +
      2048 * (if v.toNat / 32 % 32 = 29 then 1 - v.toNat / 2048 % 2 else v.toNat / 2048 % 2) := by
  have hv := v.isLt
  have hcy := coarseY_toNat v
  have hlit : ∀ c : VramAddr, ((v &&& 0x0FFF) >>> 5) &&& 31 = c ↔ v.toNat / 32 % 32 = c.toNat := fun c => by
    rw [← BitVec.toNat_inj, hcy]
  rw [fineYInc]
  by_cases hfy : v.toNat / 4096 < 7
  · rw [if_pos ((fineY_ne_7 v).mpr hfy), if_pos hfy, BitVec.toNat_add, show (0x1000 : VramAddr).toNat = 4096 from rfl]
    omega
  rw [if_neg (mt (fineY_ne_7 v).mp hfy), if_neg hfy]
  dsimp only
  by_cases h29 : v.toNat / 32 % 32 = 29
  · rw [if_pos ((hlit 29).mpr h29), coarseY_wrap, if_pos (.inl h29), if_pos h29]
    rfl
  rw [if_neg (mt (hlit 29).mp h29), if_neg h29]
  by_cases h31 : v.toNat / 32 % 32 = 31
  · have hset := coarseY_set v 0
    rw [if_pos ((hlit 31).mpr h31), if_pos (.inr h31)]
    simpa using hset
  · rw [if_neg (mt (hlit 31).mp h31), if_neg (by omega)]
    have hnext : (((v &&& 0x0FFF) >>> 5) &&& 31) + 1 = (BitVec.ofNat 5 (v.toNat / 32 % 32 + 1)).setWidth 15 := by
      refine BitVec.eq_of_toNat_eq ?_
      rw [BitVec.toNat_add, hcy, BitVec.toNat_setWidth, BitVec.toNat_ofNat, show (1 : VramAddr).toNat = 1 from rfl]
      omega
    rw [hnext, coarseY_set, BitVec.toNat_ofNat, Nat.mod_eq_of_lt (show v.toNat / 32 % 32 + 1 < 2 ^ 5 by omega)]

end

/-- Settles O54. -/
theorem scrollIncrements : Obligations.ScrollIncrements := by
  unfold Obligations.ScrollIncrements
  exact fun v => ⟨coarseXInc_toNat v, fineYInc_toNat v⟩

/-! ## Priority and colour (R952, R960) -/

theorem bgIndex_toNat (bgPal bgP : BitVec 2) : ((bgPal ++ bgP).setWidth 5).toNat = 4 * bgPal.toNat + bgP.toNat := by
  rw [BitVec.toNat_setWidth, toNat_append_eq]
  omega

theorem spriteIndex_toNat (attr : Byte) (p : BitVec 2) :
    ((1 : BitVec 1) ++ attr.extractLsb' 0 2 ++ p).toNat = 16 + 4 * (attr.toNat % 4) + p.toNat := by
  rw [toNat_append_eq, toNat_append_eq, BitVec.extractLsb'_toNat, show (1 : BitVec 1).toNat = 1 from rfl]
  simp only [Nat.shiftRight_zero]
  omega

/-- The four cases of a background and a sprite pixel. -/
theorem pixelIndex_cases (bgP bgPal p : BitVec 2) (u : SprUnit) :
    pixelIndex 0 bgPal none = 0 ∧
    (p ≠ 0 → (pixelIndex 0 bgPal (some (u, p))).toNat = 16 + 4 * (u.attr.toNat % 4) + p.toNat) ∧
    (bgP ≠ 0 → (pixelIndex bgP bgPal none).toNat = 4 * bgPal.toNat + bgP.toNat) ∧
    (bgP ≠ 0 → p ≠ 0 → (pixelIndex bgP bgPal (some (u, p))).toNat =
      if u.attr.getLsbD 5 then 4 * bgPal.toNat + bgP.toNat else 16 + 4 * (u.attr.toNat % 4) + p.toNat) := by
  refine ⟨rfl, fun _ => spriteIndex_toNat .., fun hbg => ?_, fun hbg _ => ?_⟩
  · rw [pixelIndex]
    simp only [if_neg hbg, bgIndex_toNat]
  · rw [pixelIndex]
    simp only [decide_eq_false hbg, Bool.false_or]
    cases u.attr.getLsbD 5 with
    | true => exact (congrArg BitVec.toNat (if_neg hbg)).trans (bgIndex_toNat ..)
    | false => exact spriteIndex_toNat ..

theorem pixelValue_toNat (mask : Byte) (c : BitVec 6) : (pixelValue mask c).toNat =
    mask.toNat / 32 * 64 + (if mask.toNat % 2 = 1 then c.toNat / 16 % 4 * 16 else c.toNat) := by
  have hmask := mask.isLt
  have grey : ∀ c : BitVec 6, (c &&& 0x30).toNat = c.toNat / 16 % 4 * 16 := by decide
  have colour : ∀ c : BitVec 6, (c &&& 0x3F).toNat = c.toNat := by decide
  rw [pixelValue, toNat_append_eq, BitVec.extractLsb'_toNat, Nat.shiftRight_eq_div_pow, bit0_eq]
  split
  case isTrue h => rw [grey, if_pos (of_decide_eq_true h)]; omega
  case isFalse h => rw [colour, if_neg (by simpa using h)]; omega

/-- Settles O55. -/
theorem pixelPriorityAndValue : Obligations.PixelPriorityAndValue := by
  unfold Obligations.PixelPriorityAndValue
  exact ⟨pixelIndex_cases, pixelValue_toNat⟩

end Sys2Proof.Machine
end

section
/-! Sprite evaluation (spec/51_ppu_timing_rendering.md section 5): the search of OAM as a filter, where it stops, and the
overflow search as a statement about its drifting index. -/

namespace Sys2Proof.Machine

/-! ## The search of OAM (R940) -/

section
variable (oam : Memory) (line h : Nat)

/-- Entry `n` is in range of the line. -/
def spriteHit (n : Nat) : Bool := inRange line (oam.read (4 * n)) h

/-- The search stops as soon as eight entries are found. -/
theorem spriteScan_full (fuel n : Nat) {found : List Nat} (hf : 8 ≤ found.length) :
    spriteScan oam line h fuel n found = (found, n) := by
  cases fuel with
  | zero => rfl
  | succ fuel => rw [spriteScan, if_pos hf]

/-- One entry of the search, while fewer than eight are found. -/
theorem spriteScan_succ (fuel n : Nat) {found : List Nat} (hf : found.length < 8) :
    spriteScan oam line h (fuel + 1) n found =
      spriteScan oam line h fuel (n + 1) (if spriteHit oam line h n then found ++ [n] else found) := by
  rw [spriteScan, if_neg (by omega), ← apply_ite (spriteScan oam line h fuel (n + 1))]
  rfl

/-- The entries found are the first eight in range. -/
theorem spriteScan_found (fuel n : Nat) {found : List Nat} (hf : found.length ≤ 8) :
    (spriteScan oam line h fuel n found).1 = (found ++ (List.range' n fuel).filter (spriteHit oam line h)).take 8 := by
  induction fuel generalizing n found with
  | zero =>
    rw [List.range'_zero, List.filter_nil, List.append_nil, List.take_of_length_le hf]
    rfl
  | succ fuel ih =>
    by_cases hfull : found.length = 8
    · rw [spriteScan_full oam line h _ _ hfull.ge, List.take_append_of_le_length hfull.ge, ← hfull, List.take_length]
    rw [spriteScan_succ oam line h _ _ (by omega), List.range'_succ]
    cases hhit : spriteHit oam line h n with
    | true =>
      rw [if_pos rfl, ih (n + 1) (by rw [List.length_append, List.length_singleton]; omega), List.filter_cons_of_pos hhit,
        List.append_assoc, List.singleton_append]
    | false => rw [if_neg (by decide), ih (n + 1) hf, List.filter_cons_of_neg (by rw [hhit]; decide)]

/-- Where the search stops: after the eighth entry found, or at the end. -/
theorem spriteScan_stop (fuel n : Nat) {found : List Nat} (hf : found.length < 8) :
    let r := spriteScan oam line h fuel n found
    (r.1.length < 8 → r.2 = n + fuel) ∧ (r.1.length = 8 → ∃ last, r.1[7]? = some last ∧ r.2 = last + 1) := by
  induction fuel generalizing n found with
  | zero => exact ⟨fun _ => rfl, fun h8 => absurd h8 hf.ne⟩
  | succ fuel ih =>
    rw [spriteScan_succ oam line h _ _ hf, show n + (fuel + 1) = n + 1 + fuel by omega]
    by_cases hlast : spriteHit oam line h n = true ∧ found.length = 7
    · obtain ⟨hhit, h7⟩ := hlast
      have h8 : (found ++ [n]).length = 8 := by rw [List.length_append, h7, List.length_singleton]
      rw [if_pos hhit, spriteScan_full oam line h _ _ h8.ge]
      exact ⟨fun hlt => absurd h8 hlt.ne, fun _ => ⟨n, by rw [← h7, List.getElem?_concat_length], rfl⟩⟩
    · refine ih (n + 1) ?_
      split
      case isTrue hhit => rw [List.length_append, List.length_singleton]; exact by have := mt (And.intro hhit) hlast; omega
      case isFalse => exact hf

/-- The overflow search (R941), with its byte index drifting along. -/
theorem overflowSearch_iff (fuel n : Nat) {m : Nat} (hm : m < 4) : overflowSearch oam line h fuel n m = true ↔
    ∃ k, k < fuel ∧ inRange line (oam.read (4 * (n + k) + (m + k) % 4)) h = true := by
  induction fuel generalizing n m with
  | zero => exact ⟨fun hs => absurd hs (by rw [overflowSearch]; decide), fun ⟨k, hk, _⟩ => absurd hk (Nat.not_lt_zero k)⟩
  | succ fuel ih =>
    have hzero : 4 * (n + 0) + (m + 0) % 4 = 4 * n + m := by omega
    have hnext : ∀ k, 4 * (n + (k + 1)) + (m + (k + 1)) % 4 = 4 * (n + 1 + k) + ((m + 1) % 4 + k) % 4 := by omega
    rw [overflowSearch]
    split
    case isTrue hhit => exact ⟨fun _ => ⟨0, Nat.succ_pos fuel, by rwa [hzero]⟩, fun _ => rfl⟩
    case isFalse hmiss =>
      rw [ih (n + 1) (Nat.mod_lt _ (by decide))]
      constructor
      · rintro ⟨k, hk, hhit⟩
        exact ⟨k + 1, by omega, by rwa [hnext]⟩
      · rintro ⟨k, hk, hhit⟩
        cases k with
        | zero => exact absurd (hzero ▸ hhit) hmiss
        | succ k => exact ⟨k, by omega, by rwa [hnext] at hhit⟩

/-- The search of the whole of OAM. -/
theorem spriteScan_all : (spriteScan oam line h 64 0 []).1 = ((List.range 64).filter (spriteHit oam line h)).take 8 := by
  rw [spriteScan_found oam line h 64 0 (by decide), List.nil_append, List.range_eq_range']

/-- Entry 0, the first of all, is found exactly when it is in range. -/
theorem spriteScan_zero :
    (((List.range 64).filter (spriteHit oam line h)).take 8).contains 0 = true ↔ spriteHit oam line h 0 = true := by
  rw [List.contains_iff_mem]
  constructor
  · exact fun hmem => (List.mem_filter.mp (List.mem_of_mem_take hmem)).2
  · intro hhit
    rw [List.range_succ_eq_map, List.filter_cons_of_pos hhit, List.take_succ_cons]
    exact List.mem_cons_self

end

/-! ## Evaluation -/

/-- Secondary OAM after an evaluation, slot by slot. -/
theorem spriteEvaluation_oam2 (line : Nat) (d : Devices) {j : Nat} (hj : j < 8) :
    (spriteEvaluation line d).ppu.mem.oam2[j]? = some (oam2Slot d.ppu.mem.oam
      (spriteScan d.ppu.mem.oam line (spriteHeight d.ppu.regs.ctrl) 64 0 []).1 j) := by
  interval_cases j <;> rfl

/-- Settles O53: the entries by the filter, the overflow by where the search stops. -/
theorem spriteEvaluationFindsFirstEight : Obligations.SpriteEvaluationFindsFirstEight := by
  unfold Obligations.SpriteEvaluationFindsFirstEight
  intro line d oam hit found e
  have hfound : (spriteScan oam line (spriteHeight d.ppu.regs.ctrl) 64 0 []).1 = found := spriteScan_all ..
  have hstop := spriteScan_stop oam line (spriteHeight d.ppu.regs.ctrl) 64 0 (found := []) (by decide)
  have hle : found.length ≤ 8 := List.length_take_le 8 _
  have hcount : e.ppu.spr.count = found.length := congrArg List.length hfound
  have hslot : ∀ j, j < 8 → e.ppu.mem.oam2[j]? = some (oam2Slot oam found j) := fun j hj => by
    rw [← hfound]
    exact spriteEvaluation_oam2 line d hj
  have hover : e.ppu.regs.spriteOverflow = (d.ppu.regs.spriteOverflow || overflowSearch oam line
      (spriteHeight d.ppu.regs.ctrl) (64 - (spriteScan oam line (spriteHeight d.ppu.regs.ctrl) 64 0 []).2)
      (spriteScan oam line (spriteHeight d.ppu.regs.ctrl) 64 0 []).2 0) := rfl
  dsimp only at hstop
  rw [hfound] at hstop
  have hfull : ∀ n, found.length = 8 → found[7]? = some n → (e.ppu.regs.spriteOverflow = true ↔
      d.ppu.regs.spriteOverflow = true ∨ ∃ k : Nat, n + 1 + k < 64 ∧
        inRange line (oam.read (4 * (n + 1 + k) + k % 4)) (spriteHeight d.ppu.regs.ctrl) = true) := by
    intro n h8 hn
    obtain ⟨last, hlast, hnext⟩ := hstop.2 h8
    obtain rfl : n = last := Option.some.inj (hn.symm.trans hlast)
    rw [hover, hnext, Bool.or_eq_true, overflowSearch_iff _ _ _ _ _ (by decide)]
    simp only [Nat.zero_add, Nat.lt_sub_iff_add_lt']
  refine ⟨hcount, hcount.trans_le hle, ?_, ?_, ?_, ?_, ?_, hfull⟩
  · intro j n hj
    have hlt : j < found.length := (List.getElem?_eq_some_iff.mp hj).1
    rw [hslot j (by omega), oam2Slot, hj]
  · intro j hj hj8
    rw [hslot j hj8, oam2Slot, List.getElem?_eq_none hj]
  · rw [show e.ppu.spr.zeroNext = found.contains 0 from congrArg (List.contains · 0) hfound]
    exact spriteScan_zero ..
  · intro hlt
    rw [hover, hstop.1 hlt]
    exact Bool.or_false _
  · intro n h8 hn _ hnext
    exact (hfull n h8 hn).mpr (.inr ⟨0, by omega, hnext⟩)

end Sys2Proof.Machine
end

section
/-! Bank numbers and windows (spec/52_mappers.md sections 1 to 7): each variant's windows on numbers. -/

namespace Sys2Proof.Machine

/-! ## Mirroring -/

theorem headerMirroring_mode (m : HeaderMirroring) : m.mode = if decide (m = .horizontal) then .horizontal else .vertical := by
  cases m <;> rfl

/-- The two mirroring bits of MMC1. -/
theorem mmc1_mirroring (m : Mmc1) : m.mirroring = match m.control.toNat % 4 with
    | 0 => .singleLower
    | 1 => .singleUpper
    | 2 => .vertical
    | _ => .horizontal := by
  rw [Mmc1.mirroring, BitVec.extractLsb'_toNat, Nat.shiftRight_zero] <;> rfl

/-- The two mirroring bits of mapper 68. -/
theorem sunsoft4_mirroring (m : Sunsoft4) : m.mirroring = match m.ctl.toNat % 4 with
    | 0 => .vertical
    | 1 => .horizontal
    | 2 => .singleLower
    | _ => .singleUpper := by
  rw [Sunsoft4.mirroring, BitVec.extractLsb'_toNat, Nat.shiftRight_zero] <;> rfl

/-! ## Windows -/

section
variable (h : Header)

/-- MMC1's four PRG modes. -/
theorem mmc1_prg (m : Mmc1) (i : Fin 4) : (m.prgWindows h)[i] =
    if m.control.toNat / 4 % 4 < 2 then h.prgBank (m.prg.toNat % 16 / 2) 4 i.val
    else if m.control.toNat / 4 % 4 = 2 then
      (if i.val < 2 then h.prgBank 0 2 i.val else h.prgBank (m.prg.toNat % 16) 2 (i.val - 2))
    else (if i.val < 2 then h.prgBank (m.prg.toNat % 16) 2 i.val else h.lastPrg16 (i.val - 2)) := by
  have hbank : (m.prg &&& 0x0F).toNat = m.prg.toNat % 16 := Nat.and_two_pow_sub_one_eq_mod m.prg.toNat 4
  have hmode : (m.control.extractLsb' 2 2).toNat = m.control.toNat / 4 % 4 := by
    rw [BitVec.extractLsb'_toNat, Nat.shiftRight_eq_div_pow]
  have modes : m.control.toNat / 4 % 4 = 0 ∨ m.control.toNat / 4 % 4 = 1 ∨ m.control.toNat / 4 % 4 = 2 ∨
      m.control.toNat / 4 % 4 = 3 := by omega
  rw [Mmc1.prgWindows]
  obtain h0 | h1 | h2 | h3 := modes
  · simp only [hbank, hmode, h0]
    fin_cases i <;> rfl
  · simp only [hbank, hmode, h1]
    fin_cases i <;> rfl
  · simp only [hbank, hmode, h2]
    fin_cases i <;> rfl
  · simp only [hbank, hmode, h3]
    fin_cases i <;> rfl

/-- MMC1's two CHR modes. -/
theorem mmc1_chr (m : Mmc1) (i : Fin 8) : (m.chrWindows h)[i] =
    if m.control.toNat / 16 = 0 then h.chrBank (m.chr0.toNat / 2) 8 i.val
    else h.chrBank (if i.val < 4 then m.chr0 else m.chr1).toNat 4 (i.val % 4) := by
  have hbit : ∀ c : BitVec 5, c.getLsbD 4 = !decide (c.toNat / 16 = 0) := by decide
  rw [Mmc1.chrWindows, hbit]
  by_cases hmode : m.control.toNat / 16 = 0
  · rw [if_pos hmode, decide_eq_true hmode]
    fin_cases i <;> rfl
  · rw [if_neg hmode, decide_eq_false hmode]
    fin_cases i <;> rfl

/-- MMC3's two PRG modes. -/
theorem mmc3_prg (m : Mmc3) : m.prgWindows h =
    if m.bankSelect.toNat / 64 % 2 = 0 then
      #v[h.prgBank m.bank[6].toNat 1 0, h.prgBank m.bank[7].toNat 1 0, h.secondLastPrg, h.lastPrg]
    else #v[h.secondLastPrg, h.prgBank m.bank[7].toNat 1 0, h.prgBank m.bank[6].toNat 1 0, h.lastPrg] := by
  have hbit : ∀ b : Byte, b.getLsbD 6 = !decide (b.toNat / 64 % 2 = 0) := by decide
  rw [Mmc3.prgWindows, hbit]
  by_cases hmode : m.bankSelect.toNat / 64 % 2 = 0
  · rw [if_pos hmode, decide_eq_true hmode]
    rfl
  · rw [if_neg hmode, decide_eq_false hmode]
    rfl

/-- MMC3's two CHR modes. -/
theorem mmc3_chr (m : Mmc3) :
    let c2 := fun (n : Fin 8) (j : Nat) => h.chrBank (m.bank[n].toNat / 2) 2 j
    let c1 := fun n : Fin 8 => h.chrBank m.bank[n].toNat 1 0
    m.chrWindows h = if m.bankSelect.toNat / 128 = 0 then #v[c2 0 0, c2 0 1, c2 1 0, c2 1 1, c1 2, c1 3, c1 4, c1 5]
      else #v[c1 2, c1 3, c1 4, c1 5, c2 0 0, c2 0 1, c2 1 0, c2 1 1] := by
  have hbit : ∀ b : Byte, b.getLsbD 7 = !decide (b.toNat / 128 = 0) := by decide
  intro c2 c1
  rw [Mmc3.chrWindows, hbit]
  by_cases hmode : m.bankSelect.toNat / 128 = 0
  · rw [if_pos hmode, decide_eq_true hmode]
    rfl
  · rw [if_neg hmode, decide_eq_false hmode]
    rfl

theorem mapper_prg_lt (m : Mapper) (hl : 1 ≤ h.prg16Count) (i : Fin 4) : (m.windows h).prg[i] < 2 * h.prg16Count := by
  have hpage := m.prgPage_lt hl i.val
  rwa [Vector.getElem?_eq_getElem i.isLt] at hpage

theorem mapper_chr_lt (m : Mapper) (i : Fin 8) : (m.windows h).chr[i] < 8 * max h.chr8Count 1 := by
  have hpage := m.chrPage_lt h i.val
  rwa [Vector.getElem?_eq_getElem i.isLt] at hpage

end

/-- Settles O56, variant by variant. -/
theorem bankNumbersAndWindows : Obligations.BankNumbersAndWindows := by
  unfold Obligations.BankNumbersAndWindows
  refine ⟨fun h b k j => ⟨rfl, rfl⟩, fun m h => ⟨mapper_prg_lt h m, mapper_chr_lt h m⟩, ?_⟩
  intro h p8 last16 screen vertical
  refine ⟨⟨?_, ?_, ?_⟩, fun m => ⟨mmc1_prg h m, mmc1_chr h m, ?_⟩, fun m => ⟨mmc3_prg h m, mmc3_chr h m, rfl⟩,
    fun m => ⟨rfl, ?_, rfl⟩, fun m => ⟨rfl, ?_, rfl⟩, fun m => ⟨rfl, ?_, ?_⟩⟩
  · intro i
    fin_cases i <;> rfl
  · intro i
    fin_cases i <;> rfl
  · exact congrArg screen (headerMirroring_mode _)
  · exact congrArg screen (mmc1_mirroring m)
  · intro i
    fin_cases i <;> rfl
  · exact fun i => Vector.getElem_map ..
  · intro i j
    fin_cases i <;> fin_cases j <;> rfl
  · exact congrArg screen (sunsoft4_mirroring m)

end Sys2Proof.Machine
end

section
/-! Register writes of the cartridge (spec/52_mappers.md sections 2 to 7), with the registers selected by the address and
their fields as arithmetic. -/

namespace Sys2Proof.Machine

/-! ## Bits of the written byte -/

theorem bit0_toNat (v : Byte) : (v.getLsbD 0).toNat = v.toNat % 2 := by revert v; decide
theorem bit1_toNat (v : Byte) : (v.getLsbD 1).toNat = v.toNat / 2 % 2 := by revert v; decide
theorem bit2_toNat (v : Byte) : (v.getLsbD 2).toNat = v.toNat / 4 % 2 := by revert v; decide
theorem bit7_of_lt {v : Byte} (h : v.toNat < 128) : v.getLsbD 7 = false := by revert v; decide
theorem bit7_of_ge {v : Byte} (h : 128 ≤ v.toNat) : v.getLsbD 7 = true := by revert v; decide

/-! ## MMC1's serial port (R1021, R1022) -/

/-- The register that the fifth write's address selects takes the value. -/
def Mmc1.load (m : Mmc1) (a : Word) (value : BitVec 5) : Mmc1 :=
  match a.toNat / 0x2000 % 4 with
  | 0 => { m with control := value }
  | 1 => { m with chr0 := value }
  | 2 => { m with chr1 := value }
  | _ => { m with prg := value }

/-- The shift register with one more bit. -/
def Mmc1.shifted (m : Mmc1) (bit : Bool) : BitVec 5 := m.shift ||| ((BitVec.ofBool bit).setWidth 5 <<< m.count.val)

/-- One bit gathered at cycle `t`. -/
def Mmc1.gather (m : Mmc1) (bit : Bool) (t : Nat) : Mmc1 :=
  { m with shift := m.shifted bit, count := m.count + 1, lastWriteCycle := some t }

theorem gather_consecutive (m : Mmc1) (bit : Bool) {c t : Nat} (h : t ≠ c + 1) : (m.gather bit c).consecutive t = false :=
  beq_eq_false_iff_ne.mpr h

theorem mmc1_consecutive {m : Mmc1} {t : Nat} (h : ∀ c, m.lastWriteCycle = some c → t ≠ c + 1) : m.consecutive t = false := by
  rw [Mmc1.consecutive]
  cases hc : m.lastWriteCycle with
  | none => rfl
  | some c => exact beq_eq_false_iff_ne.mpr (h c hc)

theorem mmc1_select (a : Word) : ((a >>> 13) &&& 3).toNat = a.toNat / 0x2000 % 4 := by
  rw [BitVec.toNat_and, BitVec.toNat_ushiftRight, Nat.shiftRight_eq_div_pow]
  exact Nat.and_two_pow_sub_one_eq_mod _ 2

section
variable {p : Params} {m : Mmc1} {a : Word} {v : Byte} {t : Nat}

/-- A write with bit 7 clear, not right after another, shifts one bit in. -/
theorem mmc1_write_bit (hv : v.toNat < 128) (ht : m.consecutive t = false) :
    m.write p a v t = Mmc1.shiftIn { m with lastWriteCycle := some t } a (v.getLsbD 0) := by
  rw [Mmc1.write, ht, Bool.and_false, bit7_of_lt hv]
  rfl

/-- The first four bits are gathered. -/
theorem mmc1_write_gather (hv : v.toNat < 128) (ht : m.consecutive t = false) (hcount : m.count.val < 4) :
    m.write p a v t = m.gather (v.getLsbD 0) t := by
  rw [mmc1_write_bit hv ht, Mmc1.shiftIn, if_neg (show ¬m.count.val + 1 = 5 by omega)]
  rfl

/-- The fifth bit loads a register and empties the shift register. -/
theorem mmc1_write_load (hv : v.toNat < 128) (ht : m.consecutive t = false) (hcount : m.count.val = 4) :
    m.write p a v t = Mmc1.load { m with shift := 0, count := 0, lastWriteCycle := some t } a (m.shifted (v.getLsbD 0)) := by
  rw [mmc1_write_bit hv ht, Mmc1.shiftIn, if_pos (show m.count.val + 1 = 5 by omega), mmc1_select]
  rfl

/-- Five bits shifted in one after another, the first one lowest. -/
theorem shifted_bits (b1 b2 b3 b4 b5 : Bool) :
    ((((0 ||| (BitVec.ofBool b1).setWidth 5 <<< 0) ||| (BitVec.ofBool b2).setWidth 5 <<< 1) |||
      (BitVec.ofBool b3).setWidth 5 <<< 2) ||| (BitVec.ofBool b4).setWidth 5 <<< 3) ||| (BitVec.ofBool b5).setWidth 5 <<< 4 =
      BitVec.ofNat 5 (b1.toNat + 2 * b2.toNat + 4 * b3.toNat + 8 * b4.toNat + 16 * b5.toNat) := by
  revert b1 b2 b3 b4 b5
  decide

/-- Five writes load the register of the fifth write's address. -/
theorem mmc1_five_writes {a1 a2 a3 a4 a5 : Word} {v1 v2 v3 v4 v5 : Byte} {t1 t2 t3 t4 t5 : Nat}
    (hshift : m.shift = 0) (hcount : m.count = 0) (h1 : ∀ c, m.lastWriteCycle = some c → t1 ≠ c + 1)
    (h2 : t2 ≠ t1 + 1) (h3 : t3 ≠ t2 + 1) (h4 : t4 ≠ t3 + 1) (h5 : t5 ≠ t4 + 1) (hv1 : v1.toNat < 128)
    (hv2 : v2.toNat < 128) (hv3 : v3.toNat < 128) (hv4 : v4.toNat < 128) (hv5 : v5.toNat < 128) :
    ((((m.write p a1 v1 t1).write p a2 v2 t2).write p a3 v3 t3).write p a4 v4 t4).write p a5 v5 t5 =
      Mmc1.load { m with shift := 0, count := 0, lastWriteCycle := some t5 } a5 (BitVec.ofNat 5 (v1.toNat % 2 +
        2 * (v2.toNat % 2) + 4 * (v3.toNat % 2) + 8 * (v4.toNat % 2) + 16 * (v5.toNat % 2))) := by
  rw [mmc1_write_gather hv1 (mmc1_consecutive h1), mmc1_write_gather hv2 (gather_consecutive _ _ h2),
    mmc1_write_gather hv3 (gather_consecutive _ _ h3), mmc1_write_gather hv4 (gather_consecutive _ _ h4),
    mmc1_write_load hv5 (gather_consecutive _ _ h5)]
  · simp only [Mmc1.gather, Mmc1.shifted, hcount, hshift, ← bit0_toNat, ← shifted_bits]
    rfl
  all_goals simp [Mmc1.gather, hcount]

/-- A write with bit 7 set empties the shift register. -/
theorem mmc1_write_reset (hv : 128 ≤ v.toNat) (ht : m.consecutive t = false) (hmode : p.mmc1ResetForcesPrgMode3 = false) :
    m.write p a v t = { m with shift := 0, count := 0, lastWriteCycle := some t } := by
  rw [Mmc1.write, ht, Bool.and_false, bit7_of_ge hv, hmode]
  rfl

theorem mmc1_write_ignored (hignore : p.mmc1IgnoreConsecutive = true) (hlast : m.lastWriteCycle = some t) :
    m.write p a v (t + 1) = { m with lastWriteCycle := some (t + 1) } := by
  rw [Mmc1.write, Mmc1.consecutive, hlast, hignore]
  simp

end

/-! ## The other variants -/

/-- A vector with one entry set, entry by entry. -/
theorem setIfInBounds_eq_ofFn {n : Nat} (x : Vector Byte n) (k : Nat) (v : Byte) :
    x.setIfInBounds k v = Vector.ofFn fun i => if i.val = k then v else x[i] := by
  refine Vector.ext fun i hi => ?_
  rw [Vector.getElem_setIfInBounds hi, Vector.getElem_ofFn]
  exact if_congr eq_comm rfl rfl

theorem set_eq_ofFn {n : Nat} (x : Vector Byte n) (k : Nat) (v : Byte) (h : k < n) :
    x.set k v h = Vector.ofFn fun i => if i.val = k then v else x[i] := by
  refine Vector.ext fun i hi => ?_
  rw [Vector.getElem_set, Vector.getElem_ofFn]
  exact if_congr eq_comm rfl rfl

/-- The eight selections of MMC3. -/
theorem mmc3_write {a : Word} (ha : 0x8000 ≤ a.toNat) (v : Byte) (m : Mmc3) : m.write a v =
    match a.toNat / 0x2000 % 4, a.toNat % 2 with
    | 0, 0 => { m with bankSelect := v }
    | 0, _ => { m with bank := Vector.ofFn fun i => if i.val = m.bankSelect.toNat % 8 then v else m.bank[i] }
    | 1, 0 => { m with mirror := decide (v.toNat % 2 = 1) }
    | 1, _ => m
    | 2, 0 => { m with irqLatch := v }
    | 2, _ => { m with irqCounter := 0, irqReload := true }
    | _, 0 => { m with irqEnable := false, irqPending := false }
    | _, _ => { m with irqEnable := true } := by
  have hlt := a.isLt
  have hbank : (m.bankSelect &&& 7).toNat = m.bankSelect.toNat % 8 := Nat.and_two_pow_sub_one_eq_mod m.bankSelect.toNat 3
  rw [Mmc3.write, regAddr_e001, setIfInBounds_eq_ofFn, hbank, bit0_eq]
  obtain hp | hp | hp | hp : a.toNat / 0x2000 = 4 ∨ a.toNat / 0x2000 = 5 ∨ a.toNat / 0x2000 = 6 ∨ a.toNat / 0x2000 = 7 := by
    omega
  all_goals
    obtain ho | ho : a.toNat % 2 = 0 ∨ a.toNat % 2 = 1 := by omega
    all_goals rw [hp, ho]; rfl

/-- A VRC1 CHR register's fifth bit. -/
theorem vrc1_high (b : Bool) (x : BitVec 5) : BitVec.ofBool b ++ x.extractLsb' 0 4 =
    BitVec.ofNat 5 (16 * b.toNat + x.toNat % 16) := by
  revert b x
  decide

/-- A VRC1 CHR register's low four bits. -/
theorem vrc1_low (x : BitVec 5) (v : Byte) : x.extractLsb' 4 1 ++ v.setWidth 4 =
    BitVec.ofNat 5 (x.toNat / 16 * 16 + v.toNat % 16) := by
  have hx := x.isLt
  refine BitVec.eq_of_toNat_eq ?_
  rw [toNat_append_eq, BitVec.extractLsb'_toNat, BitVec.toNat_setWidth, BitVec.toNat_ofNat, Nat.shiftRight_eq_div_pow]
  omega

/-- The pages of the PRG window. -/
theorem page_cases {a : Word} (ha : 0x8000 ≤ a.toNat) : a.toNat / 0x1000 = 8 ∨ a.toNat / 0x1000 = 9 ∨
    a.toNat / 0x1000 = 10 ∨ a.toNat / 0x1000 = 11 ∨ a.toNat / 0x1000 = 12 ∨ a.toNat / 0x1000 = 13 ∨
    a.toNat / 0x1000 = 14 ∨ a.toNat / 0x1000 = 15 := by
  have := a.isLt
  omega

theorem vrc1_write {a : Word} (ha : 0x8000 ≤ a.toNat) (v : Byte) (m : Vrc1) : m.write a v =
    match a.toNat / 0x1000 with
    | 8 => { m with prg0 := BitVec.ofNat 4 (v.toNat % 16) }
    | 9 => { m with
        mirror := decide (v.toNat % 2 = 1)
        chr0 := BitVec.ofNat 5 (16 * (v.toNat / 2 % 2) + m.chr0.toNat % 16)
        chr1 := BitVec.ofNat 5 (16 * (v.toNat / 4 % 2) + m.chr1.toNat % 16) }
    | 10 => { m with prg1 := BitVec.ofNat 4 (v.toNat % 16) }
    | 12 => { m with prg2 := BitVec.ofNat 4 (v.toNat % 16) }
    | 14 => { m with chr0 := BitVec.ofNat 5 (m.chr0.toNat / 16 * 16 + v.toNat % 16) }
    | 15 => { m with chr1 := BitVec.ofNat 5 (m.chr1.toNat / 16 * 16 + v.toNat % 16) }
    | _ => m := by
  rw [Vrc1.write, regAddr_f000, vrc1_high, vrc1_high, bit1_toNat, bit2_toNat, bit0_eq, vrc1_low, vrc1_low,
    setWidth_eq_ofNat 4 v]
  obtain hp | hp | hp | hp | hp | hp | hp | hp := page_cases ha
  all_goals rw [hp]; rfl

/-- A nibble of a VRC2b CHR register, on numbers. -/
theorem setNibble_eq (old v : Byte) (a : Word) : setNibble old (a.getLsbD 0) (v.setWidth 4) =
    BitVec.ofNat 8 (if a.toNat % 2 = 0 then old.toNat / 16 * 16 + v.toNat % 16 else v.toNat % 16 * 16 + old.toNat % 16) := by
  have hold := old.isLt
  have hodd : a.getLsbD 0 = !decide (a.toNat % 2 = 0) := by
    rw [BitVec.getLsbD, Nat.testBit_zero]
    rcases Nat.mod_two_eq_zero_or_one a.toNat with h | h <;> rw [h] <;> rfl
  refine BitVec.eq_of_toNat_eq ?_
  by_cases h : a.toNat % 2 = 0
  · rw [setNibble, hodd, decide_eq_true h, if_neg (by decide), if_pos h, toNat_append_eq, BitVec.extractLsb'_toNat,
      BitVec.toNat_setWidth, BitVec.toNat_ofNat, Nat.shiftRight_eq_div_pow]
    omega
  · rw [setNibble, hodd, decide_eq_false h, if_pos (by decide), if_neg h, toNat_append_eq, BitVec.extractLsb'_toNat,
      BitVec.toNat_setWidth, BitVec.toNat_ofNat, Nat.shiftRight_zero]
    omega

/-- One nibble of the CHR register `k`, entry by entry. -/
theorem vrc2b_writeChr (m : Vrc2b) (k : Nat) (a : Word) (v : Byte) : m.writeChr k (a.getLsbD 0) v =
    { m with chr := Vector.ofFn fun i =>
        let old := m.chr[i].toNat
        if i.val ≠ k then m.chr[i]
        else BitVec.ofNat 8 (if a.toNat % 2 = 0 then old / 16 * 16 + v.toNat % 16 else v.toNat % 16 * 16 + old % 16) } := by
  rw [Vrc2b.writeChr, setIfInBounds_eq_ofFn]
  congr 2
  funext i
  dsimp only
  by_cases hi : i.val = k
  · subst hi
    rw [if_pos rfl, if_neg (fun h => h rfl), setNibble_eq, Vector.getElem?_eq_getElem i.isLt]
    rfl
  · rw [if_neg hi, if_pos hi]

theorem vrc2b_write {a : Word} (ha : 0x8000 ≤ a.toNat) (v : Byte) (m : Vrc2b) : m.write a v =
    let page := a.toNat / 0x1000
    if page = 8 then { m with prg0 := BitVec.ofNat 5 (v.toNat % 32) }
    else if page = 9 then { m with mirror := decide (v.toNat % 2 = 1) }
    else if page = 10 then { m with prg1 := BitVec.ofNat 5 (v.toNat % 32) }
    else if page = 15 then m
    else { m with chr := Vector.ofFn fun i =>
        let old := m.chr[i].toNat
        if i.val ≠ 2 * (page - 11) + a.toNat / 2 % 2 then m.chr[i]
        else BitVec.ofNat 8 (if a.toNat % 2 = 0 then old / 16 * 16 + v.toNat % 16 else v.toNat % 16 * 16 + old % 16) } := by
  have hsecond : (if a.getLsbD 1 then 1 else 0) = a.toNat / 2 % 2 := by
    rw [BitVec.getLsbD, Nat.testBit_eq_decide_div_mod_eq]
    rcases Nat.mod_two_eq_zero_or_one (a.toNat / 2) with h | h <;> rw [pow_one, h] <;> rfl
  rw [Vrc2b.write, regAddr_f000, hsecond]
  simp only [vrc2b_writeChr, setWidth_eq_ofNat 5 v, bit0_eq]
  obtain hp | hp | hp | hp | hp | hp | hp | hp := page_cases ha
  all_goals rw [hp]; rfl

theorem sunsoft4_write {a : Word} (ha : 0x8000 ≤ a.toNat) (v : Byte) (m : Sunsoft4) : m.write a v =
    let page := a.toNat / 0x1000
    if page < 12 then { m with chr := Vector.ofFn fun i => if i.val = page - 8 then v else m.chr[i] }
    else if page = 12 then { m with nt0 := BitVec.ofNat 7 (v.toNat % 128) }
    else if page = 13 then { m with nt1 := BitVec.ofNat 7 (v.toNat % 128) }
    else if page = 14 then { m with ctl := v }
    else { m with prg := BitVec.ofNat 4 (v.toNat % 16) } := by
  rw [Sunsoft4.write, regAddr_f000, setWidth_eq_ofNat 7 v, setWidth_eq_ofNat 4 v]
  simp only [set_eq_ofFn]
  obtain hp | hp | hp | hp | hp | hp | hp | hp := page_cases ha
  all_goals rw [hp]; rfl

/-- Settles O57. -/
theorem mapperRegisterWrites : Obligations.MapperRegisterWrites := by
  unfold Obligations.MapperRegisterWrites
  refine ⟨fun p m a1 a2 a3 a4 a5 v1 v2 v3 v4 v5 t1 t2 t3 t4 t5 => ⟨?_, ?_, mmc1_write_ignored⟩, fun a v ha => ⟨mmc3_write ha v,
    vrc1_write ha v, vrc2b_write ha v, sunsoft4_write ha v, fun p t => ⟨rfl, fun _ => rfl, fun _ => rfl, fun _ => rfl,
    fun _ => rfl, fun _ => rfl⟩⟩⟩
  · exact mmc1_five_writes
  · exact fun hv ht hmode => mmc1_write_reset hv (mmc1_consecutive ht) hmode

end Sys2Proof.Machine
end

section
/-! MMC3's IRQ counter and its observer of A12 (spec/52_mappers.md section 4). -/

namespace Sys2Proof.Machine

/-! ## The counter (R1045) -/

section
variable (p : Params) {m : Mmc3}

/-- A clock with a reload due takes the latch, in both revisions. -/
theorem clockCounter_reload (h : m.irqReload = true) : m.clockCounter p =
    { m with irqCounter := m.irqLatch, irqReload := false,
             irqPending := m.irqPending || (decide (m.irqLatch = 0) && m.irqEnable) } := by
  rw [Mmc3.clockCounter]
  cases p.mmc3IrqVariant <;> simp [h]

/-- A clock of a counter that has not run out, with no reload due, counts down. -/
theorem clockCounter_down (hreload : m.irqReload = false) (hcounter : m.irqCounter ≠ 0) : m.clockCounter p =
    { m with irqCounter := m.irqCounter - 1,
             irqPending := m.irqPending || (decide (m.irqCounter - 1 = 0) && m.irqEnable) } := by
  rw [Mmc3.clockCounter]
  simp only [decide_eq_false hcounter, hreload, Bool.or_self, Bool.false_eq_true, if_false]
  cases p.mmc3IrqVariant with
  | sharp => rfl
  | nec => simp only [ne_eq, hcounter, not_false_eq_true, decide_true, Bool.true_or, Bool.and_true]

/-- The counter `j` clocks after it took the value `r`. -/
structure Mmc3.Counting (m : Mmc3) (r : Byte) (j : Nat) : Prop where
  counter : m.irqCounter.toNat + j = r.toNat
  reload : m.irqReload = false
  enable : m.irqEnable = true
  pending : m.irqPending = decide (j = r.toNat)

/-- A byte is 0 exactly as its number is. -/
theorem byte_eq_zero (b : Byte) : b = 0 ↔ b.toNat = 0 := by
  rw [← BitVec.toNat_inj]
  rfl

theorem counting_start {r : Byte} (hlatch : m.irqLatch = r) (hreload : m.irqReload = true) (henable : m.irqEnable = true)
    (hpending : m.irqPending = false) : (m.clockCounter p).Counting r 0 := by
  rw [clockCounter_reload p hreload]
  refine ⟨congrArg BitVec.toNat hlatch, rfl, henable, ?_⟩
  simp only [hlatch, henable, hpending, Bool.false_or, Bool.and_true, byte_eq_zero, eq_comm]

theorem counting_succ {r : Byte} {j : Nat} (h : m.Counting r j) (hj : j < r.toNat) :
    (m.clockCounter p).Counting r (j + 1) := by
  have hcounter := h.counter
  have hne : m.irqCounter ≠ 0 := fun h0 => by
    rw [byte_eq_zero] at h0
    omega
  have hsub : (m.irqCounter - 1).toNat = m.irqCounter.toNat - 1 := BitVec.toNat_sub_of_le (by
    rw [BitVec.le_def]
    exact show 1 ≤ m.irqCounter.toNat by omega)
  rw [clockCounter_down p h.reload hne]
  refine ⟨?_, h.reload, h.enable, ?_⟩
  · simp only [hsub]
    omega
  · simp only [h.pending, h.enable, Bool.and_true, byte_eq_zero, hsub, ← Bool.decide_or, decide_eq_decide]
    omega

/-- After the reload, `j` more clocks. -/
theorem counting_iterate {r : Byte} (hlatch : m.irqLatch = r) (hreload : m.irqReload = true) (henable : m.irqEnable = true)
    (hpending : m.irqPending = false) {j : Nat} (hj : j ≤ r.toNat) : ((Mmc3.clockCounter p)^[j + 1] m).Counting r j := by
  induction j with
  | zero => exact counting_start p hlatch hreload henable hpending
  | succ j ih =>
    rw [Function.iterate_succ_apply']
    exact counting_succ p (ih (by omega)) (by omega)

/-- Clocking never clears the IRQ. -/
theorem clockCounter_pending (h : m.irqPending = true) : (m.clockCounter p).irqPending = true := by
  rw [Mmc3.clockCounter, h, Bool.true_or]

end

/-- Only a write that selects $E000 clears the IRQ. -/
theorem mmc3_write_pending (m : Mmc3) (a : Word) (v : Byte) :
    (m.write a v).irqPending = (m.irqPending && decide (a &&& 0xE001 ≠ 0xE000)) := by
  by_cases h : a &&& 0xE001 = 0xE000
  · rw [decide_eq_false (fun hne => hne h), Bool.and_false, Mmc3.write, h]
    rfl
  · rw [decide_eq_true h, Bool.and_true, Mmc3.write]
    split
    case h_6 hselect => exact absurd (BitVec.eq_of_toNat_eq hselect) h
    all_goals rfl

/-! ## The observer (R1046) -/

theorem bit12_eq (a : PpuAddr) : a.getLsbD 12 = decide (a.toNat / 0x1000 % 2 = 1) := Nat.testBit_eq_decide_div_mod_eq

/-- A rise of A12 clocks the counter only after a long enough low. -/
theorem observe_high (p : Params) (m : Mmc3) {a : PpuAddr} (t : Nat) (ha : a.toNat / 0x1000 % 2 = 1) :
    m.observe p a t = { (if m.a12Prev = false ∧ m.a12LowSince + p.a12FilterDots ≤ t then m.clockCounter p else m) with
      a12Prev := true } := by
  rw [Mmc3.observe, bit12_eq, decide_eq_true ha]
  simp only [if_true, Bool.and_eq_true, Bool.not_eq_true', decide_eq_true_eq]

theorem observe_low (p : Params) (m : Mmc3) {a : PpuAddr} (t : Nat) (ha : a.toNat / 0x1000 % 2 = 0) :
    m.observe p a t = { m with a12LowSince := if m.a12Prev then t else m.a12LowSince, a12Prev := false } := by
  rw [Mmc3.observe, bit12_eq, decide_eq_false (by omega)]
  rfl

/-- Settles O58: the counter by the clocks since its reload, the observer by its two levels. -/
theorem mmc3CountsRPlusOneEdges : Obligations.Mmc3CountsRPlusOneEdges := by
  unfold Obligations.Mmc3CountsRPlusOneEdges
  refine ⟨?counter, fun p m => clockCounter_pending p, mmc3_write_pending, ?observer, ?variants⟩
  case counter =>
    intro p m r v w hpending start
    have count : ∀ j, j ≤ r.toNat → ((Mmc3.clockCounter p)^[j + 1] start).Counting r j :=
      fun j => counting_iterate p (m := start) rfl rfl rfl hpending
    refine ⟨fun k hk => ?_, ?_⟩
    · cases k with
      | zero => exact hpending
      | succ j => rw [(count j (by omega)).pending, decide_eq_false (by omega)]
    · rw [(count r.toNat le_rfl).pending, decide_eq_true rfl]
  case observer =>
    intro p m a t long
    refine ⟨fun ha hprev hlong => ?_, fun ha hshort => ?_, fun ha hprev => ?_, fun ha hprev => ?_⟩
    · rw [observe_high p m t ha, if_pos ⟨hprev, hlong⟩]
    · rw [observe_high p m t ha, if_neg]
      rintro ⟨hprev, hlong⟩
      exact hshort.elim (fun h => by rw [h] at hprev; exact absurd hprev (by decide)) (fun h => h hlong)
    · rw [observe_low p m t ha, hprev]
      rfl
    · rw [observe_low p m t ha, hprev]
      cases m
      cases hprev
      rfl
  case variants =>
    intro p m a t
    refine ⟨?_, fun hother => ?_⟩
    · rintro k rfl
      exact ⟨rfl, rfl⟩
    · cases m with
      | mmc3 k => exact absurd rfl (hother k)
      | nrom => exact ⟨rfl, rfl⟩
      | mmc1 m => exact ⟨rfl, rfl⟩
      | vrc1 m => exact ⟨rfl, rfl⟩
      | vrc2b m => exact ⟨rfl, rfl⟩
      | sunsoft4 m => exact ⟨rfl, rfl⟩

end Sys2Proof.Machine
end
